-- ==== Sys2Proof/Word.lean ====
section
/-! DEFINITION. The word, byte, tag and register-number types of the RCP and its host core (10_state.md R18,
30_encoding.md R50, R56). -/

namespace Sys2Proof

/-- A byte of program text (20_memory.md R34). -/
abbrev Byte := BitVec 8

/-- A 32-bit value: a core register, CPRDATA, or an instruction word `W = {hw1, hw2}` (10_state.md R18,
30_encoding.md R50). -/
abbrev Word := BitVec 32

/-- The 8-bit immediate `{CRn, CRm}` (30_encoding.md R56). -/
abbrev Tag := BitVec 8

/-- The number of a core register, 0 to 15 (10_state.md R18). -/
abbrev Reg := Fin 16

end Sys2Proof
end

