-- ==== Sys2Proof/Syntax.lean ====
section
/-! DEFINITION. The 20 RCP instructions (30_encoding.md R60), one constructor per row of the opcode table. `nd` is
the no-delay bit, true for the `*2` variant (R54); `rt`, `rt2` are core register numbers (R58); `tag` is the
immediate `{CRn, CRm}` (R56). -/

namespace Sys2Proof

inductive Instr where
  | rcpSaltCore0 (nd : Bool) (rt rt2 : Reg)
  | rcpSaltCore1 (nd : Bool) (rt rt2 : Reg)
  | rcpCanaryStatus (nd : Bool) (rt : Reg)
  | rcpCanaryGet (nd : Bool) (rt : Reg) (tag : Tag)
  | rcpCanaryCheck (nd : Bool) (rt : Reg) (tag : Tag)
  | rcpBvalid (nd : Bool) (rt : Reg)
  | rcpBtrue (nd : Bool) (rt : Reg)
  | rcpBfalse (nd : Bool) (rt : Reg)
  | rcpB2valid (nd : Bool) (rt rt2 : Reg)
  | rcpB2and (nd : Bool) (rt rt2 : Reg)
  | rcpB2or (nd : Bool) (rt rt2 : Reg)
  | rcpBxorvalid (nd : Bool) (rt rt2 : Reg)
  | rcpBxortrue (nd : Bool) (rt rt2 : Reg)
  | rcpBxorfalse (nd : Bool) (rt rt2 : Reg)
  | rcpIvalid (nd : Bool) (rt rt2 : Reg)
  | rcpIequal (nd : Bool) (rt rt2 : Reg)
  | rcpRandomByte (nd : Bool) (rt : Reg)
  | rcpCountSet (nd : Bool) (rt : Reg) (tag : Tag)
  | rcpCountCheck (nd : Bool) (rt : Reg) (tag : Tag)
  | rcpPanic (nd : Bool)
deriving DecidableEq, Repr

end Sys2Proof
end

