-- ==== Sys2Proof/Decode.lean ====
section
/-! DEFINITION. Decoding and encoding of coprocessor-7 instructions: the fields of the formats R51 to R53, the
validation rules R59, the opcode map R60, the decoding order R61, and the encoder written from the same formats
(all of 30_encoding.md). The bit positions and 18 of the 20 opcodes are PRESUMED (general knowledge, log 12). -/

namespace Sys2Proof

/-! ## Bits -/

/-- Number of 1 bits among bits `k-1 .. 0` of `v`. -/
def onesBelow {n : Nat} (v : BitVec n) : Nat → Nat
  | 0 => 0
  | k + 1 => onesBelow v k + (v.getLsbD k).toNat

/-- `popcount(v)` (00_scope.md section 5). -/
def popcount {n : Nat} (v : BitVec n) : Nat := onesBelow v n

/-- `parity(v)`, the XOR reduction of `v` (00_scope.md section 5). -/
def parity {n : Nat} (v : BitVec n) : Bool := popcount v % 2 == 1

/-- PARITY_ODD, default true (30_encoding.md R57, 90_conflicts.md C1; log 11). -/
def parityOdd : Bool := true

/-- The parity rule: `popcount(Opc1)` plus the parity bit is odd (30_encoding.md R57). -/
def parityOk {n : Nat} (opc1 : BitVec n) (p : Bool) : Bool :=
  ((popcount opc1 + p.toNat) % 2 == 1) == parityOdd

/-- A 4-bit register field as a register number (30_encoding.md R58). -/
def regOf (v : BitVec 4) : Reg := v.toFin

/-- A register number as its 4-bit field. -/
def regBits (r : Reg) : BitVec 4 := BitVec.ofFin r

/-! ## Fields of an instruction word (30_encoding.md R51 to R56) -/

/-- `W[28]`, the no-delay bit (R54). -/
def fieldNd (w : Word) : Bool := w.getLsbD 28
/-- `W[11:8]` (R55). -/
def fieldCoproc (w : Word) : BitVec 4 := w.extractLsb' 8 4
/-- `Opc1` of the MCR/MRC format, `W[23:21]` (R51). -/
def fieldOpc1Mcr (w : Word) : BitVec 3 := w.extractLsb' 21 3
/-- `Opc1` of the CDP format, `W[23:20]` (R52). -/
def fieldOpc1Cdp (w : Word) : BitVec 4 := w.extractLsb' 20 4
/-- `Opc1` of the MCRR/MRRC format, `W[7:4]` (R53). -/
def fieldOpc1Mcrr (w : Word) : BitVec 4 := w.extractLsb' 4 4
/-- `CRn`, or `Rt2` of the MCRR/MRRC format, `W[19:16]` (R51, R53). -/
def fieldCrn (w : Word) : BitVec 4 := w.extractLsb' 16 4
/-- `CRm`, `W[3:0]` (R51). -/
def fieldCrm (w : Word) : BitVec 4 := w.extractLsb' 0 4
/-- `Rt`, `W[15:12]` (R51, R53). -/
def fieldRt (w : Word) : Reg := regOf (w.extractLsb' 12 4)
/-- `Rt2`, `W[19:16]` (R53). -/
def fieldRt2 (w : Word) : Reg := regOf (w.extractLsb' 16 4)
/-- `tag = {CRn, CRm}` (R56). -/
def fieldTag (w : Word) : Tag := fieldCrn w ++ fieldCrm w

/-! ## Classes and validation -/

/-- The five classes of coprocessor-7 instructions the RCP's validation speaks of (R50, R59). -/
inductive Cls where
  | mcr
  | mrc
  | mcrr
  | mrrc
  | cdp
deriving DecidableEq, Repr

/-- Why a word is no listed RCP instruction. -/
inductive DecodeError where
  /-- not a coprocessor instruction for coprocessor 7 (R55, R61 step 1) -/
  | notRcp
  /-- `ldc`, `stc` and neighbours with coprocessor 7 (R64) -/
  | ldcStc
  /-- fails the validation rules (R59) -/
  | invalid (c : Cls)
  /-- passes the validation rules and is no listed instruction (R62) -/
  | unlisted (c : Cls)
  /-- fewer than four bytes -/
  | truncated
deriving DecidableEq, Repr

/-- Steps 1 to 4 of the decoding order (R61). -/
def classOf (w : Word) : Except DecodeError Cls :=
  if fieldCoproc w != 7 || w.extractLsb' 29 3 != 7 || w.extractLsb' 26 2 != 3 || w.extractLsb' 24 4 == 15 then
    .error .notRcp
  else if w.extractLsb' 24 4 == 14 then
    .ok (if w.getLsbD 4 then (if w.getLsbD 20 then .mrc else .mcr) else .cdp)
  else if w.extractLsb' 21 7 == 0b1100010 then
    .ok (if w.getLsbD 20 then .mrrc else .mcrr)
  else .error .ldcStc

/-- `CRn` and `CRm` are all-zeroes (R59 items 3, 4). -/
def noTag (w : Word) : Bool := fieldCrn w == 0 && fieldCrm w == 0

/-- The validation rules of R59, class by class. -/
def validWord (c : Cls) (w : Word) : Bool :=
  match c with
  | .mcr =>
    parityOk (fieldOpc1Mcr w) (w.getLsbD 5) && decide (fieldOpc1Mcr w ≤ 6)
      && (fieldOpc1Mcr w == 0 || fieldOpc1Mcr w == 4 || fieldOpc1Mcr w == 5 || noTag w)
  | .mrc =>
    parityOk (fieldOpc1Mcr w) (w.getLsbD 5) && decide (fieldOpc1Mcr w ≤ 2)
      && (fieldOpc1Mcr w == 0 || noTag w)
  | .mcrr =>
    parityOk (fieldOpc1Mcrr w) (w.getLsbD 3) && decide (fieldOpc1Mcrr w ≤ 8)
      && (if fieldOpc1Mcrr w == 8 then decide (w.extractLsb' 0 3 ≤ 1) else w.extractLsb' 0 3 == 0)
  | .mrrc => false
  | .cdp => parityOk (fieldOpc1Cdp w) (w.getLsbD 5)

/-! ## The opcode map -/

/-- A row of R60: the word is this instruction when `W & mask = pattern`. -/
structure OpcodeRow where
  mask : Word
  pattern : Word
  build : Word → Instr

/-- The word is selected by the row (R60). -/
def OpcodeRow.selects (r : OpcodeRow) (w : Word) : Bool := w &&& r.mask == r.pattern

/-- Row of an MCRR instruction: `nd`, `Rt`, `Rt2` free. -/
def rowMcrr (pattern : Word) (mk : Bool → Reg → Reg → Instr) : OpcodeRow :=
  ⟨0xEFF00FFF, pattern, fun w => mk (fieldNd w) (fieldRt w) (fieldRt2 w)⟩

/-- Row of an MCR or MRC instruction without a tag: `nd`, `Rt` free. -/
def rowNoTag (pattern : Word) (mk : Bool → Reg → Instr) : OpcodeRow :=
  ⟨0xEFFF0FFF, pattern, fun w => mk (fieldNd w) (fieldRt w)⟩

/-- Row of an MCR or MRC instruction that carries a tag: `nd`, `Rt`, `CRn`, `CRm` free. -/
def rowTag (pattern : Word) (mk : Bool → Reg → Tag → Instr) : OpcodeRow :=
  ⟨0xEFF00FF0, pattern, fun w => mk (fieldNd w) (fieldRt w) (fieldTag w)⟩

/-- Row of a CDP instruction: `nd` free. -/
def rowCdp (pattern : Word) (mk : Bool → Instr) : OpcodeRow :=
  ⟨0xEFFFFFFF, pattern, fun w => mk (fieldNd w)⟩

/-- The MCRR rows of R60. -/
def rowsMcrr : List OpcodeRow :=
  [rowMcrr 0xEC400780 .rcpSaltCore0, rowMcrr 0xEC400781 .rcpSaltCore1,
   rowMcrr 0xEC400708 .rcpB2valid, rowMcrr 0xEC400710 .rcpB2and, rowMcrr 0xEC400720 .rcpB2or,
   rowMcrr 0xEC400738 .rcpBxorvalid, rowMcrr 0xEC400740 .rcpBxortrue, rowMcrr 0xEC400758 .rcpBxorfalse,
   rowMcrr 0xEC400768 .rcpIvalid, rowMcrr 0xEC400770 .rcpIequal]

/-- The MCR and MRC rows of R60 that carry no tag. -/
def rowsNoTag : List OpcodeRow :=
  [rowNoTag 0xEE300710 .rcpCanaryStatus, rowNoTag 0xEE200710 .rcpBvalid, rowNoTag 0xEE400710 .rcpBtrue,
   rowNoTag 0xEE600730 .rcpBfalse, rowNoTag 0xEE500710 .rcpRandomByte]

/-- The MCR and MRC rows of R60 that carry a tag. -/
def rowsTag : List OpcodeRow :=
  [rowTag 0xEE100730 .rcpCanaryGet, rowTag 0xEE000730 .rcpCanaryCheck,
   rowTag 0xEE800710 .rcpCountSet, rowTag 0xEEA00730 .rcpCountCheck]

/-- OPCODE_MAP: the table of R60 (log 12). -/
def opcodeMap : List OpcodeRow :=
  rowsMcrr ++ rowsNoTag ++ rowsTag ++ [rowCdp 0xEE000720 .rcpPanic]

/-- The listed instruction a word stands for, if any (R61 step 6). -/
def lookupRow (w : Word) : Option Instr :=
  (opcodeMap.find? (·.selects w)).map (·.build w)

/-- Decoding of a word in the order of R61. -/
def decodeWord (w : Word) : Except DecodeError Instr :=
  match classOf w with
  | .error e => .error e
  | .ok c =>
    if validWord c w then
      match lookupRow w with
      | some i => .ok i
      | none => .error (.unlisted c)
    else .error (.invalid c)

/-! ## Bytes (20_memory.md R34) -/

/-- The word of four bytes at rising addresses: `W[23:16], W[31:24], W[7:0], W[15:8]` (R34; log 13). -/
def wordOfBytes (b0 b1 b2 b3 : Byte) : Word := b1 ++ b0 ++ b3 ++ b2

/-- The four bytes of a word at rising addresses (R34; log 13). -/
def bytesOfWord (w : Word) : List Byte :=
  [w.extractLsb' 16 8, w.extractLsb' 24 8, w.extractLsb' 0 8, w.extractLsb' 8 8]

/-- Decoding of bytes: the instruction and the bytes after it; total, and rejecting by name. -/
def decodeBytes : List Byte → Except DecodeError (Instr × List Byte)
  | b0 :: b1 :: b2 :: b3 :: rest =>
    match decodeWord (wordOfBytes b0 b1 b2 b3) with
    | .ok i => .ok (i, rest)
    | .error e => .error e
  | _ => .error .truncated

/-- The word whose table bits are the low `nbits` bits of `w`, the bits above them 0. -/
def tableWord (nbits w : Nat) : Word := BitVec.ofNat 32 (w % 2 ^ nbits)

/-- The instruction the decoder reads from a word of the opcode table, whose bit 0 is `W[0]`. -/
def decodeTableWord (nbits w : Nat) : Option Instr :=
  match decodeBytes (bytesOfWord (tableWord nbits w)) with
  | .ok (i, _) => some i
  | .error _ => none

/-! ## Encoding -/

/-- A field placed with its bit 0 at bit `lo` of the word. -/
def place {n : Nat} (v : BitVec n) (lo : Nat) : Word := v.setWidth 32 <<< lo

/-- The formula of R51 with `coproc = 7`. -/
def encodeMcrMrc (nd l : Bool) (opc1 : BitVec 3) (crn : BitVec 4) (rt : Reg) (opc2 : BitVec 3) (crm : BitVec 4) : Word :=
  0xEE000010 ||| place (BitVec.ofBool nd) 28 ||| place opc1 21 ||| place (BitVec.ofBool l) 20 ||| place crn 16
    ||| place (regBits rt) 12 ||| place (7 : BitVec 4) 8 ||| place opc2 5 ||| place crm 0

/-- The formula of R52 with `coproc = 7`. -/
def encodeCdp (nd : Bool) (opc1 crn crd : BitVec 4) (opc2 : BitVec 3) (crm : BitVec 4) : Word :=
  0xEE000000 ||| place (BitVec.ofBool nd) 28 ||| place opc1 20 ||| place crn 16 ||| place crd 12
    ||| place (7 : BitVec 4) 8 ||| place opc2 5 ||| place crm 0

/-- The formula of R53 with `coproc = 7`. -/
def encodeMcrrMrrc (nd l : Bool) (rt2 rt : Reg) (opc1 crm : BitVec 4) : Word :=
  0xEC400000 ||| place (BitVec.ofBool nd) 28 ||| place (BitVec.ofBool l) 20 ||| place (regBits rt2) 16
    ||| place (regBits rt) 12 ||| place (7 : BitVec 4) 8 ||| place opc1 4 ||| place crm 0

/-- `CRn` of a tag: its four MSBs (R56). -/
def tagCrn (t : Tag) : BitVec 4 := t.extractLsb' 4 4
/-- `CRm` of a tag: its four LSBs (R56). -/
def tagCrm (t : Tag) : BitVec 4 := t.extractLsb' 0 4

/-- The assembler form of each instruction (R60) in its format (R51 to R53). -/
def encode : Instr → Word
  | .rcpSaltCore0 nd rt rt2 => encodeMcrrMrrc nd false rt2 rt 8 0
  | .rcpSaltCore1 nd rt rt2 => encodeMcrrMrrc nd false rt2 rt 8 1
  | .rcpCanaryStatus nd rt => encodeMcrMrc nd true 1 0 rt 0 0
  | .rcpCanaryGet nd rt tag => encodeMcrMrc nd true 0 (tagCrn tag) rt 1 (tagCrm tag)
  | .rcpCanaryCheck nd rt tag => encodeMcrMrc nd false 0 (tagCrn tag) rt 1 (tagCrm tag)
  | .rcpBvalid nd rt => encodeMcrMrc nd false 1 0 rt 0 0
  | .rcpBtrue nd rt => encodeMcrMrc nd false 2 0 rt 0 0
  | .rcpBfalse nd rt => encodeMcrMrc nd false 3 0 rt 1 0
  | .rcpB2valid nd rt rt2 => encodeMcrrMrrc nd false rt2 rt 0 8
  | .rcpB2and nd rt rt2 => encodeMcrrMrrc nd false rt2 rt 1 0
  | .rcpB2or nd rt rt2 => encodeMcrrMrrc nd false rt2 rt 2 0
  | .rcpBxorvalid nd rt rt2 => encodeMcrrMrrc nd false rt2 rt 3 8
  | .rcpBxortrue nd rt rt2 => encodeMcrrMrrc nd false rt2 rt 4 0
  | .rcpBxorfalse nd rt rt2 => encodeMcrrMrrc nd false rt2 rt 5 8
  | .rcpIvalid nd rt rt2 => encodeMcrrMrrc nd false rt2 rt 6 8
  | .rcpIequal nd rt rt2 => encodeMcrrMrrc nd false rt2 rt 7 0
  | .rcpRandomByte nd rt => encodeMcrMrc nd true 2 0 rt 0 0
  | .rcpCountSet nd rt tag => encodeMcrMrc nd false 4 (tagCrn tag) rt 0 (tagCrm tag)
  | .rcpCountCheck nd rt tag => encodeMcrMrc nd false 5 (tagCrn tag) rt 1 (tagCrm tag)
  | .rcpPanic nd => encodeCdp nd 0 0 0 1 0

/-- The bytes of an instruction in memory (20_memory.md R34). -/
def encodeBytes (i : Instr) : List Byte := bytesOfWord (encode i)

/-! ## Legal register numbers (30_encoding.md R58; log 15) -/

/-- `Rt` of an `mcr`, and each register of an `mcrr`: not 13 and not 15. -/
def mcrRegOk (r : Reg) : Bool := r != 13 && r != 15

/-- `Rt` of an `mrc`: not 13; 15 means the flags. -/
def mrcRegOk (r : Reg) : Bool := r != 13

/-- The register fields of a word of a class hold predictable numbers (R58, 92_eei_decisions.md D17). -/
def classRegsOk (c : Cls) (w : Word) : Bool :=
  match c with
  | .mcr => mcrRegOk (fieldRt w)
  | .mrc => mrcRegOk (fieldRt w)
  | .mcrr => mcrRegOk (fieldRt w) && mcrRegOk (fieldRt2 w)
  | .mrrc => true
  | .cdp => true

end Sys2Proof
end

