-- ==== Sys2Proof/Machine/State.lean ====
section
/-! DEFINITION. The state of the machine: two Arm cores, each with its RCP (10_state.md R10 to R26), the program
text, and the model's own fields. Plain data; the reasons a step can stop; the state after reset. -/

namespace Sys2Proof.Machine

/-- The two cores (00_scope.md R2). -/
inductive CoreId where
  | core0
  | core1
deriving DecidableEq, Repr

/-- The other core, `o = 1 - c` (00_scope.md section 5). -/
def CoreId.other : CoreId → CoreId
  | .core0 => .core1
  | .core1 => .core0

/-- The security state a core executes in (10_state.md R21). -/
inductive Security where
  | secure
  | nonSecure
deriving DecidableEq, Repr

/-- `run[k]` (10_state.md R17). -/
inductive RunState where
  | running
  | stalled
deriving DecidableEq, Repr

/-- The spec's names for the causes of an RCP fault (60_exceptions.md R128). The hardware records none of them. -/
inductive RcpCause where
  | invalidInstruction
  | saltInvalid
  | saltAlreadyValid
  | canaryMismatch
  | booleanCheck
  | integerCheck
  | countMismatch
  | crossCore
  | panicAbandoned
deriving DecidableEq, Repr

/-- The outcome a core's run ended in (70_reset_and_hazards.md R162): the model's own record (log 23). -/
inductive CoreEnd where
  /-- the outcome `Fault` of R124, with its cause -/
  | rcpFault (cause : RcpCause)
  /-- the outcome `Fault(UNDEFINSTR)` of R126 -/
  | undefInstr
deriving DecidableEq, Repr

/-- The flags N, Z, C, V (10_state.md R20). -/
structure Flags where
  n : Bool
  z : Bool
  c : Bool
  v : Bool
deriving DecidableEq, Repr

/-- An interrupt for which the core abandons the instruction it is stalled in (44_random_and_delay.md R108; log 19). -/
structure Interrupt where
  /-- it arrives while the draw counter of the machine stands at this number -/
  draw : Nat
  /-- how far the delay counter counts down before the core issues its next RCP instruction -/
  elapsed : Nat
deriving DecidableEq, Repr

/-- One RCP (10_state.md R10 to R16). -/
structure Rcp where
  /-- `salt[39:0]`, the canary's input (R10) -/
  saltLow : BitVec 40
  /-- `salt[63:40]`, the generator state `P` (R10, 44_random_and_delay.md R103) -/
  prng : BitVec 24
  /-- `salt_valid` (R11) -/
  saltValid : Bool
  /-- the sequence counter (R14) -/
  seq : BitVec 8
  /-- the fault register (R15) -/
  fault : Bool
  /-- the delay counter: cycles left of a running countdown when the core next issues an RCP instruction; 0 when
  no countdown runs (R16; log 19) -/
  delay : BitVec 7
deriving DecidableEq, Repr

/-- The 64-bit salt register (10_state.md R10). -/
def Rcp.salt (r : Rcp) : BitVec 64 := r.prng ++ r.saltLow

/-- The part of an Arm core that RCP instructions read or write (10_state.md R18 to R22). -/
structure ArmCore where
  /-- `x[0..15]` (R18) -/
  x : Vector Word 16
  /-- the program counter (R19) -/
  pc : Word
  /-- N, Z, C, V (R20) -/
  flags : Flags
  /-- the security state (R21) -/
  security : Security
  /-- `NSACR` bit 7 (R22) -/
  nsacr7 : Bool
  /-- `CPACR_NS` bit 7 (R22) -/
  cpacrNs7 : Bool
  /-- access to coprocessor 7 is enabled in Secure state (R22, 60_exceptions.md R145; log 9) -/
  cp7Secure : Bool
  /-- the next instruction stands inside an `IT` block (30_encoding.md R67; log 10) -/
  inItBlock : Bool
deriving DecidableEq, Repr

/-- One core with its RCP. -/
structure CoreState where
  arm : ArmCore
  rcp : Rcp
  /-- `run` (10_state.md R17) -/
  run : RunState
  /-- MODEL'S OWN: the outcome the core's run ended in, if it has (log 23) -/
  ended : Option CoreEnd
  /-- MODEL'S OWN: the interrupts that make the core abandon an instruction, in any order (log 19) -/
  irqs : List Interrupt
deriving DecidableEq, Repr

/-- The state of the machine. -/
structure State where
  core0 : CoreState
  core1 : CoreState
  /-- MODEL'S OWN: the core that issues the next instruction (20_memory.md R41; log 1) -/
  turn : CoreId
  /-- MODEL'S OWN: the cores that issue after it, the next first; when it is empty the turn stays (log 1) -/
  turns : List CoreId
  /-- MODEL'S OWN: the counter the free values of Config are applied to (log 21) -/
  draws : Nat
  /-- program text: bytes by rising address (20_memory.md R34, R46; log 3) -/
  mem : List Host.Cell
deriving DecidableEq, Repr

/-- The core with a number. -/
def State.core (s : State) : CoreId → CoreState
  | .core0 => s.core0
  | .core1 => s.core1

/-- Replace the core with a number. -/
def State.setCore (s : State) (k : CoreId) (c : CoreState) : State :=
  match k with
  | .core0 => { s with core0 := c }
  | .core1 => { s with core1 := c }

/-- The core whose turn it is: the core `c` of the spec's pseudocode. -/
def State.active (s : State) : CoreState := s.core s.turn

/-- Replace the core whose turn it is. -/
def State.setActive (s : State) (c : CoreState) : State := s.setCore s.turn c

/-- Why the machine stops with a fault. -/
inductive Fault where
  /-- Raised by the fetch when a byte of the instruction at the pc was never loaded (20_memory.md R46; log 3).
  Safe: the model stops where the spec gives no contents. -/
  | fetchUnwritten
  /-- Raised by a step of a core whose run ended in a Non-secure UNDEFINSTR UsageFault (60_exceptions.md R126; log
  24). Safe: what the core does in its UsageFault handler is not in the spec. -/
  | undefInstrNonSecure
deriving DecidableEq, Repr

/-- Why the model gives an instruction no meaning. All are safe: the model stops. -/
inductive Refusal where
  /-- An arm of exec whose instruction has no meaning yet. -/
  | notModelled (mnemonic : String)
  /-- Raised by a step on a valid encoding that no instruction is listed for (30_encoding.md R62). -/
  | unlistedEncoding
  /-- Raised by a step on an `ldc`, `stc` or neighbour with coprocessor 7 (30_encoding.md R64). -/
  | ldcStcToCp7
  /-- Raised by a step on a word that does not target coprocessor 7 (30_encoding.md R55, R61). -/
  | notRcpInstruction
  /-- Raised by every instruction inside an `IT` block (30_encoding.md R67). -/
  | inItBlock
  /-- Raised by every instruction when coprocessor 7 is disabled for the security state (60_exceptions.md R145). -/
  | cp7Disabled
  /-- Raised by an `mcr`, `mrc` or `mcrr` with an unpredictable register number (30_encoding.md R58). -/
  | unpredictableRegister
  /-- Raised by the fetch at an odd pc (20_memory.md R35). -/
  | misalignedPc
  /-- Raised by the fetch at a pc above 0xfffffffb (10_state.md R19). -/
  | pcTooHigh
  /-- Raised by `rcp_salt_core0` and `rcp_salt_core1` on core 1 in Secure state (40_initialisation.md R80, R81). -/
  | saltWriteFromCore1
  /-- Raised by `rcp_salt_core0` and `rcp_salt_core1` in Non-secure state (60_exceptions.md R132). -/
  | nonSecureSaltWrite
  /-- Raised by `rcp_panic` in Non-secure state (60_exceptions.md R132). -/
  | nonSecurePanic
deriving DecidableEq, Repr

/-- The outcome of a step or of an instruction. -/
abbrev Out := Host.Outcome State Fault Refusal

/-- An RCP after reset: salt invalid, fault clear (10_state.md R26). The other values are DESIGN CHOICES (logs 7,
8). -/
def Rcp.reset : Rcp :=
  { saltLow := 0, prng := 0, saltValid := false, seq := 0, fault := false, delay := 0 }

/-- The core registers after reset: none is in the spec (10_state.md R26); logs 4, 5, 6, 9, 10. -/
def ArmCore.reset : ArmCore :=
  { x := Vector.replicate 16 0, pc := 0, flags := ⟨false, false, false, false⟩, security := .secure,
    nsacr7 := false, cpacrNs7 := false, cp7Secure := true, inItBlock := false }

/-- A core after reset, running (10_state.md R26, 70_reset_and_hazards.md R150). -/
def CoreState.reset : CoreState :=
  { arm := .reset, rcp := .reset, run := .running, ended := none, irqs := [] }

/-- The machine right after reset: memory lists nothing (log 3); core 0 has the turn (log 1). -/
def State.reset : State :=
  { core0 := .reset, core1 := .reset, turn := .core0, turns := [], draws := 0, mem := [] }

end Sys2Proof.Machine
end

