-- ==== Sys2Proof/Machine/Memory.lean ====
section
/-! DEFINITION. The program text: a list of (address, byte) pairs in one canonical form, addresses strictly rising
and below 2^32. An address that is not listed holds no value (20_memory.md R46; log 3). No RCP instruction reads
or writes it (R30); only the fetch reads it and only loading writes it. -/

namespace Sys2Proof.Machine

/-- The byte at an address, or none where nothing was loaded. -/
def readByte : List Host.Cell → Nat → Option Byte
  | [], _ => none
  | (b, v) :: rest, a => if a = b then some v else if a < b then none else readByte rest a

/-- Put a byte at an address, keeping addresses strictly rising. -/
def writeByte : List Host.Cell → Nat → Byte → List Host.Cell
  | [], a, x => [(a, x)]
  | (b, v) :: rest, a, x =>
    if a < b then (a, x) :: (b, v) :: rest
    else if a = b then (a, x) :: rest
    else (b, v) :: writeByte rest a x

/-- The addresses rise strictly, each at least `lo` and below 2^32. -/
def Memory.wfFrom : Nat → List Host.Cell → Bool
  | _, [] => true
  | lo, (b, _) :: rest => decide (lo ≤ b) && decide (b < 2 ^ 32) && wfFrom (b + 1) rest

/-- The canonical form of memory. -/
def Memory.wf (m : List Host.Cell) : Bool := Memory.wfFrom 0 m

/-- The instruction word at an address, if its four bytes were loaded (20_memory.md R34). -/
def readWord (m : List Host.Cell) (a : Word) : Option Word :=
  match readByte m a.toNat, readByte m (a + 1).toNat, readByte m (a + 2).toNat, readByte m (a + 3).toNat with
  | some b0, some b1, some b2, some b3 => some (wordOfBytes b0 b1 b2 b3)
  | _, _, _, _ => none

/-- Load bytes at rising addresses from `a`. -/
def loadBytes (m : List Host.Cell) (a : Word) : List Byte → List Host.Cell
  | [] => m
  | b :: rest => loadBytes (writeByte m a.toNat b) (a + 1) rest

/-- Load one instruction word (20_memory.md R34). -/
def loadWord (m : List Host.Cell) (a : Word) (w : Word) : List Host.Cell := loadBytes m a (bytesOfWord w)

end Sys2Proof.Machine
end

