-- ==== Sys2Proof/Machine/Flags.lean ====
section
/-! DEFINITION. The flags an `mrc` with `Rt = 15` writes: the only flag computation of the RCP (10_state.md R20). -/

namespace Sys2Proof.Machine

/-- N, Z, C, V from bits 31, 30, 29, 28 of CPRDATA (10_state.md R20; PRESUMED, log 16). -/
def flagsOfRead (v : Word) : Flags :=
  { n := v.getLsbD 31, z := v.getLsbD 30, c := v.getLsbD 29, v := v.getLsbD 28 }

end Sys2Proof.Machine
end

