-- ==== Sys2Proof/Machine/Operands.lean ====
section
/-! DEFINITION. The operand forms: the registers of the core whose turn it is, the data it sends on CPWDATA
(20_memory.md R31) and where CPRDATA goes (20_memory.md R32, 10_state.md R18, R20). -/

namespace Sys2Proof.Machine

/-- `x[r]` of the acting core. -/
def State.reg (s : State) (r : Reg) : Word := s.active.arm.x[r]

/-- `x[r] <- v` on a core. -/
def ArmCore.writeReg (a : ArmCore) (r : Reg) (v : Word) : ArmCore := { a with x := a.x.set r v }

/-- CPWDATA of an `mcr`: `zext_64(x[Rt])`, whose low word is all the RCP uses (R31). -/
def State.cpwdata32 (s : State) (rt : Reg) : Word := s.reg rt

/-- CPWDATA of an `mcrr`: `{x[Rt2], x[Rt]}` (R31). -/
def State.cpwdata64 (s : State) (rt rt2 : Reg) : BitVec 64 := s.reg rt2 ++ s.reg rt

/-- CPWDATA[31:0]. -/
def wdataLow (d : BitVec 64) : Word := d.extractLsb' 0 32

/-- CPWDATA[63:32]. -/
def wdataHigh (d : BitVec 64) : Word := d.extractLsb' 32 32

/-- Where an `mrc` puts CPRDATA: the flags when `Rt = 15`, else `x[Rt]` (R32). -/
def ArmCore.readInto (a : ArmCore) (rt : Reg) (v : Word) : ArmCore :=
  if rt = 15 then { a with flags := flagsOfRead v } else a.writeReg rt v

/-- An `mrc` of the acting core receives CPRDATA (R32). -/
def State.readInto (s : State) (rt : Reg) (v : Word) : State :=
  s.setActive { s.active with arm := s.active.arm.readInto rt v }

end Sys2Proof.Machine
end

