-- ==== Sys2Proof/Config.lean ====
section
/-! DEFINITION. What the spec leaves open: the named parameters of 92_eei_decisions.md that are constants of the
machine, and the free values. Each is opaque, so no proof can see its value. The two parameters with a value of
the spec's own, PARITY_ODD and OPCODE_MAP, stand in Decode.lean (logs 11, 12); CP7_ENABLED is state (log 9). -/

namespace Sys2Proof

/-- The order of `Out` and `Advance` in one generation: the values of PRNG_SAMPLE_ORDER, and `draw`, the spec's
default, in which the number and the new generator state are both free (44_random_and_delay.md R106, R112). -/
inductive SampleOrder where
  | before
  | after
  | draw
deriving DecidableEq, Repr, Inhabited

/-- PRNG_SAMPLE_ORDER (92_eei_decisions.md D11; log 17). -/
opaque Config.prngSampleOrder : SampleOrder

/-- `draw(8)`: the generated number when the order is `draw` (44_random_and_delay.md R112; log 17). -/
opaque Config.freeByte : Nat → BitVec 8

/-- `draw(24)`: the new generator state when the order is `draw` (44_random_and_delay.md R112; log 17). -/
opaque Config.freePrng : Nat → BitVec 24

/-- NS_COUNT_EFFECT: whether this Non-secure `rcp_count_set`, `rcp_count_check` or `rcp_random_byte` has its
Secure effect on the RCP's state (60_exceptions.md R132, 92_eei_decisions.md D9; log 18). -/
opaque Config.nsCountEffect : Nat → Bool

/-- How much of a running countdown is at most left after an instruction that has no delay of its own
(44_random_and_delay.md R109, 91_not_in_source.md N9; log 20). -/
opaque Config.freeCountdown : Nat → BitVec 7

/-- `draw(64)`: the salt of core 1 when it is forcibly marked valid (10_state.md R13; log 33). -/
opaque Config.freeSalt : Nat → BitVec 64

end Sys2Proof
end

