-- ==== Sys2Proof/Machine/Prng.lean ====
section
/-! DEFINITION. The pseudorandom generator in salt bits 63:40 (44_random_and_delay.md R103 to R106, R112). The tap
table is the source's as printed (90_conflicts.md C4; log 40). -/

namespace Sys2Proof.Machine

/-- One update of one LFSR: shift towards the MSB, the feedback bit enters at bit 0 and is 1 when the state is
all-zeroes (R104). -/
def lfsrStep {w : Nat} (taps s : BitVec w) : BitVec w :=
  (s <<< 1) ||| (BitVec.ofBool (s == 0 || parity (s &&& taps))).setWidth w

/-- State bits 23:20 (R103). -/
def lfsrA (p : BitVec 24) : BitVec 4 := p.extractLsb' 20 4
/-- State bits 19:15 (R103). -/
def lfsrB (p : BitVec 24) : BitVec 5 := p.extractLsb' 15 5
/-- State bits 14:8 (R103). -/
def lfsrC (p : BitVec 24) : BitVec 7 := p.extractLsb' 8 7
/-- State bits 7:0 (R103). -/
def lfsrD (p : BitVec 24) : BitVec 8 := p.extractLsb' 0 8

/-- `Advance(P)`: all four LFSRs at once (R104). -/
def advance (p : BitVec 24) : BitVec 24 :=
  lfsrStep 0xc (lfsrA p) ++ lfsrStep 0x14 (lfsrB p) ++ lfsrStep 0x60 (lfsrC p) ++ lfsrStep 0xb4 (lfsrD p)

/-- `maj3` (00_scope.md section 5). -/
def maj3 (a b c : Bool) : Bool := (a && b) || (a && c) || (b && c)

/-- One row of the output table: six XOR taps and three majority taps (R105). -/
structure OutRow where
  xorTaps : List Nat
  m1 : Nat
  m2 : Nat
  m3 : Nat
deriving DecidableEq, Repr

/-- The output table, output bit 7 first (R105). -/
def outTable : List OutRow :=
  [⟨[7, 17, 6, 16, 13, 8], 9, 12, 21⟩,
   ⟨[14, 21, 19, 6, 16, 13], 4, 14, 6⟩,
   ⟨[7, 5, 2, 18, 11, 1], 18, 14, 7⟩,
   ⟨[4, 19, 17, 0, 18, 7], 18, 11, 3⟩,
   ⟨[23, 12, 7, 16, 14, 5], 17, 3, 15⟩,
   ⟨[15, 13, 20, 21, 8, 12], 7, 22, 9⟩,
   ⟨[4, 16, 11, 18, 9, 6], 14, 21, 16⟩,
   ⟨[11, 3, 4, 19, 10, 14], 1, 2, 9⟩]

/-- One output bit (R105). -/
def outBit (p : BitVec 24) (r : OutRow) : Bool :=
  (r.xorTaps.foldl (fun acc i => acc ^^ p.getLsbD i) false)
    ^^ maj3 (p.getLsbD r.m1) (p.getLsbD r.m2) (p.getLsbD r.m3)

/-- The bits of a list, the first the most significant, as a byte. -/
def byteOfBits (bs : List Bool) : BitVec 8 :=
  bs.foldl (fun acc b => (acc <<< 1) ||| (BitVec.ofBool b).setWidth 8) 0

/-- `Out(P)` (R105). -/
def prngOut (p : BitVec 24) : BitVec 8 := byteOfBits (outTable.map (outBit p))

/-- A generated number and the generator state it leaves. -/
structure Generated where
  byte : BitVec 8
  state : BitVec 24
deriving DecidableEq, Repr

/-- One generation: one `Advance` and one evaluation of `Out`, in the sample order given (R106); in the order
`draw` both are free values of the draw number `k` (R112; log 17). -/
def generate (order : SampleOrder) (p : BitVec 24) (k : Nat) : Generated :=
  match order with
  | .before => ⟨prngOut p, advance p⟩
  | .after => ⟨prngOut (advance p), advance p⟩
  | .draw => ⟨Config.freeByte k, Config.freePrng k⟩

end Sys2Proof.Machine
end

