-- ==== Sys2Proof/Machine/Ops.lean ====
section
/-! DEFINITION. The operations the instructions share: the RCP fault and the stall (60_exceptions.md R121 to R126),
the delay (44_random_and_delay.md R107 to R109), and the common execution sequence (60_exceptions.md R127); and
what the outside does to the machine: reset, CPACR_NS, the forced salt. The RCP has no return from a fault: only
reset ends one (60_exceptions.md R130, R139). -/

namespace Sys2Proof.Machine

/-- `NMI[k] = fault[k]` (10_state.md R23). -/
def State.nmi (s : State) (k : CoreId) : Bool := (s.core k).rcp.fault

/-- Replace the RCP of the acting core. -/
def State.setRcp (s : State) (r : Rcp) : State := s.setActive { s.active with rcp := r }

/-! ## The RCP fault and the stall -/

/-- A fault trigger reaches a core: its fault register is set and its run ends in `Fault`; when the register is
already set nothing changes (60_exceptions.md R121, R124; log 23). -/
def CoreState.trigger (k : CoreState) (cause : RcpCause) : CoreState :=
  if k.rcp.fault then k
  else { k with rcp := { k.rcp with fault := true }, ended := k.ended.or (some (.rcpFault cause)) }

/-- The fault trigger on the core that is not acting (60_exceptions.md R121). -/
def State.crossTrigger (s : State) : State :=
  s.setCore s.turn.other ((s.core s.turn.other).trigger .crossCore)

/-- `raise RcpFault()`: both fault registers are set in one step; nothing else is written and the pc stays
(60_exceptions.md R121, R124; log 22). -/
def raiseRcpFault (cause : RcpCause) (s : State) : State :=
  (s.setActive (s.active.trigger cause)).crossTrigger

/-- `StallForever()` on the acting core; its pc stays (60_exceptions.md R123). -/
def stallForever (s : State) : State := s.setActive { s.active with run := .stalled }

/-- `raise UsageFault_UNDEFINSTR_NS()`: the acting core's run ends; RCP state is unchanged (60_exceptions.md R126;
log 24). -/
def raiseUsageFault (s : State) : State :=
  s.setActive { s.active with ended := s.active.ended.or (some .undefInstr) }

/-- The draw counter moves on (log 21). -/
def State.nextDraw (s : State) : State := { s with draws := s.draws + 1 }

/-- The interrupt, if any, for which the core abandons an instruction it is stalled in while the draw counter stands
at `n` (44_random_and_delay.md R108, 46_panic.md R118; log 19). -/
def CoreState.interruptAt (k : CoreState) (n : Nat) : Option Interrupt := k.irqs.find? (fun q => q.draw == n)

/-- What happens while a stalled core has the turn. A stall met with the fault register clear is a panic's: an
interrupt may make the core abandon it, which sets the fault register, and the stall goes on (46_panic.md R117,
R118); the draw counter moves on, so the next such turn may meet another interrupt. With the fault register set the
stall cannot be interrupted (60_exceptions.md R121, 90_conflicts.md C6). The pc stays (log 25, log 26). -/
def stalledTick (s : State) : State :=
  if s.active.rcp.fault then s
  else
    match s.active.interruptAt s.draws with
    | some _ => (s.setActive (s.active.trigger .panicAbandoned)).nextDraw
    | none => s.nextDraw

/-! ## Completion and delay -/

/-- An instruction that completes: `pc <- pc + 4` (10_state.md R19). The draw counter moves on (log 21). -/
def finish (s : State) : State :=
  (s.setActive { s.active with arm := { s.active.arm with pc := s.active.arm.pc + 4 } }).nextDraw

/-- What an instruction that is not delayed leaves of a countdown: nothing of none, and of a running one not more
than there was, else open (44_random_and_delay.md R109, 91_not_in_source.md N9; log 20). -/
def passCountdown (d : BitVec 7) (k : Nat) : BitVec 7 :=
  if d = 0 then 0 else if d ≤ Config.freeCountdown k then d else Config.freeCountdown k

/-- The instruction of the acting core is not delayed. -/
def undelayed (s : State) : State :=
  s.setRcp { s.active.rcp with delay := passCountdown s.active.rcp.delay s.draws }

/-- The generator and the delay counter when a delayed instruction is issued: with no countdown running one number
is generated and its bits 6:0 loaded; with one running nothing is (44_random_and_delay.md R107, R109). -/
def Rcp.startCountdown (r : Rcp) (order : SampleOrder) (k : Nat) : Rcp :=
  if r.delay = 0 then
    { r with prng := (generate order r.prng k).state, delay := (generate order r.prng k).byte.extractLsb' 0 7 }
  else r

/-- Counting down by a number of cycles, not below 0 (10_state.md R16). -/
def countDown (d : BitVec 7) (n : Nat) : BitVec 7 := BitVec.ofNat 7 (d.toNat - n)

/-- How the delay of an instruction ends. -/
inductive DelayEnd where
  /-- the countdown ran out and the instruction executes on this state -/
  | elapsed (s : State)
  /-- the core abandoned the instruction, which has not executed -/
  | abandoned (s : State)
deriving DecidableEq, Repr

/-- `Delay()` (44_random_and_delay.md R107, R108). Without an interrupt at this issue the countdown runs out. With
one, an instruction whose countdown is not already over is abandoned: the number it generated is consumed, the
counter counts on, and the pc stays for the re-issue (log 19). -/
def delayIssue (s : State) : DelayEnd :=
  let r := s.active.rcp.startCountdown Config.prngSampleOrder s.draws
  match s.active.interruptAt s.draws with
  | none => .elapsed (s.setRcp { r with delay := 0 })
  | some irq =>
    if r.delay = 0 then .elapsed (s.setRcp r)
    else .abandoned (s.setRcp { r with delay := countDown r.delay irq.elapsed }).nextDraw

/-! ## The common execution sequence -/

/-- Access to coprocessor 7 is enabled for the security state the core executes in: the launch premise CP7_ENABLED,
whose Non-secure half is CPACR_NS bit 7 (10_state.md R22, 60_exceptions.md R133, R145; log 9). -/
def ArmCore.cp7Enabled (a : ArmCore) : Bool :=
  match a.security with
  | .secure => a.cp7Secure
  | .nonSecure => a.cpacrNs7

/-- Step 0 of R127: what keeps an instruction from being sent to the RCP, if anything: an IT block
(30_encoding.md R67), disabled access (60_exceptions.md R145), an unpredictable register number (30_encoding.md
R58). The order among them is a DESIGN CHOICE (log 27). -/
def issueRefusal (a : ArmCore) (regsOk : Bool) : Option Refusal :=
  if a.inItBlock then some .inItBlock
  else if !a.cp7Enabled then some .cp7Disabled
  else if !regsOk then some .unpredictableRegister
  else none

/-- What the common sequence asks about an instruction. -/
structure Issue where
  /-- the no-delay bit (30_encoding.md R54) -/
  nd : Bool
  /-- its register numbers are predictable (30_encoding.md R58) -/
  regsOk : Bool
  /-- it may execute while the salt is invalid (40_initialisation.md R83) -/
  saltExempt : Bool := false
  /-- it never has a delay (44_random_and_delay.md R111) -/
  neverDelayed : Bool := false
  /-- in Secure state the acting core's port gives it no meaning (40_initialisation.md R80, R81) -/
  portRefusal : Option Refusal := none
deriving DecidableEq, Repr

/-- Step 5 of R127 and then the instruction's own rule, `body`. DESIGN CHOICE (log 41): an instruction that is not
delayed itself is never abandoned, though it may wait for a running countdown (91_not_in_source.md N9). -/
def delayThen (q : Issue) (body : State → Out) (s : State) : Out :=
  if q.nd || q.neverDelayed then body (undelayed s)
  else
    match delayIssue s with
    | .elapsed t => body t
    | .abandoned t => .next t

/-- Steps 4 to 7 of R127: the Secure path. -/
def securePath (q : Issue) (body : State → Out) (s : State) : Out :=
  match q.portRefusal with
  | some r => .refused r
  | none =>
    if !s.active.rcp.saltValid && !q.saltExempt then .next (raiseRcpFault .saltInvalid s)
    else delayThen q body s

/-- `RcpExecute` for a listed instruction (60_exceptions.md R127): step 0, the stall while the fault register is
set (R122), then the Non-secure path, which never has a delay (R131), or the Secure one. Step 2, validation, is
the decoder's. -/
def rcpExecute (q : Issue) (secureBody nonSecureBody : State → Out) (s : State) : Out :=
  match issueRefusal s.active.arm q.regsOk with
  | some r => .refused r
  | none =>
    if s.active.rcp.fault then .next (stallForever s)
    else
      match s.active.arm.security with
      | .nonSecure => nonSecureBody (undelayed s)
      | .secure => securePath q secureBody s

/-- `RcpExecute` for a word that is no listed instruction but belongs to one of the five classes: the stall comes
first (R122); an invalid word is an RCP fault or a UsageFault by security state (R125, R126); a valid but unlisted
one has no meaning (30_encoding.md R62). -/
def rcpReject (regsOk valid : Bool) (s : State) : Out :=
  match issueRefusal s.active.arm regsOk with
  | some r => .refused r
  | none =>
    if s.active.rcp.fault then .next (stallForever s)
    else if valid then .refused .unlistedEncoding
    else
      match s.active.arm.security with
      | .secure => .next (raiseRcpFault .invalidInstruction s)
      | .nonSecure => .next (raiseUsageFault s)

/-- `assert cond` and then completion (00_scope.md R4). -/
def assertThen (cond : Bool) (cause : RcpCause) (s : State) : Out :=
  if cond then .next (finish s) else .next (raiseRcpFault cause s)

/-- Completion without any effect: a Non-secure assertion (60_exceptions.md R131 item 2). -/
def noEffect (s : State) : Out := .next (finish s)

/-- An `mrc` receives CPRDATA and completes (20_memory.md R32). -/
def readThen (rt : Reg) (v : Word) (s : State) : Out := .next (finish (s.readInto rt v))

/-- A Non-secure `mrc`: read data is masked to all-zeroes (60_exceptions.md R131 item 1). -/
def maskedRead (rt : Reg) (s : State) : Out := readThen rt 0 s

/-- An `mcr` assertion without salt or tag. -/
def assertMcr (nd : Bool) (rt : Reg) (cause : RcpCause) (cond : Word → Bool) (s : State) : Out :=
  rcpExecute { nd := nd, regsOk := mcrRegOk rt } (fun t => assertThen (cond (t.cpwdata32 rt)) cause t) noEffect s

/-- An `mcrr` assertion, on the two words of CPWDATA. -/
def assertMcrr (nd : Bool) (rt rt2 : Reg) (cause : RcpCause) (cond : Word → Word → Bool) (s : State) : Out :=
  rcpExecute { nd := nd, regsOk := mcrRegOk rt && mcrRegOk rt2 }
    (fun t => assertThen (cond (wdataLow (t.cpwdata64 rt rt2)) (wdataHigh (t.cpwdata64 rt rt2))) cause t) noEffect s

/-! ## What the outside does -/

/-- The reset event: both cores and both RCPs together (70_reset_and_hazards.md R150, R151; log 32). Loaded program
text stays (20_memory.md R46), and so do the turns and interrupts to come and the draw counter. -/
def State.warmReset (s : State) : State :=
  { State.reset with
    core0 := { CoreState.reset with irqs := s.core0.irqs }, core1 := { CoreState.reset with irqs := s.core1.irqs },
    mem := s.mem, turn := s.turn, turns := s.turns, draws := s.draws }

/-- Code of a core's own, between its RCP instructions, changes what the model holds of the Arm core by `f`; its RCP is
not touched (70_reset_and_hazards.md R162; log 42). A stalled core retires nothing, so its code has no effect
(60_exceptions.md R123, 46_panic.md R119). It is how a later run begins after a UsageFault, which leaves the RCP usable
(60_exceptions.md R126). -/
def CoreState.ownCode (k : CoreState) (f : ArmCore → ArmCore) : CoreState :=
  match k.run with
  | .stalled => k
  | .running =>
    { k with
      arm := f k.arm
      ended := if k.ended = some .undefInstr then (if k.rcp.fault then some (.rcpFault .crossCore) else none)
        else k.ended }

/-- Core code that writes no access enable gives the core any registers, pc, flags, security state and IT mark, those of
`a` (70_reset_and_hazards.md R162; log 42). It is also how control comes to an interrupt handler. -/
def CoreState.runCoreCode (k : CoreState) (a : ArmCore) : CoreState :=
  k.ownCode (fun old => { a with nsacr7 := old.nsacr7, cpacrNs7 := old.cpacrNs7, cp7Secure := old.cp7Secure })

/-- The code of core `k` between its RCP instructions (70_reset_and_hazards.md R162; log 42). -/
def State.runCoreCode (s : State) (k : CoreId) (a : ArmCore) : State := s.setCore k ((s.core k).runCoreCode a)

/-- An interrupt to come for which core `k` will abandon the instruction it is then stalled in
(44_random_and_delay.md R108; log 19). -/
def State.addInterrupt (s : State) (k : CoreId) (irq : Interrupt) : State :=
  s.setCore k { s.core k with irqs := irq :: (s.core k).irqs }

/-- A write of NSACR bit 7 (10_state.md R22, 70_reset_and_hazards.md R152). DESIGN CHOICE (log 9): a Non-secure write has
no effect. -/
def ArmCore.writeNsacr7 (a : ArmCore) (v : Bool) : ArmCore :=
  match a.security with
  | .secure => { a with nsacr7 := v }
  | .nonSecure => a

/-- A write of CPACR_NS bit 7; Non-secure code can set it only if NSACR bit 7 is set (10_state.md R22, 60_exceptions.md
R133). DESIGN CHOICE (log 9): Non-secure code may always clear it, and Secure code may set and clear it whatever NSACR bit
7 holds. -/
def ArmCore.writeCpacrNs7 (a : ArmCore) (v : Bool) : ArmCore :=
  match a.security with
  | .secure => { a with cpacrNs7 := v }
  | .nonSecure => if a.nsacr7 || !v then { a with cpacrNs7 := v } else a

/-- Core code of the acting core writes NSACR bit 7 (70_reset_and_hazards.md R152). -/
def State.writeNsacr7 (s : State) (v : Bool) : State :=
  s.setActive (s.active.ownCode (fun a => a.writeNsacr7 v))

/-- Core code of the acting core writes CPACR_NS bit 7 (60_exceptions.md R133). -/
def State.writeCpacrNs7 (s : State) (v : Bool) : State :=
  s.setActive (s.active.ownCode (fun a => a.writeCpacrNs7 v))

/-- A salt register takes a 64-bit value and is marked valid (40_initialisation.md R80, R81). -/
def Rcp.writeSalt (r : Rcp) (v : BitVec 64) : Rcp :=
  { r with saltLow := v.extractLsb' 0 40, prng := v.extractLsb' 40 24, saltValid := true }

/-- The salt of core 1 is forcibly marked valid; its value is then free (10_state.md R13). DESIGN CHOICE (log 33): it
may happen in any state, and a salt that is already valid keeps its value (10_state.md R12). -/
def State.forceSalt1Valid (s : State) : State :=
  if s.core1.rcp.saltValid then s
  else
    { s with core1 := { s.core1 with rcp := s.core1.rcp.writeSalt (Config.freeSalt s.draws) }, draws := s.draws + 1 }

end Sys2Proof.Machine
end

