-- ==== Sys2Proof/Machine/Cycle.lean ====
section
/-! DEFINITION. What a step does around exec: the stalled core, the fetch, the words that are no listed instruction,
and the turn (70_reset_and_hazards.md R162). -/

namespace Sys2Proof.Machine

/-- What the fetch finds at the pc of the acting core. -/
inductive Fetched where
  | word (w : Word)
  | fault (r : Fault)
  | refused (r : Refusal)
deriving DecidableEq, Repr

/-- The fetch: an even pc of at most 0xfffffffb (10_state.md R19, 20_memory.md R34, R35; log 14). -/
def fetchWord (s : State) : Fetched :=
  if s.active.arm.pc.getLsbD 0 then .refused .misalignedPc
  else if 0xfffffffb < s.active.arm.pc.toNat then .refused .pcTooHigh
  else
    match readWord s.mem s.active.arm.pc with
    | some w => .word w
    | none => .fault .fetchUnwritten

/-- A fetched word that is no listed instruction (30_encoding.md R55, R61, R62, R64, 60_exceptions.md R125, R126). -/
def executeReject (e : DecodeError) (w : Word) (s : State) : Out :=
  match e with
  | .notRcp => .refused .notRcpInstruction
  | .ldcStc => .refused .ldcStcToCp7
  | .invalid c => rcpReject (classRegsOk c w) false s
  | .unlisted c => rcpReject (classRegsOk c w) true s
  | .truncated => .fault .fetchUnwritten

/-- The acting core executes a word. -/
def executeWord (ex : Instr → State → Out) (w : Word) (s : State) : Out :=
  match decodeBytes (bytesOfWord w) with
  | .ok (i, _) => ex i s
  | .error e => executeReject e w s

/-- The acting core fetches and executes. -/
def issueNext (ex : Instr → State → Out) (s : State) : Out :=
  match fetchWord s with
  | .refused r => .refused r
  | .fault r => .fault r
  | .word w => executeWord ex w s

/-- The acting core's part of a step: a stalled core retires nothing (10_state.md R17); a core whose run ended in a
UsageFault has no next instruction in the spec (60_exceptions.md R126); any other issues the instruction at its pc. -/
def coreStep (ex : Instr → State → Out) (s : State) : Out :=
  match s.active.run with
  | .stalled => .next (stalledTick s)
  | .running => if s.active.ended = some .undefInstr then .fault .undefInstrNonSecure else issueNext ex s

/-- The next core's turn (20_memory.md R41; log 1). -/
def State.endTurn (s : State) : State :=
  match s.turns with
  | [] => s
  | k :: rest => { s with turn := k, turns := rest }

/-- A next state passes the turn on. -/
def passTurn : Out → Out
  | .next s => .next s.endTurn
  | .fault r => .fault r
  | .refused r => .refused r

/-- One step of the machine, given what an instruction does. -/
def cycle (ex : Instr → State → Out) (s : State) : Out := passTurn (coreStep ex s)

/-- Load a word where the acting core fetches its next instruction (log 3). -/
def placeFetchWord (s : State) (w : Word) : State := { s with mem := loadWord s.mem s.active.arm.pc w }

end Sys2Proof.Machine
end

