-- ==== Sys2Proof/Machine/Init.lean ====
section
/-! DEFINITION. The initialisation instructions (40_initialisation.md R80 to R83). -/

namespace Sys2Proof.Machine

/-- TRUE, the true Boolean pattern (42_boolean.md R99). -/
def truePattern : Word := 0xa500a500

/-- FALSE, the false Boolean pattern (42_boolean.md R99). -/
def falsePattern : Word := 0x00c300c3

/-- Assert the salt of core `k` is invalid, write it and mark it valid (R80, R81). -/
def writeSaltThen (k : CoreId) (v : BitVec 64) (s : State) : Out :=
  if (s.core k).rcp.saltValid then .next (raiseRcpFault .saltAlreadyValid s)
  else .next (finish (s.setCore k { s.core k with rcp := (s.core k).rcp.writeSalt v }))

/-- The salt writes: allowed while the salt is invalid, refused from core 1 and in Non-secure state (R80, R81,
R83, 60_exceptions.md R132). -/
def saltWrite (k : CoreId) (nd : Bool) (rt rt2 : Reg) (s : State) : Out :=
  rcpExecute
    { nd := nd, regsOk := mcrRegOk rt && mcrRegOk rt2, saltExempt := true,
      portRefusal := if s.turn = .core0 then none else some .saltWriteFromCore1 }
    (fun t => writeSaltThen k (t.cpwdata64 rt rt2) t) (fun _ => .refused .nonSecureSaltWrite) s

/-- `rcp_salt_core0` (R80). -/
def execRcpSaltCore0 (nd : Bool) (rt rt2 : Reg) (s : State) : Out := saltWrite .core0 nd rt rt2 s

/-- `rcp_salt_core1` (R81). -/
def execRcpSaltCore1 (nd : Bool) (rt rt2 : Reg) (s : State) : Out := saltWrite .core1 nd rt rt2 s

/-- CPRDATA of `rcp_canary_status` (R82). -/
def statusWord (saltValid : Bool) : Word := if saltValid then truePattern else falsePattern

/-- `rcp_canary_status` (R82). -/
def execRcpCanaryStatus (nd : Bool) (rt : Reg) (s : State) : Out :=
  rcpExecute { nd := nd, regsOk := mrcRegOk rt, saltExempt := true }
    (fun t => readThen rt (statusWord t.active.rcp.saltValid) t) (maskedRead rt) s

end Sys2Proof.Machine
end

