-- ==== Sys2Proof/Machine/Boolean.lean ====
section
/-! DEFINITION. The nine Boolean validation instructions (42_boolean.md R90 to R99). -/

namespace Sys2Proof.Machine

/-- `IsBool(v)`: one of the two patterns; any other word is poison (R99). -/
def isBool (v : Word) : Bool := v == truePattern || v == falsePattern

/-- `rcp_bvalid` (R90). -/
def execRcpBvalid (nd : Bool) (rt : Reg) (s : State) : Out :=
  assertMcr nd rt .booleanCheck isBool s

/-- `rcp_btrue` (R91). -/
def execRcpBtrue (nd : Bool) (rt : Reg) (s : State) : Out :=
  assertMcr nd rt .booleanCheck (fun a => a == truePattern) s

/-- `rcp_bfalse` (R92). -/
def execRcpBfalse (nd : Bool) (rt : Reg) (s : State) : Out :=
  assertMcr nd rt .booleanCheck (fun a => a == falsePattern) s

/-- `rcp_b2valid` (R93). -/
def execRcpB2valid (nd : Bool) (rt rt2 : Reg) (s : State) : Out :=
  assertMcrr nd rt rt2 .booleanCheck (fun a b => isBool a && isBool b) s

/-- `rcp_b2and` (R94). -/
def execRcpB2and (nd : Bool) (rt rt2 : Reg) (s : State) : Out :=
  assertMcrr nd rt rt2 .booleanCheck (fun a b => a == truePattern && b == truePattern) s

/-- `rcp_b2or` (R95). -/
def execRcpB2or (nd : Bool) (rt rt2 : Reg) (s : State) : Out :=
  assertMcrr nd rt rt2 .booleanCheck
    (fun a b => isBool a && isBool b && (a == truePattern || b == truePattern)) s

/-- `rcp_bxorvalid` (R96). -/
def execRcpBxorvalid (nd : Bool) (rt rt2 : Reg) (s : State) : Out :=
  assertMcrr nd rt rt2 .booleanCheck (fun a b => isBool (a ^^^ b)) s

/-- `rcp_bxortrue` (R97). -/
def execRcpBxortrue (nd : Bool) (rt rt2 : Reg) (s : State) : Out :=
  assertMcrr nd rt rt2 .booleanCheck (fun a b => a ^^^ b == truePattern) s

/-- `rcp_bxorfalse` (R98). -/
def execRcpBxorfalse (nd : Bool) (rt rt2 : Reg) (s : State) : Out :=
  assertMcrr nd rt rt2 .booleanCheck (fun a b => a ^^^ b == falsePattern) s

end Sys2Proof.Machine
end

