-- ==== Sys2Proof/Machine/Canary.lean ====
section
/-! DEFINITION. The canary function and its two instructions (41_canary.md R85 to R87). -/

namespace Sys2Proof.Machine

/-- `Canary(s, t)` as a function of salt bits 39:0, which are all it reads (R85). -/
def canaryLow (s : BitVec 40) (t : Tag) : Word :=
  (s.extractLsb' 16 8 ^^^ t) ++ (s.extractLsb' 8 8 ^^^ (s.extractLsb' 32 8 &&& ~~~t))
    ++ (s.extractLsb' 0 8 ^^^ (s.extractLsb' 24 8 &&& t)) ++ (0 : BitVec 8)

/-- `Canary(s, t)` for a 64-bit salt (R85). -/
def canary (s : BitVec 64) (t : Tag) : Word := canaryLow (s.extractLsb' 0 40) t

/-- `rcp_canary_get` (R86). -/
def execRcpCanaryGet (nd : Bool) (rt : Reg) (tag : Tag) (s : State) : Out :=
  rcpExecute { nd := nd, regsOk := mrcRegOk rt }
    (fun t => readThen rt (canaryLow t.active.rcp.saltLow tag) t) (maskedRead rt) s

/-- `rcp_canary_check` (R87). -/
def execRcpCanaryCheck (nd : Bool) (rt : Reg) (tag : Tag) (s : State) : Out :=
  rcpExecute { nd := nd, regsOk := mcrRegOk rt }
    (fun t => assertThen (t.cpwdata32 rt == canaryLow t.active.rcp.saltLow tag) .canaryMismatch t) noEffect s

end Sys2Proof.Machine
end

