-- ==== Sys2Proof/Machine/Count.lean ====
section
/-! DEFINITION. The sequence count instructions (45_sequence_count.md R113, R114). The register named by `Rt` is not
used (30_encoding.md R58). -/

namespace Sys2Proof.Machine

/-- `seq[c] <- v`. -/
def State.setSeq (s : State) (v : BitVec 8) : State := s.setRcp { s.active.rcp with seq := v }

/-- In Non-secure state the counter takes the value or stays (60_exceptions.md R132; log 18). -/
def setSeqMasked (v : State → BitVec 8) (s : State) : Out :=
  noEffect (if Config.nsCountEffect s.draws then s.setSeq (v s) else s)

/-- `rcp_count_set` (R113). -/
def execRcpCountSet (nd : Bool) (rt : Reg) (tag : Tag) (s : State) : Out :=
  rcpExecute { nd := nd, regsOk := mcrRegOk rt } (fun t => .next (finish (t.setSeq tag)))
    (setSeqMasked (fun _ => tag)) s

/-- Assert the counter matches and increment it, wrapping (R114). -/
def countCheckThen (tag : Tag) (s : State) : Out :=
  if s.active.rcp.seq = tag then .next (finish (s.setSeq (s.active.rcp.seq + 1)))
  else .next (raiseRcpFault .countMismatch s)

/-- `rcp_count_check` (R114). -/
def execRcpCountCheck (nd : Bool) (rt : Reg) (tag : Tag) (s : State) : Out :=
  rcpExecute { nd := nd, regsOk := mcrRegOk rt } (countCheckThen tag)
    (setSeqMasked (fun t => t.active.rcp.seq + 1)) s

end Sys2Proof.Machine
end

