-- ==== Sys2Proof/Machine/Integer.lean ====
section
/-! DEFINITION. The integer validation instructions (43_integer.md R100, R101). -/

namespace Sys2Proof.Machine

/-- The integer redundancy mask IXOR (00_scope.md R2, 43_integer.md R100). -/
def integerMask : Word := 0x96009600

/-- `rcp_ivalid` (R100). -/
def execRcpIvalid (nd : Bool) (rt rt2 : Reg) (s : State) : Out :=
  assertMcrr nd rt rt2 .integerCheck (fun a b => a ^^^ b == integerMask) s

/-- `rcp_iequal` (R101). -/
def execRcpIequal (nd : Bool) (rt rt2 : Reg) (s : State) : Out :=
  assertMcrr nd rt rt2 .integerCheck (fun a b => a == b) s

end Sys2Proof.Machine
end

