-- ==== Sys2Proof/Machine/Panic.lean ====
section
/-! DEFINITION. `rcp_panic` (46_panic.md R117). What an interrupt does to a panicked core is `stalledTick` (R118). -/

namespace Sys2Proof.Machine

/-- The other core is faulted and the acting core stalls for ever (R117). -/
def panicState (s : State) : State := stallForever s.crossTrigger

/-- `rcp_panic` (R117); in Non-secure state refused (60_exceptions.md R132). -/
def execRcpPanic (nd : Bool) (s : State) : Out :=
  rcpExecute { nd := nd, regsOk := true } (fun t => .next (panicState t)) (fun _ => .refused .nonSecurePanic) s

end Sys2Proof.Machine
end

