-- ==== Sys2Proof/Machine/Random.lean ====
section
/-! DEFINITION. `rcp_random_byte` (44_random_and_delay.md R111). -/

namespace Sys2Proof.Machine

/-- The generation of one `rcp_random_byte` on the acting core (R106, R111). -/
def State.randomGeneration (s : State) : Generated :=
  generate Config.prngSampleOrder s.active.rcp.prng s.draws

/-- The acting core's generator state after one generation. -/
def State.advanceGenerator (s : State) : State :=
  s.setRcp { s.active.rcp with prng := s.randomGeneration.state }

/-- In Secure state: one number, zero-extended, and the generator advances (R111). -/
def randomByteThen (rt : Reg) (s : State) : Out :=
  readThen rt (s.randomGeneration.byte.setWidth 32) s.advanceGenerator

/-- In Non-secure state: zero, and the generator advances or not (60_exceptions.md R132; log 18). -/
def randomByteMasked (rt : Reg) (s : State) : Out :=
  maskedRead rt (if Config.nsCountEffect s.draws then s.advanceGenerator else s)

/-- `rcp_random_byte`: never delayed (R111). -/
def execRcpRandomByte (nd : Bool) (rt : Reg) (s : State) : Out :=
  rcpExecute { nd := nd, regsOk := mrcRegOk rt, neverDelayed := true } (randomByteThen rt) (randomByteMasked rt) s

end Sys2Proof.Machine
end

