-- ==== Sys2Proof/Machine/Dispatch.lean ====
section
/-! DEFINITION. The dispatch: the core whose turn it is issues the instruction (60_exceptions.md R127). -/

namespace Sys2Proof.Machine

def exec (i : Instr) (s : State) : Host.Outcome State Fault Refusal :=
  match i with
  | .rcpSaltCore0 nd rt rt2 => Sys2Proof.Machine.execRcpSaltCore0 nd rt rt2 s
  | .rcpSaltCore1 nd rt rt2 => Sys2Proof.Machine.execRcpSaltCore1 nd rt rt2 s
  | .rcpCanaryStatus nd rt => Sys2Proof.Machine.execRcpCanaryStatus nd rt s
  | .rcpCanaryGet nd rt tag => Sys2Proof.Machine.execRcpCanaryGet nd rt tag s
  | .rcpCanaryCheck nd rt tag => Sys2Proof.Machine.execRcpCanaryCheck nd rt tag s
  | .rcpBvalid nd rt => Sys2Proof.Machine.execRcpBvalid nd rt s
  | .rcpBtrue nd rt => Sys2Proof.Machine.execRcpBtrue nd rt s
  | .rcpBfalse nd rt => Sys2Proof.Machine.execRcpBfalse nd rt s
  | .rcpB2valid nd rt rt2 => Sys2Proof.Machine.execRcpB2valid nd rt rt2 s
  | .rcpB2and nd rt rt2 => Sys2Proof.Machine.execRcpB2and nd rt rt2 s
  | .rcpB2or nd rt rt2 => Sys2Proof.Machine.execRcpB2or nd rt rt2 s
  | .rcpBxorvalid nd rt rt2 => Sys2Proof.Machine.execRcpBxorvalid nd rt rt2 s
  | .rcpBxortrue nd rt rt2 => Sys2Proof.Machine.execRcpBxortrue nd rt rt2 s
  | .rcpBxorfalse nd rt rt2 => Sys2Proof.Machine.execRcpBxorfalse nd rt rt2 s
  | .rcpIvalid nd rt rt2 => Sys2Proof.Machine.execRcpIvalid nd rt rt2 s
  | .rcpIequal nd rt rt2 => Sys2Proof.Machine.execRcpIequal nd rt rt2 s
  | .rcpRandomByte nd rt => Sys2Proof.Machine.execRcpRandomByte nd rt s
  | .rcpCountSet nd rt tag => Sys2Proof.Machine.execRcpCountSet nd rt tag s
  | .rcpCountCheck nd rt tag => Sys2Proof.Machine.execRcpCountCheck nd rt tag s
  | .rcpPanic nd => Sys2Proof.Machine.execRcpPanic nd s

end Sys2Proof.Machine
end

