-- ==== Sys2Proof/Machine/Step.lean ====
section
/-! DEFINITION. One step of the machine (70_reset_and_hazards.md R162), and the loading of one instruction where the
next step fetches it (log 3). -/

namespace Sys2Proof.Machine

/-- One step: the core whose turn it is issues the instruction at its pc. -/
def step (s : State) : Host.Outcome State Fault Refusal := cycle exec s

/-- The instruction stored at the pc of the acting core. -/
def State.withFetchWord (s : State) (nbits w : Nat) : State := placeFetchWord s (tableWord nbits w)

end Sys2Proof.Machine
end

