-- ==== Sys2Proof/WellFormed.lean ====
section
/-! DEFINITION. The instructions whose register numbers are predictable (30_encoding.md R58, 92_eei_decisions.md
D17; log 15). Every other field of an instruction may hold any value: `nd` (R54) and all 256 tags (41_canary.md
R89). -/

namespace Sys2Proof

/-- The register numbers of the instruction are legal (R58). -/
def Instr.wellFormed : Instr → Bool
  | .rcpSaltCore0 _ rt rt2 => mcrRegOk rt && mcrRegOk rt2
  | .rcpSaltCore1 _ rt rt2 => mcrRegOk rt && mcrRegOk rt2
  | .rcpCanaryStatus _ rt => mrcRegOk rt
  | .rcpCanaryGet _ rt _ => mrcRegOk rt
  | .rcpCanaryCheck _ rt _ => mcrRegOk rt
  | .rcpBvalid _ rt => mcrRegOk rt
  | .rcpBtrue _ rt => mcrRegOk rt
  | .rcpBfalse _ rt => mcrRegOk rt
  | .rcpB2valid _ rt rt2 => mcrRegOk rt && mcrRegOk rt2
  | .rcpB2and _ rt rt2 => mcrRegOk rt && mcrRegOk rt2
  | .rcpB2or _ rt rt2 => mcrRegOk rt && mcrRegOk rt2
  | .rcpBxorvalid _ rt rt2 => mcrRegOk rt && mcrRegOk rt2
  | .rcpBxortrue _ rt rt2 => mcrRegOk rt && mcrRegOk rt2
  | .rcpBxorfalse _ rt rt2 => mcrRegOk rt && mcrRegOk rt2
  | .rcpIvalid _ rt rt2 => mcrRegOk rt && mcrRegOk rt2
  | .rcpIequal _ rt rt2 => mcrRegOk rt && mcrRegOk rt2
  | .rcpRandomByte _ rt => mrcRegOk rt
  | .rcpCountSet _ rt _ => mcrRegOk rt
  | .rcpCountCheck _ rt _ => mcrRegOk rt
  | .rcpPanic _ => true

end Sys2Proof
end

