-- ==== Sys2Proof/Safety.lean ====
section
/-! DEFINITION. The terms claims use: what kind of instruction one is, when an instruction reaches the RCP, the state
an instruction that completes leaves, the state an RCP fault leaves, and the invariant of the machine. -/

namespace Sys2Proof

/-- The no-delay bit of an instruction (30_encoding.md R54). -/
def Instr.nd : Instr → Bool
  | .rcpSaltCore0 nd _ _ => nd
  | .rcpSaltCore1 nd _ _ => nd
  | .rcpCanaryStatus nd _ => nd
  | .rcpCanaryGet nd _ _ => nd
  | .rcpCanaryCheck nd _ _ => nd
  | .rcpBvalid nd _ => nd
  | .rcpBtrue nd _ => nd
  | .rcpBfalse nd _ => nd
  | .rcpB2valid nd _ _ => nd
  | .rcpB2and nd _ _ => nd
  | .rcpB2or nd _ _ => nd
  | .rcpBxorvalid nd _ _ => nd
  | .rcpBxortrue nd _ _ => nd
  | .rcpBxorfalse nd _ _ => nd
  | .rcpIvalid nd _ _ => nd
  | .rcpIequal nd _ _ => nd
  | .rcpRandomByte nd _ => nd
  | .rcpCountSet nd _ _ => nd
  | .rcpCountCheck nd _ _ => nd
  | .rcpPanic nd => nd

/-- The `*2` variant of a plain instruction and the other way round (30_encoding.md R54). -/
def Instr.flipNd : Instr → Instr
  | .rcpSaltCore0 nd rt rt2 => .rcpSaltCore0 (!nd) rt rt2
  | .rcpSaltCore1 nd rt rt2 => .rcpSaltCore1 (!nd) rt rt2
  | .rcpCanaryStatus nd rt => .rcpCanaryStatus (!nd) rt
  | .rcpCanaryGet nd rt tag => .rcpCanaryGet (!nd) rt tag
  | .rcpCanaryCheck nd rt tag => .rcpCanaryCheck (!nd) rt tag
  | .rcpBvalid nd rt => .rcpBvalid (!nd) rt
  | .rcpBtrue nd rt => .rcpBtrue (!nd) rt
  | .rcpBfalse nd rt => .rcpBfalse (!nd) rt
  | .rcpB2valid nd rt rt2 => .rcpB2valid (!nd) rt rt2
  | .rcpB2and nd rt rt2 => .rcpB2and (!nd) rt rt2
  | .rcpB2or nd rt rt2 => .rcpB2or (!nd) rt rt2
  | .rcpBxorvalid nd rt rt2 => .rcpBxorvalid (!nd) rt rt2
  | .rcpBxortrue nd rt rt2 => .rcpBxortrue (!nd) rt rt2
  | .rcpBxorfalse nd rt rt2 => .rcpBxorfalse (!nd) rt rt2
  | .rcpIvalid nd rt rt2 => .rcpIvalid (!nd) rt rt2
  | .rcpIequal nd rt rt2 => .rcpIequal (!nd) rt rt2
  | .rcpRandomByte nd rt => .rcpRandomByte (!nd) rt
  | .rcpCountSet nd rt tag => .rcpCountSet (!nd) rt tag
  | .rcpCountCheck nd rt tag => .rcpCountCheck (!nd) rt tag
  | .rcpPanic nd => .rcpPanic (!nd)

/-- The destination of an `mrc`, 15 meaning the flags; no other instruction has one (10_state.md R18, R20). -/
def Instr.mrcDest : Instr → Option Reg
  | .rcpCanaryStatus _ rt => some rt
  | .rcpCanaryGet _ rt _ => some rt
  | .rcpRandomByte _ rt => some rt
  | _ => none

/-- `rcp_random_byte` (44_random_and_delay.md R111). -/
def Instr.isRandomByte : Instr → Bool
  | .rcpRandomByte _ _ => true
  | _ => false

/-- `rcp_count_set` and `rcp_count_check`, the instructions that write the sequence counter (10_state.md R14). -/
def Instr.isCount : Instr → Bool
  | .rcpCountSet _ _ _ => true
  | .rcpCountCheck _ _ _ => true
  | _ => false

/-- The assertions on write data: `rcp_canary_check`, the nine Boolean instructions, `rcp_ivalid` and `rcp_iequal`
(60_exceptions.md R131 item 2). -/
def Instr.isDataAssertion : Instr → Bool
  | .rcpCanaryCheck _ _ _ => true
  | .rcpBvalid _ _ => true
  | .rcpBtrue _ _ => true
  | .rcpBfalse _ _ => true
  | .rcpB2valid _ _ _ => true
  | .rcpB2and _ _ _ => true
  | .rcpB2or _ _ _ => true
  | .rcpBxorvalid _ _ _ => true
  | .rcpBxortrue _ _ _ => true
  | .rcpBxorfalse _ _ _ => true
  | .rcpIvalid _ _ _ => true
  | .rcpIequal _ _ _ => true
  | _ => false

/-- The core whose salt an instruction writes (40_initialisation.md R80, R81). -/
def Instr.saltTarget : Instr → Option Machine.CoreId
  | .rcpSaltCore0 _ _ _ => some .core0
  | .rcpSaltCore1 _ _ _ => some .core1
  | _ => none

/-- The three instructions that may execute while the salt is invalid (40_initialisation.md R83). -/
def Instr.saltExempt : Instr → Bool
  | .rcpSaltCore0 _ _ _ => true
  | .rcpSaltCore1 _ _ _ => true
  | .rcpCanaryStatus _ _ => true
  | _ => false

/-- `rcp_panic` (46_panic.md R117). -/
def Instr.isPanic : Instr → Bool
  | .rcpPanic _ => true
  | _ => false

/-- In Secure state the instruction has a pseudorandom delay (44_random_and_delay.md R107). -/
def Instr.delayed (i : Instr) : Bool := !i.nd && !i.isRandomByte

/-- The parity bit of a class: `Opc2[0]`, or `CRm[3]` for `mcrr` and `mrrc` (30_encoding.md R57). -/
def Cls.parityMask : Cls → Word
  | .mcr => 0x00000020
  | .mrc => 0x00000020
  | .cdp => 0x00000020
  | .mcrr => 0x00000008
  | .mrrc => 0x00000008

namespace Machine

/-- `fault[k]` (10_state.md R15). -/
def State.fault (s : State) (k : CoreId) : Bool := (s.core k).rcp.fault

/-- The acting core sends the instruction to its RCP: step 0 of 60_exceptions.md R127. -/
structure Issuable (i : Instr) (s : State) : Prop where
  notInIt : s.active.arm.inItBlock = false
  enabled : s.active.arm.cp7Enabled = true
  regs : i.wellFormed = true

/-- In Secure state, with the fault register clear: steps 1 to 3 of 60_exceptions.md R127 are passed. -/
structure SecureIssue (i : Instr) (s : State) : Prop extends Issuable i s where
  noFault : s.fault s.turn = false
  secure : s.active.arm.security = .secure

/-- In Non-secure state, with the fault register clear (60_exceptions.md R131). -/
structure NonSecureIssue (i : Instr) (s : State) : Prop extends Issuable i s where
  noFault : s.fault s.turn = false
  nonSecure : s.active.arm.security = .nonSecure

/-- The countdown a delayed instruction waits for: the one that runs, or bits 6:0 of a generated number
(44_random_and_delay.md R107, R109). -/
def Rcp.countdown (r : Rcp) (k : Nat) : BitVec 7 :=
  if r.delay = 0 then (generate Config.prngSampleOrder r.prng k).byte.extractLsb' 0 7 else r.delay

/-- No interrupt makes the core abandon the instruction: it is not delayed, no interrupt arrives at this issue, or the
countdown is already over (44_random_and_delay.md R107, R108). -/
def Undisturbed (i : Instr) (s : State) : Prop :=
  i.delayed = false ∨ s.active.interruptAt s.draws = none ∨ s.active.rcp.countdown s.draws = 0

/-- In Secure state an instruction other than a salt write or `rcp_canary_status` executes normally: the RCP is used
after its salt was written, and the instruction is not abandoned. -/
structure SecureReady (i : Instr) (s : State) : Prop extends SecureIssue i s where
  saltValid : s.active.rcp.saltValid = true
  undisturbed : Undisturbed i s

/-- The RCP when the delay of an instruction is over: a delayed instruction generates one number unless a countdown
was running, and the countdown has run out; one that is not delayed generates none and leaves what it leaves of a
running countdown (44_random_and_delay.md R107, R109). -/
def Rcp.afterDelay (delayed : Bool) (r : Rcp) (k : Nat) : Rcp :=
  if delayed then
    { r with prng := if r.delay = 0 then (generate Config.prngSampleOrder r.prng k).state else r.prng, delay := 0 }
  else { r with delay := passCountdown r.delay k }

/-- The acting core's RCP when the delay of instruction `i` is over. -/
def State.rcpAfterDelay (s : State) (i : Instr) : Rcp := s.active.rcp.afterDelay i.delayed s.draws

/-- The state when the delay of instruction `i` is over and nothing else has happened. -/
def State.afterDelay (s : State) (i : Instr) : State := s.setActive { s.active with rcp := s.rcpAfterDelay i }

/-- The state an instruction that completes leaves: the acting core's registers and flags as in `a`, its RCP as in
`r`, its pc 4 further, one draw used, and everything else as before. -/
def State.completesWith (s : State) (a : ArmCore) (r : Rcp) : State :=
  (s.setActive { s.active with arm := { a with pc := s.active.arm.pc + 4 }, rcp := r }).nextDraw

/-- An `mrc` that completes with `v` on CPRDATA: `x[Rt]` takes it, or N, Z, C, V take its bits 31, 30, 29, 28 when
`Rt = 15` (20_memory.md R32, 10_state.md R20), and the RCP is left as in `r`. -/
def ReadCompletes (i : Instr) (rt : Reg) (v : Word) (s : State) (r : Rcp) : Prop :=
  (rt ≠ 15 → exec i s = .next (s.completesWith { s.active.arm with x := s.active.arm.x.set rt v } r)) ∧
  (rt = 15 → exec i s =
    .next (s.completesWith
      { s.active.arm with flags := ⟨v.getLsbD 31, v.getLsbD 30, v.getLsbD 29, v.getLsbD 28⟩ } r))

/-- What an RCP fault of the acting core, met in state `s`, leaves: both fault registers set and both NMIs asserted,
the causes of 60_exceptions.md R128 recorded where the cores' runs had not ended, and every other thing as before
(60_exceptions.md R121, R124). -/
structure Faulted (cause : RcpCause) (s t : State) : Prop where
  fault : ∀ k, t.fault k = true
  nmi : ∀ k, t.nmi k = true
  ended : s.active.ended = none → s.fault s.turn = false → t.active.ended = some (.rcpFault cause)
  endedOther : (s.core s.turn.other).ended = none → s.fault s.turn.other = false →
    (t.core s.turn.other).ended = some (.rcpFault .crossCore)
  arm : ∀ k, (t.core k).arm = (s.core k).arm
  saltLow : ∀ k, (t.core k).rcp.saltLow = (s.core k).rcp.saltLow
  prng : ∀ k, (t.core k).rcp.prng = (s.core k).rcp.prng
  saltValid : ∀ k, (t.core k).rcp.saltValid = (s.core k).rcp.saltValid
  seq : ∀ k, (t.core k).rcp.seq = (s.core k).rcp.seq
  delay : ∀ k, (t.core k).rcp.delay = (s.core k).rcp.delay
  run : ∀ k, (t.core k).run = (s.core k).run
  irqs : ∀ k, (t.core k).irqs = (s.core k).irqs
  turn : t.turn = s.turn
  turns : t.turns = s.turns
  draws : t.draws = s.draws
  mem : t.mem = s.mem

/-- What `assert cond` means for an instruction that does nothing else: it completes and changes nothing but the
delay's doing, or it raises an RCP fault with the cause (00_scope.md R4). -/
def Asserts (i : Instr) (cond : Prop) (cause : RcpCause) (s : State) : Prop :=
  (cond → exec i s = .next (s.completesWith s.active.arm (s.rcpAfterDelay i))) ∧
  (¬ cond → ∃ t, exec i s = .next t ∧ Faulted cause (s.afterDelay i) t)

/-- Two states agree but for what a delay changes: the generator and the delay counter of a core. -/
structure SameButDelay (c : CoreId) (s t : State) : Prop where
  other : s.core c.other = t.core c.other
  core : { s.core c with rcp := { (s.core c).rcp with prng := 0, delay := 0 } }
    = { t.core c with rcp := { (t.core c).rcp with prng := 0, delay := 0 } }
  turn : s.turn = t.turn
  turns : s.turns = t.turns
  draws : s.draws = t.draws
  mem : s.mem = t.mem

/-- What every step keeps. `faultDiffers` is what 70_reset_and_hazards.md R164 says of `fault`: the two registers
differ only after a panic that was not abandoned. -/
structure Inv (s : State) : Prop where
  memWf : Memory.wf s.mem = true
  pcEven : ∀ k, (s.core k).arm.pc.getLsbD 0 = false
  endedFaulted : ∀ k c, (s.core k).ended = some (.rcpFault c) → s.fault k = true
  faultEnded : ∀ k, s.fault k = true → (s.core k).ended ≠ none
  stalledFault : ∀ k, (s.core k).run = .stalled → s.fault k = true ∨ s.fault k.other = true
  faultDiffers : ∀ k, s.fault k = true → s.fault k.other = false → (s.core k.other).run = .stalled

end Machine

end Sys2Proof
end

