-- ==== Sys2Proof/Certificates/Slice0/Obligations.lean ====
section
/-! DEFINITION. The statements for the provers. A statement about an instruction in Secure state has the hypotheses
of `SecureReady` or `SecureIssue`: outside an IT block, coprocessor 7 enabled, predictable register numbers, fault
register clear (60_exceptions.md R127). What happens when one of them fails is stated too. -/

open Sys2Proof Sys2Proof.Machine

/-! ## Encoding -/

/-- Every instruction, with every operand, decodes from its own bytes, and the bytes after it are left (30_encoding.md
R51 to R53, R60, R61; 20_memory.md R34). The formats and the opcodes are largely the spec's from general knowledge (log
12, PRESUMED), and so is the byte order (log 13, PRESUMED). -/
def Obligations.DecodeOfEncodeIsTheInstruction : Prop :=
  ∀ (i : Instr) (rest : List Byte), decodeBytes (encodeBytes i ++ rest) = .ok (i, rest)

/-- A word that decodes to an instruction is that instruction's encoding: each listed word has one meaning and every
one of its bits is accounted for (30_encoding.md R60). The formats and most opcodes are the spec's from general knowledge
(log 12, PRESUMED). -/
def Obligations.EncodeOfDecodeIsTheWord : Prop :=
  ∀ (w : Word) (i : Instr), decodeWord w = .ok i → encode i = w

/-- "The 20 patterns are pairwise disjoint" (30_encoding.md R60): no word is selected by two rows. Most of the 20
patterns are the spec's from general knowledge (log 12, PRESUMED). -/
def Obligations.NoWordSelectsTwoRows : Prop :=
  opcodeMap.length = 20 ∧
  ∀ w : Word, opcodeMap.Pairwise (fun a b => ¬ (a.selects w = true ∧ b.selects w = true))

/-- The other value of the parity bit makes a listed instruction invalid (30_encoding.md R57, R59). That the sum
is odd for a valid instruction is the spec's resolution (90_conflicts.md C1; log 11, DEDUCED), and where the bit stands in
the word is from general knowledge (log 12, PRESUMED). -/
def Obligations.FlippedParityBitIsInvalid : Prop :=
  ∀ (w : Word) (c : Cls) (i : Instr), classOf w = .ok c → decodeWord w = .ok i →
    decodeWord (w ^^^ c.parityMask) = .error (.invalid c)

/-- Bit 28 is outside the validation and the selection: it only turns an instruction into its other variant
(30_encoding.md R54). The formats and opcodes on which the rest of the word is decoded are from general knowledge (log 12,
PRESUMED). -/
def Obligations.NoDelayBitOnlySelectsTheVariant : Prop :=
  ∀ w : Word, decodeWord (w ^^^ 0x10000000) =
    (match decodeWord w with
     | .ok i => .ok i.flipNd
     | .error e => .error e)

/-- Words of every family written out from the formats decode to their instructions (95_test_vectors.md section 2).
The bit positions of the formats (30_encoding.md R51 to R53) and the rows of R60 marked GK, all of these words' but
`rcp_panic`'s, are from general knowledge and not in the source (log 12, PRESUMED), and the sense of the parity bit is log
11 (DEDUCED). -/
def Obligations.ListedWordsDecode : Prop :=
  decodeWord 0xEC432781 = .ok (.rcpSaltCore1 false 2 3) ∧
  decodeWord 0xFE1B073F = .ok (.rcpCanaryGet true 0 0xbf) ∧
  decodeWord 0xEE603730 = .ok (.rcpBfalse false 3) ∧
  decodeWord 0xEC410768 = .ok (.rcpIvalid false 0 1) ∧
  decodeWord 0xFE500710 = .ok (.rcpRandomByte true 0) ∧
  decodeWord 0xEE8F071F = .ok (.rcpCountSet false 0 0xff) ∧
  decodeWord 0xEE000720 = .ok (.rcpPanic false)

/-! ## The step -/

/-- A running core whose four bytes at an even pc of at most 0xfffffffb decode to an instruction executes it
(70_reset_and_hazards.md R162). The order of the bytes is log 13 (PRESUMED) and the two limits on the pc are log 14 (DESIGN
CHOICE). That the step then gives the turn to the head of `turns` is the model's own device for
the open order of the two cores (20_memory.md R41; log 1, DESIGN CHOICE). -/
def Obligations.StepRunsTheDecodedInstruction : Prop :=
  ∀ (s : State) (i : Instr) (b0 b1 b2 b3 : Byte),
    s.active.run = .running → s.active.ended ≠ some .undefInstr →
    s.active.arm.pc.getLsbD 0 = false → s.active.arm.pc.toNat ≤ 0xfffffffb →
    readByte s.mem s.active.arm.pc.toNat = some b0 → readByte s.mem (s.active.arm.pc + 1).toNat = some b1 →
    readByte s.mem (s.active.arm.pc + 2).toNat = some b2 → readByte s.mem (s.active.arm.pc + 3).toNat = some b3 →
    decodeBytes [b0, b1, b2, b3] = .ok (i, []) →
    (∀ t, exec i s = .next t →
      step s = .next { t with turn := s.turns.headD s.turn, turns := s.turns.tail }) ∧
    (∀ r, exec i s = .fault r → step s = .fault r) ∧
    (∀ r, exec i s = .refused r → step s = .refused r)

/-- A word placed where the step fetches is the instruction the step runs, and placing it changes no other byte of
program text. `withFetchWord` is the model's own loading operation, of which no rule speaks (log 3, DESIGN CHOICE);
the order of the bytes is log 13 (PRESUMED), the opcodes are log 12 (PRESUMED), and the two limits on the pc are log 14
(DESIGN CHOICE). -/
def Obligations.PlacedWordIsExecuted : Prop :=
  ∀ (s : State) (nbits w : Nat) (i : Instr),
    s.active.run = .running → s.active.ended ≠ some .undefInstr →
    s.active.arm.pc.getLsbD 0 = false → s.active.arm.pc.toNat ≤ 0xfffffffb →
    decodeTableWord nbits w = some i →
    step (s.withFetchWord nbits w) = passTurn (exec i (s.withFetchWord nbits w)) ∧
    (∀ a, a < s.active.arm.pc.toNat ∨ s.active.arm.pc.toNat + 3 < a →
      readByte (s.withFetchWord nbits w).mem a = readByte s.mem a)

/-- A running core does not fetch at an odd pc, above 0xfffffffb, or where no byte was loaded: the step stops, by name
(10_state.md R19, 20_memory.md R35, the spec's decisions 92_eei_decisions.md D16 and D27: log 14, DESIGN CHOICE; the fault
is the model's, log 3, DESIGN CHOICE). -/
def Obligations.FetchStops : Prop :=
  ∀ s : State, s.active.run = .running → s.active.ended ≠ some .undefInstr →
    (s.active.arm.pc.getLsbD 0 = true → step s = .refused .misalignedPc) ∧
    (s.active.arm.pc.getLsbD 0 = false → 0xfffffffb < s.active.arm.pc.toNat → step s = .refused .pcTooHigh) ∧
    (s.active.arm.pc.getLsbD 0 = false → s.active.arm.pc.toNat ≤ 0xfffffffb →
      readByte s.mem s.active.arm.pc.toNat = none ∨ readByte s.mem (s.active.arm.pc + 1).toNat = none ∨
        readByte s.mem (s.active.arm.pc + 2).toNat = none ∨ readByte s.mem (s.active.arm.pc + 3).toNat = none →
      step s = .fault .fetchUnwritten)

/-- "Secure execution of an invalid instruction is an immediate, unconditional RCP fault", whatever the salt state and
the operands: both fault registers are set, both NMIs asserted, and any further RCP instruction of the core stalls
(60_exceptions.md R125). Which words are invalid rests on the formats and the opcode map (log 12, PRESUMED) and the sense
of the parity bit (log 11, DEDUCED). -/
def Obligations.SecureInvalidWordFaults : Prop :=
  ∀ (s : State) (w : Word) (c : Cls), s.active.arm.inItBlock = false → s.active.arm.cp7Enabled = true →
    classRegsOk c w = true → s.fault s.turn = false → s.active.arm.security = .secure →
    decodeWord w = .error (.invalid c) →
    ∃ t : State, executeWord exec w s = .next t ∧ (∀ k, t.fault k = true) ∧ (∀ k, t.nmi k = true) ∧
      (∀ i, Issuable i t → exec i t = .next (t.setActive { t.active with run := .stalled }))

/-- A Non-secure invalid instruction ends the core's run in a UsageFault and changes no RCP state, no fault register,
no NMI and nothing of the other core; that run of the core has no further step, and a later run of a running core
begins from the machine as if the instruction had not been executed, so the RCP is usable by it (60_exceptions.md R126;
logs 24 and 42, DESIGN CHOICES, say how a run ends and how a later one begins).
Which words are invalid rests on logs 12 (PRESUMED) and 11 (DEDUCED). -/
def Obligations.NonSecureInvalidWordIsUsageFault : Prop :=
  ∀ (s : State) (w : Word) (c : Cls), s.active.arm.inItBlock = false → s.active.arm.cp7Enabled = true →
    classRegsOk c w = true → s.fault s.turn = false → s.active.arm.security = .nonSecure →
    s.active.ended = none → decodeWord w = .error (.invalid c) →
    ∃ t : State, executeWord exec w s = .next t ∧ t = s.setActive { s.active with ended := some .undefInstr } ∧
      (∀ k, (t.core k).rcp = (s.core k).rcp) ∧ (∀ k, t.nmi k = s.nmi k) ∧
      t.core s.turn.other = s.core s.turn.other ∧
      (s.active.run = .running → step t = .fault .undefInstrNonSecure ∧
        ∀ a : ArmCore, t.runCoreCode s.turn a = s.runCoreCode s.turn a)

/-- A valid but unlisted encoding, an `ldc` or `stc` to coprocessor 7, and a word of another coprocessor have no meaning
(30_encoding.md R62, R64, R55). That the model stops on them by name is log 31 (DESIGN CHOICE; 92_eei_decisions.md D5,
D23), and which words they are rests on log 12 (PRESUMED). -/
def Obligations.WordsWithoutMeaningStop : Prop :=
  ∀ (s : State) (w : Word), s.active.arm.inItBlock = false → s.active.arm.cp7Enabled = true →
    (∀ c, decodeWord w = .error (.unlisted c) → classRegsOk c w = true → s.fault s.turn = false →
      executeWord exec w s = .refused .unlistedEncoding) ∧
    (decodeWord w = .error .ldcStc → executeWord exec w s = .refused .ldcStcToCp7) ∧
    (decodeWord w = .error .notRcp → executeWord exec w s = .refused .notRcpInstruction)

/-- What keeps an instruction from the RCP stops it by name: an IT block (30_encoding.md R67), disabled access
(60_exceptions.md R145), an unpredictable register number (30_encoding.md R58). So it is for every instruction and for
every word of the five classes, listed, invalid or unlisted. That they are refused is the spec's decision
(92_eei_decisions.md D23, D20, D17; logs 10, 9, 15, DESIGN CHOICES); the order of the three, and that they come before
validation, are the model's (logs 15, 27, DESIGN CHOICES). -/
def Obligations.InstructionsNotSentAreRefused : Prop :=
  (∀ (i : Instr) (s : State),
    (s.active.arm.inItBlock = true → exec i s = .refused .inItBlock) ∧
    (s.active.arm.inItBlock = false → s.active.arm.cp7Enabled = false → exec i s = .refused .cp7Disabled) ∧
    (s.active.arm.inItBlock = false → s.active.arm.cp7Enabled = true → i.wellFormed = false →
      exec i s = .refused .unpredictableRegister)) ∧
  (∀ (w : Word) (c : Cls) (s : State), classOf w = .ok c →
    (s.active.arm.inItBlock = true → executeWord exec w s = .refused .inItBlock) ∧
    (s.active.arm.inItBlock = false → s.active.arm.cp7Enabled = false → executeWord exec w s = .refused .cp7Disabled) ∧
    (s.active.arm.inItBlock = false → s.active.arm.cp7Enabled = true → classRegsOk c w = false →
      executeWord exec w s = .refused .unpredictableRegister))

/-! ## The fault register and the stall -/

/-- While the fault register is set every RCP instruction, valid or not, in either security state, stalls its core for
ever and performs none of its checks or writes (60_exceptions.md R122; "valid or not, in either security state" is the
spec's decision 92_eei_decisions.md D21: log 37, DESIGN CHOICE). -/
def Obligations.FaultRegisterStallsEveryInstruction : Prop :=
  (∀ (i : Instr) (s : State), Issuable i s → s.fault s.turn = true →
    exec i s = .next (s.setActive { s.active with run := .stalled })) ∧
  (∀ (s : State) (w : Word) (c : Cls), s.active.arm.inItBlock = false → s.active.arm.cp7Enabled = true →
    classRegsOk c w = true → s.fault s.turn = true →
    decodeWord w = .error (.invalid c) ∨ decodeWord w = .error (.unlisted c) →
    executeWord exec w s = .next (s.setActive { s.active with run := .stalled }))

/-- A stalled core retires nothing: a step in its turn changes no register, flag, pc or RCP value but the fault register
of a panicked core that an interrupt makes abandon its access; the other core and the memory are as before,
and its own code, whether it changes registers or writes NSACR or CPACR_NS, has no effect (60_exceptions.md R123,
46_panic.md R117 to R119). That a stalled core's turn is a step (log 25), and that a panicked
core's registers and pc stay although an interrupt arrives, whose handler is not modelled (log 26,
92_eei_decisions.md D6), are the model's DESIGN CHOICES. -/
def Obligations.StalledCoreRetiresNothing : Prop :=
  ∀ s : State, s.active.run = .stalled →
    (∀ a : ArmCore, s.runCoreCode s.turn a = s) ∧ (∀ v : Bool, s.writeNsacr7 v = s ∧ s.writeCpacrNs7 v = s) ∧
    ∃ t : State, step s = .next { t with turn := s.turns.headD s.turn, turns := s.turns.tail } ∧
      t.core s.turn.other = s.core s.turn.other ∧ t.mem = s.mem ∧
      t.draws = (if s.active.rcp.fault = true then s.draws else s.draws + 1) ∧
      (t.core s.turn).run = .stalled ∧ (t.core s.turn).arm = s.active.arm ∧ (t.core s.turn).irqs = s.active.irqs ∧
      (t.core s.turn).rcp =
        { s.active.rcp with fault := s.active.rcp.fault || (s.active.interruptAt s.draws).isSome }

/-- With the salt invalid, any instruction but the salt writes and `rcp_canary_status` raises an RCP fault in Secure
state, whatever its operands (60_exceptions.md R129). -/
def Obligations.InvalidSaltFaultsInSecureState : Prop :=
  ∀ (i : Instr) (s : State), SecureIssue i s → s.active.rcp.saltValid = false → i.saltExempt = false →
    ∃ t : State, exec i s = .next t ∧ (∀ k, t.fault k = true) ∧ (∀ k, t.nmi k = true)

/-- A word, listed or invalid, that sets its own core's fault register writes no register, no flag and no pc on either
core, and no RCP state but the fault registers and what a delay does to the acting core's generator and counter
(60_exceptions.md R124, the spec's decision 92_eei_decisions.md D7; log 29, DESIGN CHOICE). That the pc stays is the
model's (log 22, DESIGN CHOICE). -/
def Obligations.FaultingInstructionWritesNothingElse : Prop :=
  ∀ (w : Word) (s t : State), executeWord exec w s = .next t → s.fault s.turn = false → t.fault s.turn = true →
    (∀ k, t.fault k = true) ∧ (∀ k, (t.core k).arm = (s.core k).arm) ∧ (∀ k, (t.core k).run = (s.core k).run) ∧
    (∀ k, (t.core k).irqs = (s.core k).irqs) ∧
    (∀ k, (t.core k).rcp.saltLow = (s.core k).rcp.saltLow) ∧
    (∀ k, (t.core k).rcp.saltValid = (s.core k).rcp.saltValid) ∧ (∀ k, (t.core k).rcp.seq = (s.core k).rcp.seq) ∧
    (t.core s.turn.other).rcp.prng = (s.core s.turn.other).rcp.prng ∧
    (t.core s.turn.other).rcp.delay = (s.core s.turn.other).rcp.delay ∧ t.mem = s.mem ∧ t.turn = s.turn ∧
    t.draws = s.draws

/-! ## Initialisation -/

/-- `rcp_salt_core0` and `rcp_salt_core1` on core 0: an invalid salt register takes `{x[Rt2], x[Rt]}` and becomes valid;
nothing else is written but the delay's doing (40_initialisation.md R80, R81). What an undelayed form leaves of a running
countdown is open (log 20, DESIGN CHOICE). -/
def Obligations.SaltWriteWritesTheSalt : Prop :=
  ∀ (s : State) (nd : Bool) (rt rt2 : Reg), s.turn = .core0 →
    (SecureIssue (.rcpSaltCore0 nd rt rt2) s → Undisturbed (.rcpSaltCore0 nd rt rt2) s →
      s.core0.rcp.saltValid = false →
      ∃ r : Rcp, exec (.rcpSaltCore0 nd rt rt2) s = .next (s.completesWith s.active.arm r) ∧
        r.salt = s.reg rt2 ++ s.reg rt ∧ r.saltValid = true ∧ r.seq = s.core0.rcp.seq ∧ r.fault = false ∧
        r.delay = (s.rcpAfterDelay (.rcpSaltCore0 nd rt rt2)).delay) ∧
    (SecureIssue (.rcpSaltCore1 nd rt rt2) s → Undisturbed (.rcpSaltCore1 nd rt rt2) s →
      s.core1.rcp.saltValid = false →
      ∃ r : Rcp, exec (.rcpSaltCore1 nd rt rt2) s =
          .next { s.completesWith s.active.arm (s.rcpAfterDelay (.rcpSaltCore1 nd rt rt2)) with
            core1 := { s.core1 with rcp := r } } ∧
        r.salt = s.reg rt2 ++ s.reg rt ∧ r.saltValid = true ∧ r.seq = s.core1.rcp.seq ∧
        r.fault = s.core1.rcp.fault ∧ r.delay = s.core1.rcp.delay)

/-- "Attempting to write to an already-valid RCP salt register triggers an RCP fault" (40_initialisation.md R80, R81).
That a faulting instruction
writes nothing else is the spec's decision 92_eei_decisions.md D7 (log 29, DESIGN CHOICE), and that the faulting core's
pc stays is the model's (log 22, DESIGN CHOICE). -/
def Obligations.SecondSaltWriteFaults : Prop :=
  ∀ (s : State) (nd : Bool) (rt rt2 : Reg), s.turn = .core0 →
    (SecureIssue (.rcpSaltCore0 nd rt rt2) s → Undisturbed (.rcpSaltCore0 nd rt rt2) s →
      s.core0.rcp.saltValid = true →
      ∃ t : State, exec (.rcpSaltCore0 nd rt rt2) s = .next t ∧
        Faulted .saltAlreadyValid (s.afterDelay (.rcpSaltCore0 nd rt rt2)) t) ∧
    (SecureIssue (.rcpSaltCore1 nd rt rt2) s → Undisturbed (.rcpSaltCore1 nd rt rt2) s →
      s.core1.rcp.saltValid = true →
      ∃ t : State, exec (.rcpSaltCore1 nd rt rt2) s = .next t ∧
        Faulted .saltAlreadyValid (s.afterDelay (.rcpSaltCore1 nd rt rt2)) t)

/-- A salt write executed on core 1 in Secure state, a salt write in Non-secure state and a panic in Non-secure state
have no meaning (40_initialisation.md R80, R81; 60_exceptions.md R132): the model refuses them, the spec's decisions
92_eei_decisions.md D13 and D10 (log 30, DESIGN CHOICE). -/
def Obligations.FormsWithoutMeaningStop : Prop :=
  ∀ (s : State) (nd : Bool) (rt rt2 : Reg),
    (s.turn = .core1 → SecureIssue (.rcpSaltCore0 nd rt rt2) s →
      exec (.rcpSaltCore0 nd rt rt2) s = .refused .saltWriteFromCore1) ∧
    (s.turn = .core1 → SecureIssue (.rcpSaltCore1 nd rt rt2) s →
      exec (.rcpSaltCore1 nd rt rt2) s = .refused .saltWriteFromCore1) ∧
    (NonSecureIssue (.rcpSaltCore0 nd rt rt2) s → exec (.rcpSaltCore0 nd rt rt2) s = .refused .nonSecureSaltWrite) ∧
    (NonSecureIssue (.rcpSaltCore1 nd rt rt2) s → exec (.rcpSaltCore1 nd rt rt2) s = .refused .nonSecureSaltWrite) ∧
    (NonSecureIssue (.rcpPanic nd) s → exec (.rcpPanic nd) s = .refused .nonSecurePanic)

/-- `rcp_canary_status` returns 0xa500a500 or 0x00c300c3 by the validity of this core's salt, also while it is invalid
(40_initialisation.md R82). With `Rt = 15` the source says only that N and C are set if and only if the salt is valid; that
Z and V are written too, to 0, R82 and 10_state.md R20 mark as from general knowledge and not in the source (log 16,
PRESUMED). -/
def Obligations.CanaryStatusReportsTheSaltState : Prop :=
  ∀ (s : State) (nd : Bool) (rt : Reg), SecureIssue (.rcpCanaryStatus nd rt) s →
    Undisturbed (.rcpCanaryStatus nd rt) s →
    ReadCompletes (.rcpCanaryStatus nd rt) rt (if s.active.rcp.saltValid = true then 0xa500a500 else 0x00c300c3) s
      (s.rcpAfterDelay (.rcpCanaryStatus nd rt))

/-! ## Canaries -/

/-- The canary function, slice by slice, and that it never reads salt bits 63:40 (41_canary.md R85). -/
def Obligations.CanaryIsTheFourSlices : Prop :=
  ∀ (s s' : BitVec 64) (t : Tag),
    (canary s t).extractLsb' 0 8 = 0x00 ∧
    (canary s t).extractLsb' 8 8 = s.extractLsb' 0 8 ^^^ (s.extractLsb' 24 8 &&& t) ∧
    (canary s t).extractLsb' 16 8 = s.extractLsb' 8 8 ^^^ (s.extractLsb' 32 8 &&& ~~~t) ∧
    (canary s t).extractLsb' 24 8 = s.extractLsb' 16 8 ^^^ t ∧
    (s.extractLsb' 0 40 = s'.extractLsb' 0 40 → canary s t = canary s' t)

/-- The properties the source states of canaries: (a) different tags give different canaries; (b) where a tag's bit `i`
is set the canary depends on salt bit `24 + i` and not on bit `32 + i`, and where it is clear the other way round;
(c) bits 7:0 are zero (41_canary.md R88). -/
def Obligations.CanaryPropertiesHold : Prop :=
  (∀ (s : BitVec 64) (t u : Tag), t ≠ u → canary s t ≠ canary s u) ∧
  (∀ (s : BitVec 64) (t : Tag) (i : Nat), i < 8 →
    (t.getLsbD i = true →
      canary (s ^^^ (1 <<< (24 + i))) t ≠ canary s t ∧ canary (s ^^^ (1 <<< (32 + i))) t = canary s t) ∧
    (t.getLsbD i = false →
      canary (s ^^^ (1 <<< (32 + i))) t ≠ canary s t ∧ canary (s ^^^ (1 <<< (24 + i))) t = canary s t)) ∧
  (∀ (s : BitVec 64) (t : Tag), (canary s t).extractLsb' 0 8 = 0)

/-- `rcp_canary_get` returns the canary of this core's salt for the tag (41_canary.md R86). The `Rt = 15` clause, canary bits
31:28 to N, Z, C, V, R86 and 10_state.md R20 mark as from general knowledge and not in the source (log 16, PRESUMED). -/
def Obligations.CanaryGetReturnsTheCanary : Prop :=
  ∀ (s : State) (nd : Bool) (rt : Reg) (tag : Tag), SecureReady (.rcpCanaryGet nd rt tag) s →
    ReadCompletes (.rcpCanaryGet nd rt tag) rt (canary s.active.rcp.salt tag) s
      (s.rcpAfterDelay (.rcpCanaryGet nd rt tag))

/-- `rcp_canary_check` asserts that `x[Rt]` is the canary of this core's salt for the tag, all 32 bits of it
(41_canary.md R87, where "all 32 bits" is derived). That a faulting instruction
writes nothing else is the spec's decision 92_eei_decisions.md D7 (log 29, DESIGN CHOICE), and that the faulting core's
pc stays is the model's (log 22, DESIGN CHOICE). -/
def Obligations.CanaryCheckAssertsTheCanary : Prop :=
  ∀ (s : State) (nd : Bool) (rt : Reg) (tag : Tag), SecureReady (.rcpCanaryCheck nd rt tag) s →
    Asserts (.rcpCanaryCheck nd rt tag) (s.reg rt = canary s.active.rcp.salt tag) .canaryMismatch s

/-- A canary got into a register passes the check with the same tag and fails the check with any other, however the
generator has moved in between (41_canary.md R87; 10_state.md R10). -/
def Obligations.CanaryGotPassesOnlyItsOwnCheck : Prop :=
  ∀ (s t : State) (nd nd' : Bool) (rt : Reg) (tag tag' : Tag), rt ≠ 15 →
    SecureReady (.rcpCanaryGet nd rt tag) s → exec (.rcpCanaryGet nd rt tag) s = .next t →
    SecureReady (.rcpCanaryCheck nd' rt tag') t →
    ∃ u : State, exec (.rcpCanaryCheck nd' rt tag') t = .next u ∧
      (tag' = tag → u.fault s.turn = false ∧ u.active.arm.pc = s.active.arm.pc + 8) ∧
      (tag' ≠ tag → ∀ k, u.fault k = true)

/-! ## Booleans and integers -/

/-- `rcp_bvalid`, `rcp_btrue`, `rcp_bfalse` (42_boolean.md R90 to R92, R99). That a faulting instruction
writes nothing else is the spec's decision 92_eei_decisions.md D7 (log 29, DESIGN CHOICE), and that the faulting core's
pc stays is the model's (log 22, DESIGN CHOICE). -/
def Obligations.OneRegisterBooleanAssertions : Prop :=
  ∀ (s : State) (nd : Bool) (rt : Reg),
    (SecureReady (.rcpBvalid nd rt) s →
      Asserts (.rcpBvalid nd rt) (s.reg rt = 0xa500a500 ∨ s.reg rt = 0x00c300c3) .booleanCheck s) ∧
    (SecureReady (.rcpBtrue nd rt) s → Asserts (.rcpBtrue nd rt) (s.reg rt = 0xa500a500) .booleanCheck s) ∧
    (SecureReady (.rcpBfalse nd rt) s → Asserts (.rcpBfalse nd rt) (s.reg rt = 0x00c300c3) .booleanCheck s)

/-- `rcp_b2valid`, `rcp_b2and`, `rcp_b2or` (42_boolean.md R93 to R95). That a faulting instruction
writes nothing else is the spec's decision 92_eei_decisions.md D7 (log 29, DESIGN CHOICE), and that the faulting core's
pc stays is the model's (log 22, DESIGN CHOICE). -/
def Obligations.TwoRegisterBooleanAssertions : Prop :=
  ∀ (s : State) (nd : Bool) (rt rt2 : Reg),
    (SecureReady (.rcpB2valid nd rt rt2) s →
      Asserts (.rcpB2valid nd rt rt2)
        ((s.reg rt = 0xa500a500 ∨ s.reg rt = 0x00c300c3) ∧ (s.reg rt2 = 0xa500a500 ∨ s.reg rt2 = 0x00c300c3))
        .booleanCheck s) ∧
    (SecureReady (.rcpB2and nd rt rt2) s →
      Asserts (.rcpB2and nd rt rt2) (s.reg rt = 0xa500a500 ∧ s.reg rt2 = 0xa500a500) .booleanCheck s) ∧
    (SecureReady (.rcpB2or nd rt rt2) s →
      Asserts (.rcpB2or nd rt rt2)
        ((s.reg rt = 0xa500a500 ∧ s.reg rt2 = 0xa500a500) ∨ (s.reg rt = 0xa500a500 ∧ s.reg rt2 = 0x00c300c3) ∨
          (s.reg rt = 0x00c300c3 ∧ s.reg rt2 = 0xa500a500))
        .booleanCheck s)

/-- `rcp_bxorvalid`, `rcp_bxortrue`, `rcp_bxorfalse` (42_boolean.md R96 to R98). That a faulting instruction
writes nothing else is the spec's decision 92_eei_decisions.md D7 (log 29, DESIGN CHOICE), and that the faulting core's
pc stays is the model's (log 22, DESIGN CHOICE). -/
def Obligations.XorBooleanAssertions : Prop :=
  ∀ (s : State) (nd : Bool) (rt rt2 : Reg),
    (SecureReady (.rcpBxorvalid nd rt rt2) s →
      Asserts (.rcpBxorvalid nd rt rt2)
        (s.reg rt ^^^ s.reg rt2 = 0xa500a500 ∨ s.reg rt ^^^ s.reg rt2 = 0x00c300c3) .booleanCheck s) ∧
    (SecureReady (.rcpBxortrue nd rt rt2) s →
      Asserts (.rcpBxortrue nd rt rt2) (s.reg rt ^^^ s.reg rt2 = 0xa500a500) .booleanCheck s) ∧
    (SecureReady (.rcpBxorfalse nd rt rt2) s →
      Asserts (.rcpBxorfalse nd rt rt2) (s.reg rt ^^^ s.reg rt2 = 0x00c300c3) .booleanCheck s)

/-- `rcp_ivalid` and `rcp_iequal` (43_integer.md R100, R101). That a faulting instruction
writes nothing else is the spec's decision 92_eei_decisions.md D7 (log 29, DESIGN CHOICE), and that the faulting core's
pc stays is the model's (log 22, DESIGN CHOICE). -/
def Obligations.IntegerAssertions : Prop :=
  ∀ (s : State) (nd : Bool) (rt rt2 : Reg),
    (SecureReady (.rcpIvalid nd rt rt2) s →
      Asserts (.rcpIvalid nd rt rt2) (s.reg rt ^^^ s.reg rt2 = 0x96009600) .integerCheck s) ∧
    (SecureReady (.rcpIequal nd rt rt2) s →
      Asserts (.rcpIequal nd rt rt2) (s.reg rt = s.reg rt2) .integerCheck s)

/-- With `Rt = Rt2` the XOR checks and `rcp_ivalid` always fault, and `rcp_iequal` always passes: it completes and
changes nothing but the delay's doing (42_boolean.md R96, 43_integer.md R100, R101). -/
def Obligations.OneRegisterTwice : Prop :=
  ∀ (s : State) (nd : Bool) (rt : Reg),
    (∀ i : Instr, i ∈ [.rcpBxorvalid nd rt rt, .rcpBxortrue nd rt rt, .rcpBxorfalse nd rt rt, .rcpIvalid nd rt rt] →
      SecureReady i s → ∃ t : State, exec i s = .next t ∧ ∀ k, t.fault k = true) ∧
    (SecureReady (.rcpIequal nd rt rt) s →
      exec (.rcpIequal nd rt rt) s = .next (s.completesWith s.active.arm (s.rcpAfterDelay (.rcpIequal nd rt rt))))

/-! ## The generator and the delay -/

/-- One update moves each of the four LFSRs by its own taps: shift towards the MSB, and the feedback bit is the parity of
the tapped bits, or 1 when the LFSR is all-zeroes; no LFSR is all-zeroes afterwards (44_random_and_delay.md R103,
R104). That the taps are relative to each LFSR's own bit 0 (R104), and that state bit `i` is salt bit `40 + i` (R103), are
marked derived there and not said by the source (log 40, DEDUCED). -/
def Obligations.AdvanceMovesFourRegisters : Prop :=
  ∀ p : BitVec 24,
    lfsrA (advance p) = (lfsrA p <<< 1 ||| if lfsrA p = 0 ∨ parity (lfsrA p &&& 0xc) = true then 1 else 0) ∧
    lfsrB (advance p) = (lfsrB p <<< 1 ||| if lfsrB p = 0 ∨ parity (lfsrB p &&& 0x14) = true then 1 else 0) ∧
    lfsrC (advance p) = (lfsrC p <<< 1 ||| if lfsrC p = 0 ∨ parity (lfsrC p &&& 0x60) = true then 1 else 0) ∧
    lfsrD (advance p) = (lfsrD p <<< 1 ||| if lfsrD p = 0 ∨ parity (lfsrD p &&& 0xb4) = true then 1 else 0) ∧
    lfsrA (advance p) ≠ 0 ∧ lfsrB (advance p) ≠ 0 ∧ lfsrC (advance p) ≠ 0 ∧ lfsrD (advance p) ≠ 0

/-- The eight output bits: XOR of six state bits and the majority of three, the table as the source prints it
(44_random_and_delay.md R105). That the table wins over "three other bits" is the spec's resolution (90_conflicts.md C4;
log 40, DEDUCED). -/
def Obligations.OutputBitsAreTheTable : Prop :=
  ∀ p : BitVec 24,
    let bit := fun (x1 x2 x3 x4 x5 x6 m1 m2 m3 : Nat) =>
      p.getLsbD x1 ^^ p.getLsbD x2 ^^ p.getLsbD x3 ^^ p.getLsbD x4 ^^ p.getLsbD x5 ^^ p.getLsbD x6 ^^
        ((p.getLsbD m1 && p.getLsbD m2) || (p.getLsbD m1 && p.getLsbD m3) || (p.getLsbD m2 && p.getLsbD m3))
    (prngOut p).getLsbD 7 = bit 7 17 6 16 13 8 9 12 21 ∧ (prngOut p).getLsbD 6 = bit 14 21 19 6 16 13 4 14 6 ∧
    (prngOut p).getLsbD 5 = bit 7 5 2 18 11 1 18 14 7 ∧ (prngOut p).getLsbD 4 = bit 4 19 17 0 18 7 18 11 3 ∧
    (prngOut p).getLsbD 3 = bit 23 12 7 16 14 5 17 3 15 ∧ (prngOut p).getLsbD 2 = bit 15 13 20 21 8 12 7 22 9 ∧
    (prngOut p).getLsbD 1 = bit 4 16 11 18 9 6 14 21 16 ∧ (prngOut p).getLsbD 0 = bit 11 3 4 19 10 14 1 2 9

/-- `rcp_random_byte` returns the generated number zero-extended and leaves the generator in the state the generation
leaves; it has no delay of its own, whatever `nd` (44_random_and_delay.md R111). That bits 31:8 are zero
completes a sentence the source has cut off (log 39, DEDUCED). The `Rt = 15` clause, bits 31:28 to
N, Z, C, V, is 10_state.md R20's from general knowledge (log 16, PRESUMED). Which number is returned is open: the sample
order is opaque, and a free number is one of its values (log 17, DESIGN CHOICE). -/
def Obligations.RandomByteReturnsOneNumber : Prop :=
  ∀ (s : State) (nd : Bool) (rt : Reg), SecureReady (.rcpRandomByte nd rt) s →
    ReadCompletes (.rcpRandomByte nd rt) rt ((generate Config.prngSampleOrder s.active.rcp.prng s.draws).byte.setWidth 32)
      s { s.rcpAfterDelay (.rcpRandomByte nd rt) with
          prng := (generate Config.prngSampleOrder s.active.rcp.prng s.draws).state }

/-- In both sample orders the source leaves open one generation is one `Advance` and one `Out`
(44_random_and_delay.md R106). The model's third order, a free number and state, is log 17 (DESIGN CHOICE), of which this
says nothing; `Advance` and `Out` rest on log 40 (DEDUCED). -/
def Obligations.OneGenerationIsOneAdvance : Prop :=
  ∀ (p : BitVec 24) (k : Nat),
    (generate .before p k).byte = prngOut p ∧ (generate .before p k).state = advance p ∧
    (generate .after p k).byte = prngOut (advance p) ∧ (generate .after p k).state = advance p

/-- A delayed Secure instruction that an interrupt makes the core abandon has not executed: no check, no register, flag
or pc, and no RCP state but the generator and the countdown; a number was generated only if no countdown was running
(44_random_and_delay.md R108, R109). At which issues an interrupt arrives, and how far the counter counts until the
re-issue, are the machine's input (log 19, DESIGN CHOICE). That an abandoned
instruction has not executed is derived in R108 and not said by the source. -/
def Obligations.AbandonedInstructionHasNotExecuted : Prop :=
  ∀ (i : Instr) (s : State) (irq : Interrupt),
    SecureIssue i s → s.active.rcp.saltValid = true ∨ i.saltExempt = true →
    i.saltTarget = none ∨ s.turn = .core0 →
    i.delayed = true → s.active.interruptAt s.draws = some irq → s.active.rcp.countdown s.draws ≠ 0 →
    ∃ t : State, exec i s = .next t ∧ t.core s.turn.other = s.core s.turn.other ∧ t.mem = s.mem ∧
      t.draws = s.draws + 1 ∧
      t.active = { s.active with
        rcp := { s.active.rcp with
          prng := if s.active.rcp.delay = 0 then (generate Config.prngSampleOrder s.active.rcp.prng s.draws).state
            else s.active.rcp.prng
          delay := BitVec.ofNat 7 ((s.active.rcp.countdown s.draws).toNat - irq.elapsed) } }

/-- `nd` changes nothing but the delay: with no interrupt at this issue, an instruction and its other variant stop alike or
leave states that agree but for the acting core's generator and delay counter (30_encoding.md R54). -/
def Obligations.VariantsDifferOnlyInTheDelay : Prop :=
  ∀ (i : Instr) (s : State), s.active.interruptAt s.draws = none →
    (∀ t, exec i s = .next t → ∃ t' : State, exec i.flipNd s = .next t' ∧ SameButDelay s.turn t t') ∧
    (∀ r, exec i s = .refused r → exec i.flipNd s = .refused r)

/-- An instruction that is not delayed, a `*2` form, `rcp_random_byte` or a Non-secure one, starts no countdown: it
leaves at most what there was of a running one, and none where none ran; and, `rcp_random_byte` and the salt writes
apart, it generates no number (44_random_and_delay.md R107, R109, R110). Whether it waits for a running countdown is
open, so what it leaves of one is a free value below that bound (91_not_in_source.md N9; log 20, DESIGN
CHOICE). -/
def Obligations.UndelayedInstructionStartsNoCountdown : Prop :=
  ∀ (i : Instr) (s t : State), i.delayed = false ∨ s.active.arm.security = .nonSecure → exec i s = .next t →
    (t.core s.turn).rcp.delay.toNat ≤ s.active.rcp.delay.toNat ∧
    (s.active.rcp.delay = 0 → (t.core s.turn).rcp.delay = 0) ∧
    (i.isRandomByte = false → i.saltTarget ≠ some s.turn → (t.core s.turn).rcp.prng = s.active.rcp.prng)

/-! ## The sequence counter -/

/-- `rcp_count_set` writes the counter, whatever it held; the register named by `Rt` has no effect
(45_sequence_count.md R113, where the last is derived; that the numbers 13 and 15 are refused there is log 15, DESIGN
CHOICE). -/
def Obligations.CountSetWritesTheCounter : Prop :=
  ∀ (s : State) (nd : Bool) (rt : Reg) (tag : Tag), SecureReady (.rcpCountSet nd rt tag) s →
    exec (.rcpCountSet nd rt tag) s =
      .next (s.completesWith s.active.arm { s.rcpAfterDelay (.rcpCountSet nd rt tag) with seq := tag })

/-- `rcp_count_check` asserts the counter is the tag and increments it, wrapping from 0xff to 0x00
(45_sequence_count.md R114). A check before any `rcp_count_set` meets the reset value the model names (log 7,
DESIGN CHOICE). On a mismatch the counter is not incremented: R114 says the source does not state it, and it is the spec's
decision 92_eei_decisions.md D7 (log 29, DESIGN CHOICE); that the faulting core's pc stays is the model's (log 22, DESIGN
CHOICE). -/
def Obligations.CountCheckAssertsAndIncrements : Prop :=
  ∀ (s : State) (nd : Bool) (rt : Reg) (tag : Tag), SecureReady (.rcpCountCheck nd rt tag) s →
    (s.active.rcp.seq = tag →
      exec (.rcpCountCheck nd rt tag) s =
        .next (s.completesWith s.active.arm { s.rcpAfterDelay (.rcpCountCheck nd rt tag) with
          seq := BitVec.ofNat 8 ((tag.toNat + 1) % 256) })) ∧
    (s.active.rcp.seq ≠ tag →
      ∃ t : State, exec (.rcpCountCheck nd rt tag) s = .next t ∧
        Faulted .countMismatch (s.afterDelay (.rcpCountCheck nd rt tag)) t)

/-! ## Panic -/

/-- `rcp_panic` faults the other core and stalls its own for ever, with its pc in place and its own fault register clear
(46_panic.md R117). That the other core's registers and pc stay, as no NMI entry is modelled, is log 22 (DESIGN
CHOICE). -/
def Obligations.PanicStallsAndFaultsTheOtherCore : Prop :=
  ∀ (s : State) (nd : Bool), SecureReady (.rcpPanic nd) s →
    ∃ t : State, exec (.rcpPanic nd) s = .next t ∧
      t.active = { s.active with run := .stalled, rcp := s.rcpAfterDelay (.rcpPanic nd) } ∧
      t.fault s.turn = false ∧
      (t.core s.turn.other).rcp = { (s.core s.turn.other).rcp with fault := true } ∧ t.nmi s.turn.other = true ∧
      (t.core s.turn.other).arm = (s.core s.turn.other).arm ∧ (t.core s.turn.other).run = (s.core s.turn.other).run ∧
      t.mem = s.mem ∧ t.turn = s.turn ∧ t.draws = s.draws

/-- A panicked core that abandons its access for an interrupt has its NMI asserted and its fault register set, and stays
stalled (46_panic.md R117, R118). That its registers and pc stay, as no instruction of the interrupt handler is
modelled, is the model's DESIGN CHOICE (log 26, 92_eei_decisions.md D6). -/
def Obligations.AbandonedPanicAssertsTheNmi : Prop :=
  ∀ (s : State) (irq : Interrupt), s.active.run = .stalled → s.fault s.turn = false →
    s.active.interruptAt s.draws = some irq →
    ∃ t : State, step s = .next t ∧ t.fault s.turn = true ∧ t.nmi s.turn = true ∧ (t.core s.turn).run = .stalled ∧
      (t.core s.turn).arm = s.active.arm

/-! ## Non-secure state -/

/-- In Non-secure state every `mrc` returns zero, whatever the salt state: to `x[Rt]`, or to all four flags; of the RCP
only a running countdown may change, and for `rcp_random_byte` the generator either advances once or stays
(60_exceptions.md R131 item 1, R132). That it is so also while the salt is invalid is the spec's decision
92_eei_decisions.md D8 (log 28, DESIGN CHOICE), the two possible generators are its decision D9 (log 18, DESIGN CHOICE),
and the flags with `Rt = 15` are log 16 (PRESUMED). -/
def Obligations.NonSecureReadsAreZero : Prop :=
  ∀ (s : State) (nd : Bool) (rt : Reg) (tag : Tag),
    (NonSecureIssue (.rcpCanaryStatus nd rt) s →
      ReadCompletes (.rcpCanaryStatus nd rt) rt 0 s (s.active.rcp.afterDelay false s.draws)) ∧
    (NonSecureIssue (.rcpCanaryGet nd rt tag) s →
      ReadCompletes (.rcpCanaryGet nd rt tag) rt 0 s (s.active.rcp.afterDelay false s.draws)) ∧
    (NonSecureIssue (.rcpRandomByte nd rt) s →
      ReadCompletes (.rcpRandomByte nd rt) rt 0 s (s.active.rcp.afterDelay false s.draws) ∨
      ReadCompletes (.rcpRandomByte nd rt) rt 0 s { s.active.rcp.afterDelay false s.draws with
        prng := (generate Config.prngSampleOrder s.active.rcp.prng s.draws).state })

/-- In Non-secure state the assertions on write data complete and do nothing, whatever the operands and the salt state
(60_exceptions.md R131 item 2; "whatever the salt state" is the spec's decision 92_eei_decisions.md D8, log 28, DESIGN
CHOICE). -/
def Obligations.NonSecureAssertionsDoNothing : Prop :=
  ∀ (i : Instr) (s : State), i.isDataAssertion = true → NonSecureIssue i s →
    exec i s = .next (s.completesWith s.active.arm (s.active.rcp.afterDelay false s.draws))

/-- In Non-secure state `rcp_count_set` and `rcp_count_check` complete; the counter takes its Secure value or stays, and
no check is made (60_exceptions.md R132; that it is so also while the salt is invalid is the spec's decision
92_eei_decisions.md D8, log 28, DESIGN CHOICE, and the two possible counters are its decision D9, log 18, DESIGN CHOICE).
-/
def Obligations.NonSecureCountEitherWay : Prop :=
  ∀ (s : State) (nd : Bool) (rt : Reg) (tag : Tag),
    (NonSecureIssue (.rcpCountSet nd rt tag) s →
      exec (.rcpCountSet nd rt tag) s = .next (s.completesWith s.active.arm (s.active.rcp.afterDelay false s.draws)) ∨
      exec (.rcpCountSet nd rt tag) s =
        .next (s.completesWith s.active.arm { s.active.rcp.afterDelay false s.draws with seq := tag })) ∧
    (NonSecureIssue (.rcpCountCheck nd rt tag) s →
      exec (.rcpCountCheck nd rt tag) s = .next (s.completesWith s.active.arm (s.active.rcp.afterDelay false s.draws)) ∨
      exec (.rcpCountCheck nd rt tag) s =
        .next (s.completesWith s.active.arm { s.active.rcp.afterDelay false s.draws with
          seq := s.active.rcp.seq + 1 }))

/-- A Non-secure instruction raises no RCP fault on either core, and of the RCPs it changes at most its own sequence
counter, generator and running countdown (60_exceptions.md R131, 70_reset_and_hazards.md R164). That it raises none while
the salt is invalid is the spec's decision 92_eei_decisions.md D8 (log 28, DESIGN CHOICE). -/
def Obligations.NonSecureNeverFaults : Prop :=
  ∀ (i : Instr) (s t : State), s.active.arm.security = .nonSecure → exec i s = .next t →
    (∀ k, t.fault k = s.fault k) ∧ t.core s.turn.other = s.core s.turn.other ∧
    { t.active.rcp with seq := 0, prng := 0, delay := 0 } = { s.active.rcp with seq := 0, prng := 0, delay := 0 }

/-- Non-secure code learns nothing of the RCP's secrets: from two states in which the same core with the same registers,
flags, pc and fault register is acting, whatever the salts, the salts' validity, the sequence counters, the delay
counters and the other core are, a Non-secure instruction stops alike or leaves the same registers, flags, pc and stall,
with the same core acting and its fault registers as equal as before (60_exceptions.md R131). That it does not depend on
the salts' validity rests on the spec's decision 92_eei_decisions.md D8 (log 28, DESIGN CHOICE). -/
def Obligations.NonSecureLearnsNothing : Prop :=
  ∀ (i : Instr) (s s' : State), s.active.arm.security = .nonSecure → s.turn = s'.turn →
    s.active.arm = s'.active.arm → s.active.run = s'.active.run → s.fault s.turn = s'.fault s'.turn →
    (∀ t, exec i s = .next t →
      ∃ t' : State, exec i s' = .next t' ∧ t.turn = t'.turn ∧ t.active.arm = t'.active.arm ∧
        t.active.run = t'.active.run ∧ t.fault t.turn = t'.fault t'.turn) ∧
    (∀ r, exec i s = .refused r → exec i s' = .refused r)

/-- In Non-secure state the two variants of an instruction do the same, no instruction but `rcp_random_byte` moves the
generator, and no instruction starts or lengthens a countdown: the delay counter is afterwards at most what it was, and
0 if it was 0 (44_random_and_delay.md R109, R110; what is left of a running countdown is open, log 20, DESIGN CHOICE). -/
def Obligations.NonSecureHasNoDelay : Prop :=
  ∀ (i : Instr) (s : State), s.active.arm.security = .nonSecure →
    exec i.flipNd s = exec i s ∧
    (∀ t, exec i s = .next t → i.isRandomByte = false → t.active.rcp.prng = s.active.rcp.prng) ∧
    (∀ t, exec i s = .next t → t.active.rcp.delay.toNat ≤ s.active.rcp.delay.toNat ∧
      (s.active.rcp.delay = 0 → t.active.rcp.delay = 0))

/-! ## Frames over all instructions -/

/-- No instruction writes a core register but an `mrc`, which writes `x[Rt]` of its own core when `Rt` is not 15
(10_state.md R18). -/
def Obligations.OnlyMrcWritesARegister : Prop :=
  ∀ (i : Instr) (s t : State), exec i s = .next t → ∀ (k : CoreId) (r : Reg),
    ¬ (k = s.turn ∧ i.mrcDest = some r ∧ r ≠ 15) → (t.core k).arm.x[r] = (s.core k).arm.x[r]

/-- No instruction writes the flags but an `mrc` with `Rt = 15`, those of its own core (10_state.md R20). That `rcp_canary_get` and
`rcp_random_byte` have such a form is from general knowledge (log 16, PRESUMED). -/
def Obligations.OnlyMrcToFifteenWritesFlags : Prop :=
  ∀ (i : Instr) (s t : State), exec i s = .next t → ∀ k : CoreId,
    ¬ (k = s.turn ∧ i.mrcDest = some 15) → (t.core k).arm.flags = (s.core k).arm.flags

/-- No instruction changes a security state, an access enable or the IT mark, of either core; the acting core's pc stays
or moves 4 further, and the other's stays (60_exceptions.md R134, R138, R146; 10_state.md R19). That no instruction writes
`NSACR` or `CPACR_NS` is 60_exceptions.md R147 with 10_state.md R22; that none writes the Secure enable `cp7Secure`, a bit
of the model's, is log 9 (DESIGN CHOICE). That no instruction of the RCP changes the IT mark is log 10 (DESIGN CHOICE).
That the pc of a core that faults, and of one that its instruction's fault triggers, stays, as no NMI entry is modelled, is
log 22 (DESIGN CHOICE). -/
def Obligations.ControlStateIsUnchanged : Prop :=
  ∀ (i : Instr) (s t : State), exec i s = .next t →
    (∀ k, (t.core k).arm.security = (s.core k).arm.security) ∧ (∀ k, (t.core k).arm.nsacr7 = (s.core k).arm.nsacr7) ∧
    (∀ k, (t.core k).arm.cpacrNs7 = (s.core k).arm.cpacrNs7) ∧
    (∀ k, (t.core k).arm.cp7Secure = (s.core k).arm.cp7Secure) ∧
    (∀ k, (t.core k).arm.inItBlock = (s.core k).arm.inItBlock) ∧
    ((t.core s.turn).arm.pc = s.active.arm.pc ∨ (t.core s.turn).arm.pc = s.active.arm.pc + 4) ∧
    (t.core s.turn.other).arm.pc = (s.core s.turn.other).arm.pc

/-- An instruction reads and writes no memory: it does the same whatever memory holds, and every byte reads as before
(20_memory.md R30). That it ends in no fault of the model, an RCP fault being a next state, is the model's (log 22, DESIGN
CHOICE). -/
def Obligations.InstructionsUseNoMemory : Prop :=
  ∀ (i : Instr) (s : State) (m : List Host.Cell),
    (∀ t, exec i s = .next t → (∀ a, readByte t.mem a = readByte s.mem a) ∧
      exec i { s with mem := m } = .next { t with mem := m }) ∧
    (∀ r, exec i s ≠ .fault r) ∧
    (∀ r, exec i s = .refused r → exec i { s with mem := m } = .refused r)

/-- No instruction writes a sequence counter but the two of that family, their own core's; no instruction writes the
canary part of a salt or its validity but a salt write, its target's (10_state.md R10, R12, R14). That each core has a
counter of its own is derived in R14 and not said by the source (log 36, DEDUCED). -/
def Obligations.CounterAndSaltFrame : Prop :=
  ∀ (i : Instr) (s t : State), exec i s = .next t →
    (∀ k, ¬ (k = s.turn ∧ i.isCount = true) → (t.core k).rcp.seq = (s.core k).rcp.seq) ∧
    (∀ k, i.saltTarget ≠ some k → (t.core k).rcp.saltLow = (s.core k).rcp.saltLow ∧
      (t.core k).rcp.saltValid = (s.core k).rcp.saltValid)

/-- There are exactly two links between the RCPs: core 0 can write the salt of core 1, and a trigger sets the other core's
fault register. Nothing else of the other core changes (10_state.md R25; that its sequence counter is its own is DEDUCED,
log 36; `ended` is the model's record of the trigger, log 23, DESIGN CHOICE). That the triggered core's
registers and pc stay, as no NMI entry is modelled, is log 22 (DESIGN CHOICE). -/
def Obligations.OnlyTwoLinksBetweenTheCores : Prop :=
  ∀ (i : Instr) (s t : State), exec i s = .next t →
    (t.core s.turn.other).arm = (s.core s.turn.other).arm ∧ (t.core s.turn.other).run = (s.core s.turn.other).run ∧
    (t.core s.turn.other).irqs = (s.core s.turn.other).irqs ∧
    (t.core s.turn.other).rcp.seq = (s.core s.turn.other).rcp.seq ∧
    (t.core s.turn.other).rcp.delay = (s.core s.turn.other).rcp.delay ∧
    (¬ (s.turn = .core0 ∧ i.saltTarget = some .core1) →
      (t.core s.turn.other).rcp.salt = (s.core s.turn.other).rcp.salt ∧
      (t.core s.turn.other).rcp.saltValid = (s.core s.turn.other).rcp.saltValid) ∧
    ((t.core s.turn.other).rcp.fault = (s.core s.turn.other).rcp.fault ∨
      ((t.core s.turn.other).rcp.fault = true ∧ (t.fault s.turn = true ∨ (t.core s.turn).run = .stalled)))

/-! ## The machine over steps -/

/-- The invariant holds at reset: fault registers clear and both cores running (10_state.md R26). That the pcs are even and
the memory is in its form there rests on the model's reset values, pc 0x00000000 (log 4, DESIGN CHOICE) and no byte
loaded (log 3, DESIGN CHOICE), and that no run has ended on log 23 (DESIGN CHOICE). -/
def Obligations.InvariantAtReset : Prop := Inv State.reset

/-- Every step keeps the invariant: memory's canonical form, even pcs, the agreement of fault registers and ended runs,
and that the fault registers differ only while a panicked core is stalled (70_reset_and_hazards.md R164, 20_memory.md
R35). The record of ended runs is the model's (log 23, DESIGN CHOICE); that a pc is never made odd rests on no NMI entry being modelled (log 22, DESIGN CHOICE). -/
def Obligations.StepKeepsTheInvariant : Prop := ∀ s t : State, Inv s → step s = .next t → Inv t

/-- A salt once valid stays valid and keeps its canary bits 39:0 over every step (10_state.md R10, R12). -/
def Obligations.ValidSaltStays : Prop :=
  ∀ (s t : State) (k : CoreId), step s = .next t → (s.core k).rcp.saltValid = true →
    (t.core k).rcp.saltValid = true ∧ (t.core k).rcp.saltLow = (s.core k).rcp.saltLow

/-- A fault register once set stays set, and a stall stays a stall (60_exceptions.md R121, R123, R130). That the
registers, flags and pc of a faulted core stay, as its NMI handler is not modelled (log 22, R124 with
92_eei_decisions.md D6), and those of a panicked core too (log 26), are the model's DESIGN CHOICES. -/
def Obligations.FaultIsFinal : Prop :=
  ∀ (s t : State) (k : CoreId), step s = .next t →
    (s.fault k = true → t.fault k = true ∧ (t.core k).arm = (s.core k).arm) ∧
    ((s.core k).run = .stalled → (t.core k).run = .stalled ∧ (t.core k).arm = (s.core k).arm)

/-- After reset both salts are invalid, both fault registers and NMIs clear, and both cores run (10_state.md R26); the
reset event brings any state there (70_reset_and_hazards.md R150, R151). That it is one event for both cores and that
program text stays are the model's (logs 3, 32, DESIGN CHOICES; 92_eei_decisions.md D22). -/
def Obligations.ResetClearsFaultsAndSalts : Prop :=
  ∀ (s : State) (k : CoreId),
    ((State.reset.core k).rcp.saltValid = false ∧ State.reset.fault k = false ∧ State.reset.nmi k = false ∧
      (State.reset.core k).run = .running) ∧
    ((s.warmReset.core k).rcp.saltValid = false ∧ s.warmReset.fault k = false ∧ s.warmReset.nmi k = false ∧
      (s.warmReset.core k).run = .running ∧ s.warmReset.mem = s.mem)

/-- Non-secure code can set CPACR_NS bit 7 only while NSACR bit 7 is set, and that bit is what lets a Non-secure
instruction reach the RCP (10_state.md R22, 60_exceptions.md R133); code of a stalled core writes nothing (60_exceptions.md
R123). That an instruction whose access is not enabled is refused, by the name `cp7Disabled`, is not in the source (R133,
R145): it is the spec's decision 92_eei_decisions.md D20 (log 9, DESIGN CHOICE). That CPACR_NS bit 7 alone is the Non-secure
enable at the time of the access is the model's (log 9, DESIGN CHOICE). -/
def Obligations.NonSecureAccessGate : Prop :=
  ∀ (s : State) (i : Instr), s.active.arm.security = .nonSecure → s.active.arm.inItBlock = false →
    (s.active.arm.nsacr7 = false → s.active.arm.cpacrNs7 = false →
      exec i (s.writeCpacrNs7 true) = .refused .cp7Disabled) ∧
    (s.active.arm.nsacr7 = true → s.active.run = .running → i.wellFormed = true →
      Issuable i (s.writeCpacrNs7 true)) ∧
    (s.active.run = .stalled → s.writeCpacrNs7 true = s)
end

