-- ==== Sys2Proof/Laws/State.lean ====
section
/-! SUPPORT. One small lemma per field and per update of the state, so that no proof unfolds a record update. -/

namespace Sys2Proof.Machine

@[simp] theorem CoreId.other_other (k : CoreId) : k.other.other = k := by cases k <;> rfl
@[simp] theorem CoreId.other_ne (k : CoreId) : k.other ≠ k := by cases k <;> decide
@[simp] theorem CoreId.ne_other (k : CoreId) : k ≠ k.other := by cases k <;> decide

theorem CoreId.eq_or_other (k c : CoreId) : k = c ∨ k = c.other := by cases k <;> cases c <;> decide

@[simp] theorem State.core_core0 (s : State) : s.core .core0 = s.core0 := rfl
@[simp] theorem State.core_core1 (s : State) : s.core .core1 = s.core1 := rfl
@[simp] theorem State.withDraws_core (s : State) (n : Nat) (k : CoreId) :
    ({ s with draws := n } : State).core k = s.core k := by cases k <;> rfl

@[simp] theorem State.setCore_core_same (s : State) (k : CoreId) (c : CoreState) : (s.setCore k c).core k = c := by
  cases k <;> rfl
@[simp] theorem State.setCore_core_other (s : State) (k : CoreId) (c : CoreState) :
    (s.setCore k c).core k.other = s.core k.other := by cases k <;> rfl
@[simp] theorem State.setCore_other_core (s : State) (k : CoreId) (c : CoreState) :
    (s.setCore k.other c).core k = s.core k := by cases k <;> rfl
theorem State.setCore_core_ne (s : State) {k j : CoreId} (c : CoreState) (h : j ≠ k) :
    (s.setCore k c).core j = s.core j := by cases k <;> cases j <;> first | rfl | exact absurd rfl h
@[simp] theorem State.setCore_setCore (s : State) (k : CoreId) (c d : CoreState) :
    (s.setCore k c).setCore k d = s.setCore k d := by cases k <;> rfl
@[simp] theorem State.setCore_core_self (s : State) (k : CoreId) : s.setCore k (s.core k) = s := by cases k <;> rfl
@[simp] theorem State.setCore_turn (s : State) (k : CoreId) (c : CoreState) : (s.setCore k c).turn = s.turn := by
  cases k <;> rfl
@[simp] theorem State.setCore_turns (s : State) (k : CoreId) (c : CoreState) : (s.setCore k c).turns = s.turns := by
  cases k <;> rfl
@[simp] theorem State.setCore_draws (s : State) (k : CoreId) (c : CoreState) : (s.setCore k c).draws = s.draws := by
  cases k <;> rfl
@[simp] theorem State.setCore_mem (s : State) (k : CoreId) (c : CoreState) : (s.setCore k c).mem = s.mem := by
  cases k <;> rfl

theorem State.active_def (s : State) : s.active = s.core s.turn := rfl
theorem State.setActive_def (s : State) (c : CoreState) : s.setActive c = s.setCore s.turn c := rfl

@[simp] theorem State.setActive_active (s : State) (c : CoreState) : (s.setActive c).active = c := by
  simp [State.setActive, State.active]
@[simp] theorem State.setActive_core (s : State) (c : CoreState) : (s.setActive c).core s.turn = c := by
  simp [State.setActive]
@[simp] theorem State.setActive_core_other (s : State) (c : CoreState) :
    (s.setActive c).core s.turn.other = s.core s.turn.other := by simp [State.setActive]
@[simp] theorem State.setActive_setActive (s : State) (c d : CoreState) :
    (s.setActive c).setActive d = s.setActive d := by simp [State.setActive]
@[simp] theorem State.setActive_active_self (s : State) : s.setActive s.active = s := by
  simp [State.setActive, State.active]
@[simp] theorem State.setActive_turn (s : State) (c : CoreState) : (s.setActive c).turn = s.turn := by
  simp [State.setActive]
@[simp] theorem State.setActive_turns (s : State) (c : CoreState) : (s.setActive c).turns = s.turns := by
  simp [State.setActive]
@[simp] theorem State.setActive_draws (s : State) (c : CoreState) : (s.setActive c).draws = s.draws := by
  simp [State.setActive]
@[simp] theorem State.setActive_mem (s : State) (c : CoreState) : (s.setActive c).mem = s.mem := by
  simp [State.setActive]

@[simp] theorem State.nextDraw_core (s : State) (k : CoreId) : s.nextDraw.core k = s.core k := by cases k <;> rfl
@[simp] theorem State.nextDraw_active (s : State) : s.nextDraw.active = s.active := State.nextDraw_core ..
@[simp] theorem State.nextDraw_turn (s : State) : s.nextDraw.turn = s.turn := rfl
@[simp] theorem State.nextDraw_turns (s : State) : s.nextDraw.turns = s.turns := rfl
@[simp] theorem State.nextDraw_draws (s : State) : s.nextDraw.draws = s.draws + 1 := rfl
@[simp] theorem State.nextDraw_mem (s : State) : s.nextDraw.mem = s.mem := rfl

/-! `setRcp` -/

@[simp] theorem State.setRcp_active (s : State) (r : Rcp) : (s.setRcp r).active = { s.active with rcp := r } := by
  simp [State.setRcp]
@[simp] theorem State.setRcp_core (s : State) (r : Rcp) : (s.setRcp r).core s.turn = { s.active with rcp := r } := by
  simp [State.setRcp]
@[simp] theorem State.setRcp_core_other (s : State) (r : Rcp) :
    (s.setRcp r).core s.turn.other = s.core s.turn.other := by simp [State.setRcp]
@[simp] theorem State.setRcp_turn (s : State) (r : Rcp) : (s.setRcp r).turn = s.turn := by simp [State.setRcp]
@[simp] theorem State.setRcp_turns (s : State) (r : Rcp) : (s.setRcp r).turns = s.turns := by simp [State.setRcp]
@[simp] theorem State.setRcp_draws (s : State) (r : Rcp) : (s.setRcp r).draws = s.draws := by simp [State.setRcp]
@[simp] theorem State.setRcp_mem (s : State) (r : Rcp) : (s.setRcp r).mem = s.mem := by simp [State.setRcp]

/-! Operands -/

@[simp] theorem State.setRcp_reg (s : State) (r : Rcp) (i : Reg) : (s.setRcp r).reg i = s.reg i := by
  simp [State.reg]
@[simp] theorem State.cpwdata32_eq (s : State) (rt : Reg) : s.cpwdata32 rt = s.reg rt := rfl
@[simp] theorem wdataLow_append (a b : Word) : wdataLow (a ++ b) = b := by
  apply BitVec.eq_of_getLsbD_eq
  intro i hi
  have h : (a ++ b).getLsbD i = b.getLsbD i := by rw [BitVec.getLsbD_append, if_pos hi]
  simpa [wdataLow, hi] using h
@[simp] theorem wdataHigh_append (a b : Word) : wdataHigh (a ++ b) = a := by
  apply BitVec.eq_of_getLsbD_eq
  intro i hi
  have h : (a ++ b).getLsbD (32 + i) = a.getLsbD i := by
    rw [BitVec.getLsbD_append, if_neg (by omega), Nat.add_sub_cancel_left]
  simpa [wdataHigh, hi] using h
@[simp] theorem State.wdataLow_cpwdata64 (s : State) (rt rt2 : Reg) : wdataLow (s.cpwdata64 rt rt2) = s.reg rt := by
  simp [State.cpwdata64]
@[simp] theorem State.wdataHigh_cpwdata64 (s : State) (rt rt2 : Reg) : wdataHigh (s.cpwdata64 rt rt2) = s.reg rt2 := by
  simp [State.cpwdata64]
@[simp] theorem State.setRcp_cpwdata64 (s : State) (r : Rcp) (rt rt2 : Reg) :
    (s.setRcp r).cpwdata64 rt rt2 = s.cpwdata64 rt rt2 := by simp [State.cpwdata64]

@[simp] theorem ArmCore.writeReg_read (a : ArmCore) (r : Reg) (v : Word) : (a.writeReg r v).x[r] = v := by
  simp [ArmCore.writeReg]
theorem ArmCore.writeReg_read_ne (a : ArmCore) {r q : Reg} (v : Word) (h : q ≠ r) : (a.writeReg r v).x[q] = a.x[q] := by
  simp [ArmCore.writeReg, Fin.val_ne_of_ne (Ne.symm h)]
@[simp] theorem ArmCore.writeReg_pc (a : ArmCore) (r : Reg) (v : Word) : (a.writeReg r v).pc = a.pc := rfl
@[simp] theorem ArmCore.writeReg_flags (a : ArmCore) (r : Reg) (v : Word) : (a.writeReg r v).flags = a.flags := rfl
@[simp] theorem ArmCore.writeReg_security (a : ArmCore) (r : Reg) (v : Word) :
    (a.writeReg r v).security = a.security := rfl
@[simp] theorem ArmCore.writeReg_nsacr7 (a : ArmCore) (r : Reg) (v : Word) : (a.writeReg r v).nsacr7 = a.nsacr7 := rfl
@[simp] theorem ArmCore.writeReg_cpacrNs7 (a : ArmCore) (r : Reg) (v : Word) :
    (a.writeReg r v).cpacrNs7 = a.cpacrNs7 := rfl
@[simp] theorem ArmCore.writeReg_cp7Secure (a : ArmCore) (r : Reg) (v : Word) :
    (a.writeReg r v).cp7Secure = a.cp7Secure := rfl
@[simp] theorem ArmCore.writeReg_inItBlock (a : ArmCore) (r : Reg) (v : Word) :
    (a.writeReg r v).inItBlock = a.inItBlock := rfl

@[simp] theorem ArmCore.readInto_flags15 (a : ArmCore) (v : Word) : a.readInto 15 v = { a with flags := flagsOfRead v } :=
  rfl
theorem ArmCore.readInto_reg (a : ArmCore) {rt : Reg} (v : Word) (h : rt ≠ 15) : a.readInto rt v = a.writeReg rt v := by
  simp [ArmCore.readInto, h]
@[simp] theorem ArmCore.readInto_pc (a : ArmCore) (rt : Reg) (v : Word) : (a.readInto rt v).pc = a.pc := by
  unfold ArmCore.readInto; split <;> rfl
@[simp] theorem ArmCore.readInto_security (a : ArmCore) (rt : Reg) (v : Word) :
    (a.readInto rt v).security = a.security := by unfold ArmCore.readInto; split <;> rfl
@[simp] theorem ArmCore.readInto_nsacr7 (a : ArmCore) (rt : Reg) (v : Word) : (a.readInto rt v).nsacr7 = a.nsacr7 := by
  unfold ArmCore.readInto; split <;> rfl
@[simp] theorem ArmCore.readInto_cpacrNs7 (a : ArmCore) (rt : Reg) (v : Word) :
    (a.readInto rt v).cpacrNs7 = a.cpacrNs7 := by unfold ArmCore.readInto; split <;> rfl
@[simp] theorem ArmCore.readInto_cp7Secure (a : ArmCore) (rt : Reg) (v : Word) :
    (a.readInto rt v).cp7Secure = a.cp7Secure := by unfold ArmCore.readInto; split <;> rfl
@[simp] theorem ArmCore.readInto_inItBlock (a : ArmCore) (rt : Reg) (v : Word) :
    (a.readInto rt v).inItBlock = a.inItBlock := by unfold ArmCore.readInto; split <;> rfl

@[simp] theorem State.readInto_active (s : State) (rt : Reg) (v : Word) :
    (s.readInto rt v).active = { s.active with arm := s.active.arm.readInto rt v } := by simp [State.readInto]
@[simp] theorem State.readInto_core (s : State) (rt : Reg) (v : Word) :
    (s.readInto rt v).core s.turn = { s.active with arm := s.active.arm.readInto rt v } := by simp [State.readInto]
@[simp] theorem State.readInto_core_other (s : State) (rt : Reg) (v : Word) :
    (s.readInto rt v).core s.turn.other = s.core s.turn.other := by simp [State.readInto]
@[simp] theorem State.readInto_turn (s : State) (rt : Reg) (v : Word) : (s.readInto rt v).turn = s.turn := by
  simp [State.readInto]
@[simp] theorem State.readInto_turns (s : State) (rt : Reg) (v : Word) : (s.readInto rt v).turns = s.turns := by
  simp [State.readInto]
@[simp] theorem State.readInto_draws (s : State) (rt : Reg) (v : Word) : (s.readInto rt v).draws = s.draws := by
  simp [State.readInto]
@[simp] theorem State.readInto_mem (s : State) (rt : Reg) (v : Word) : (s.readInto rt v).mem = s.mem := by
  simp [State.readInto]

/-! `finish` -/

@[simp] theorem finish_core (s : State) :
    (finish s).core s.turn = { s.active with arm := { s.active.arm with pc := s.active.arm.pc + 4 } } := by
  unfold finish State.setActive; cases h : s.turn <;> rfl
@[simp] theorem finish_core_other (s : State) : (finish s).core s.turn.other = s.core s.turn.other := by
  unfold finish State.setActive; cases h : s.turn <;> rfl
@[simp] theorem finish_turn (s : State) : (finish s).turn = s.turn := by simp [finish]
@[simp] theorem finish_turns (s : State) : (finish s).turns = s.turns := by simp [finish]
@[simp] theorem finish_draws (s : State) : (finish s).draws = s.draws + 1 := by simp [finish]
@[simp] theorem finish_mem (s : State) : (finish s).mem = s.mem := by simp [finish]

/-! The salt register -/

@[simp] theorem Rcp.writeSalt_salt (r : Rcp) (v : BitVec 64) : (r.writeSalt v).salt = v := by
  apply BitVec.eq_of_getLsbD_eq
  intro i hi
  simp only [Rcp.writeSalt, Rcp.salt, BitVec.getLsbD_append, BitVec.getLsbD_extractLsb']
  split
  · simp_all
  · have : i - 40 < 24 := by omega
    simp [this, show 40 + (i - 40) = i by omega]
@[simp] theorem Rcp.writeSalt_saltValid (r : Rcp) (v : BitVec 64) : (r.writeSalt v).saltValid = true := rfl
@[simp] theorem Rcp.writeSalt_seq (r : Rcp) (v : BitVec 64) : (r.writeSalt v).seq = r.seq := rfl
@[simp] theorem Rcp.writeSalt_fault (r : Rcp) (v : BitVec 64) : (r.writeSalt v).fault = r.fault := rfl
@[simp] theorem Rcp.writeSalt_delay (r : Rcp) (v : BitVec 64) : (r.writeSalt v).delay = r.delay := rfl

/-! What the outside does -/

@[simp] theorem CoreState.ownCode_rcp (k : CoreState) (f : ArmCore → ArmCore) : (k.ownCode f).rcp = k.rcp := by
  unfold CoreState.ownCode; split <;> rfl
@[simp] theorem CoreState.ownCode_run (k : CoreState) (f : ArmCore → ArmCore) : (k.ownCode f).run = k.run := by
  unfold CoreState.ownCode; split <;> simp_all
@[simp] theorem CoreState.ownCode_irqs (k : CoreState) (f : ArmCore → ArmCore) : (k.ownCode f).irqs = k.irqs := by
  unfold CoreState.ownCode; split <;> rfl
/-- Code of a stalled core has no effect. -/
theorem CoreState.ownCode_stalled (k : CoreState) (f : ArmCore → ArmCore) (h : k.run = .stalled) : k.ownCode f = k := by
  simp [CoreState.ownCode, h]
theorem CoreState.ownCode_arm (k : CoreState) (f : ArmCore → ArmCore) (h : k.run = .running) :
    (k.ownCode f).arm = f k.arm := by
  simp [CoreState.ownCode, h]
theorem CoreState.ownCode_ended (k : CoreState) (f : ArmCore → ArmCore) (h : k.run = .running) :
    (k.ownCode f).ended ≠ some .undefInstr := by
  simp only [CoreState.ownCode, h]; split
  · split <;> simp
  · assumption

@[simp] theorem CoreState.runCoreCode_rcp (k : CoreState) (a : ArmCore) : (k.runCoreCode a).rcp = k.rcp := by
  simp [CoreState.runCoreCode]
@[simp] theorem CoreState.runCoreCode_run (k : CoreState) (a : ArmCore) : (k.runCoreCode a).run = k.run := by
  simp [CoreState.runCoreCode]
@[simp] theorem CoreState.runCoreCode_irqs (k : CoreState) (a : ArmCore) : (k.runCoreCode a).irqs = k.irqs := by
  simp [CoreState.runCoreCode]
theorem CoreState.runCoreCode_stalled (k : CoreState) (a : ArmCore) (h : k.run = .stalled) : k.runCoreCode a = k :=
  k.ownCode_stalled _ h
theorem CoreState.runCoreCode_ended (k : CoreState) (a : ArmCore) (h : k.run = .running) :
    (k.runCoreCode a).ended ≠ some .undefInstr := k.ownCode_ended _ h

@[simp] theorem State.runCoreCode_core (s : State) (k : CoreId) (a : ArmCore) :
    (s.runCoreCode k a).core k = (s.core k).runCoreCode a := by simp [State.runCoreCode]
@[simp] theorem State.runCoreCode_core_other (s : State) (k : CoreId) (a : ArmCore) :
    (s.runCoreCode k a).core k.other = s.core k.other := by simp [State.runCoreCode]
@[simp] theorem State.runCoreCode_turn (s : State) (k : CoreId) (a : ArmCore) : (s.runCoreCode k a).turn = s.turn := by
  simp [State.runCoreCode]
@[simp] theorem State.runCoreCode_turns (s : State) (k : CoreId) (a : ArmCore) :
    (s.runCoreCode k a).turns = s.turns := by simp [State.runCoreCode]
@[simp] theorem State.runCoreCode_draws (s : State) (k : CoreId) (a : ArmCore) :
    (s.runCoreCode k a).draws = s.draws := by simp [State.runCoreCode]
@[simp] theorem State.runCoreCode_mem (s : State) (k : CoreId) (a : ArmCore) : (s.runCoreCode k a).mem = s.mem := by
  simp [State.runCoreCode]

/-- Core code of a stalled core changes nothing of the machine. -/
theorem State.runCoreCode_stalled (s : State) (k : CoreId) (a : ArmCore) (h : (s.core k).run = .stalled) :
    s.runCoreCode k a = s := by
  simp [State.runCoreCode, CoreState.runCoreCode_stalled _ _ h]

/-- What a write of NSACR bit 7 does: nothing on a stalled core. -/
theorem State.writeNsacr7_stalled (s : State) (v : Bool) (h : s.active.run = .stalled) : s.writeNsacr7 v = s := by
  simp [State.writeNsacr7, CoreState.ownCode_stalled _ _ h]
@[simp] theorem State.writeNsacr7_active (s : State) (v : Bool) :
    (s.writeNsacr7 v).active = s.active.ownCode (fun a => a.writeNsacr7 v) := by simp [State.writeNsacr7]
@[simp] theorem State.writeNsacr7_core_other (s : State) (v : Bool) :
    (s.writeNsacr7 v).core s.turn.other = s.core s.turn.other := by simp [State.writeNsacr7]

/-- What a write of CPACR_NS bit 7 does: nothing on a stalled core. -/
theorem State.writeCpacrNs7_stalled (s : State) (v : Bool) (h : s.active.run = .stalled) : s.writeCpacrNs7 v = s := by
  simp [State.writeCpacrNs7, CoreState.ownCode_stalled _ _ h]
@[simp] theorem State.writeCpacrNs7_active (s : State) (v : Bool) :
    (s.writeCpacrNs7 v).active = s.active.ownCode (fun a => a.writeCpacrNs7 v) := by simp [State.writeCpacrNs7]
@[simp] theorem State.writeCpacrNs7_core_other (s : State) (v : Bool) :
    (s.writeCpacrNs7 v).core s.turn.other = s.core s.turn.other := by simp [State.writeCpacrNs7]

@[simp] theorem State.addInterrupt_core (s : State) (k : CoreId) (q : Interrupt) :
    (s.addInterrupt k q).core k = { s.core k with irqs := q :: (s.core k).irqs } := by simp [State.addInterrupt]
@[simp] theorem State.addInterrupt_core_other (s : State) (k : CoreId) (q : Interrupt) :
    (s.addInterrupt k q).core k.other = s.core k.other := by simp [State.addInterrupt]
/-- An added interrupt arrives at its draw. -/
theorem State.addInterrupt_interruptAt (s : State) (k : CoreId) (q : Interrupt) :
    ((s.addInterrupt k q).core k).interruptAt q.draw = some q := by simp [CoreState.interruptAt]
/-- An added interrupt changes nothing at any other draw. -/
theorem State.addInterrupt_interruptAt_ne (s : State) (k : CoreId) (q : Interrupt) {n : Nat} (h : q.draw ≠ n) :
    ((s.addInterrupt k q).core k).interruptAt n = (s.core k).interruptAt n := by simp [CoreState.interruptAt, h]

end Sys2Proof.Machine
end

