-- ==== Sys2Proof/Laws/Ops.lean ====
section
/-! SUPPORT. What the shared operations do, said once: the RCP fault, the stall, the delay and the common sequence. -/

namespace Sys2Proof.Machine

/-! ## The RCP fault -/

@[simp] theorem CoreState.trigger_fault (k : CoreState) (c : RcpCause) : (k.trigger c).rcp.fault = true := by
  unfold CoreState.trigger; split <;> simp_all
@[simp] theorem CoreState.trigger_arm (k : CoreState) (c : RcpCause) : (k.trigger c).arm = k.arm := by
  unfold CoreState.trigger; split <;> rfl
@[simp] theorem CoreState.trigger_run (k : CoreState) (c : RcpCause) : (k.trigger c).run = k.run := by
  unfold CoreState.trigger; split <;> rfl
@[simp] theorem CoreState.trigger_irqs (k : CoreState) (c : RcpCause) : (k.trigger c).irqs = k.irqs := by
  unfold CoreState.trigger; split <;> rfl
theorem CoreState.trigger_rcp (k : CoreState) (c : RcpCause) : (k.trigger c).rcp = { k.rcp with fault := true } := by
  unfold CoreState.trigger
  split
  · rename_i h; rw [← h]
  · rfl
theorem CoreState.trigger_ended (k : CoreState) (c : RcpCause) (h : k.ended = none) (hf : k.rcp.fault = false) :
    (k.trigger c).ended = some (.rcpFault c) := by simp [CoreState.trigger, h, hf]
theorem CoreState.trigger_of_fault (k : CoreState) (c : RcpCause) (h : k.rcp.fault = true) : k.trigger c = k := by
  simp [CoreState.trigger, h]
/-- After a trigger a run that ended in `Fault` has its fault register set. -/
theorem CoreState.trigger_ended_ne_none (k : CoreState) (c : RcpCause)
    (h : k.rcp.fault = true → k.ended ≠ none) : (k.trigger c).ended ≠ none := by
  unfold CoreState.trigger
  split
  · exact h ‹_›
  · cases k.ended <;> simp

@[simp] theorem State.crossTrigger_core (s : State) : s.crossTrigger.core s.turn = s.active := by
  simp [State.crossTrigger, State.active]
@[simp] theorem State.crossTrigger_core_other (s : State) :
    s.crossTrigger.core s.turn.other = (s.core s.turn.other).trigger .crossCore := by simp [State.crossTrigger]
@[simp] theorem State.crossTrigger_turn (s : State) : s.crossTrigger.turn = s.turn := by simp [State.crossTrigger]
@[simp] theorem State.crossTrigger_turns (s : State) : s.crossTrigger.turns = s.turns := by simp [State.crossTrigger]
@[simp] theorem State.crossTrigger_draws (s : State) : s.crossTrigger.draws = s.draws := by simp [State.crossTrigger]
@[simp] theorem State.crossTrigger_mem (s : State) : s.crossTrigger.mem = s.mem := by simp [State.crossTrigger]

@[simp] theorem raiseRcpFault_turn (c : RcpCause) (s : State) : (raiseRcpFault c s).turn = s.turn := by
  simp [raiseRcpFault]
@[simp] theorem raiseRcpFault_turns (c : RcpCause) (s : State) : (raiseRcpFault c s).turns = s.turns := by
  simp [raiseRcpFault]
@[simp] theorem raiseRcpFault_draws (c : RcpCause) (s : State) : (raiseRcpFault c s).draws = s.draws := by
  simp [raiseRcpFault]
@[simp] theorem raiseRcpFault_mem (c : RcpCause) (s : State) : (raiseRcpFault c s).mem = s.mem := by
  simp [raiseRcpFault]
@[simp] theorem raiseRcpFault_core (c : RcpCause) (s : State) :
    (raiseRcpFault c s).core s.turn = s.active.trigger c := by
  have h := State.crossTrigger_core (s.setActive (s.active.trigger c))
  simpa [raiseRcpFault] using h
@[simp] theorem raiseRcpFault_core_other (c : RcpCause) (s : State) :
    (raiseRcpFault c s).core s.turn.other = (s.core s.turn.other).trigger .crossCore := by
  have h := State.crossTrigger_core_other (s.setActive (s.active.trigger c))
  simpa [raiseRcpFault] using h

/-- What an RCP fault leaves, all of it. -/
theorem raiseRcpFault_faulted (c : RcpCause) (s : State) : Faulted c s (raiseRcpFault c s) := by
  have hk : ∀ k, ∃ d, (raiseRcpFault c s).core k = (s.core k).trigger d := by
    intro k
    rcases CoreId.eq_or_other k s.turn with rfl | rfl
    · exact ⟨c, raiseRcpFault_core c s⟩
    · exact ⟨.crossCore, raiseRcpFault_core_other c s⟩
  constructor
  · intro k; obtain ⟨d, hd⟩ := hk k; simp [State.fault, hd]
  · intro k; obtain ⟨d, hd⟩ := hk k; simp [State.nmi, hd]
  · intro h hf
    rw [State.active_def, raiseRcpFault_turn, raiseRcpFault_core]
    exact CoreState.trigger_ended _ _ h hf
  · intro h hf
    rw [raiseRcpFault_core_other]
    exact CoreState.trigger_ended _ _ h hf
  · intro k; obtain ⟨d, hd⟩ := hk k; simp [hd]
  · intro k; obtain ⟨d, hd⟩ := hk k; simp [hd, CoreState.trigger_rcp]
  · intro k; obtain ⟨d, hd⟩ := hk k; simp [hd, CoreState.trigger_rcp]
  · intro k; obtain ⟨d, hd⟩ := hk k; simp [hd, CoreState.trigger_rcp]
  · intro k; obtain ⟨d, hd⟩ := hk k; simp [hd, CoreState.trigger_rcp]
  · intro k; obtain ⟨d, hd⟩ := hk k; simp [hd, CoreState.trigger_rcp]
  · intro k; obtain ⟨d, hd⟩ := hk k; simp [hd]
  · intro k; obtain ⟨d, hd⟩ := hk k; simp [hd]
  · simp
  · simp
  · simp
  · simp

/-! ## The stall -/

@[simp] theorem stallForever_core (s : State) :
    (stallForever s).core s.turn = { s.active with run := .stalled } := by simp [stallForever]
@[simp] theorem stallForever_core_other (s : State) :
    (stallForever s).core s.turn.other = s.core s.turn.other := by simp [stallForever]
@[simp] theorem stallForever_turn (s : State) : (stallForever s).turn = s.turn := by simp [stallForever]
@[simp] theorem stallForever_turns (s : State) : (stallForever s).turns = s.turns := by simp [stallForever]
@[simp] theorem stallForever_draws (s : State) : (stallForever s).draws = s.draws := by simp [stallForever]
@[simp] theorem stallForever_mem (s : State) : (stallForever s).mem = s.mem := by simp [stallForever]

/-- A stalled core's turn: nothing after a fault; in a panic a draw, and its abandonment if an interrupt arrives. -/
theorem stalledTick_cases (s : State) :
    (s.active.rcp.fault = true ∧ stalledTick s = s) ∨
    (s.active.rcp.fault = false ∧ s.active.interruptAt s.draws = none ∧
      stalledTick s = s.nextDraw) ∨
    (s.active.rcp.fault = false ∧ (s.active.interruptAt s.draws).isSome = true ∧
      stalledTick s = (s.setActive (s.active.trigger .panicAbandoned)).nextDraw) := by
  unfold stalledTick
  cases hf : s.active.rcp.fault <;> cases hi : s.active.interruptAt s.draws <;> simp

@[simp] theorem stalledTick_core_other (s : State) : (stalledTick s).core s.turn.other = s.core s.turn.other := by
  rcases stalledTick_cases s with ⟨_, h⟩ | ⟨_, _, h⟩ | ⟨_, _, h⟩ <;> simp [h]
@[simp] theorem stalledTick_arm (s : State) (k : CoreId) : ((stalledTick s).core k).arm = (s.core k).arm := by
  rcases CoreId.eq_or_other k s.turn with rfl | rfl
  · rcases stalledTick_cases s with ⟨_, h⟩ | ⟨_, _, h⟩ | ⟨_, _, h⟩ <;> simp [h, State.active_def]
  · simp
@[simp] theorem stalledTick_run (s : State) (k : CoreId) : ((stalledTick s).core k).run = (s.core k).run := by
  rcases CoreId.eq_or_other k s.turn with rfl | rfl
  · rcases stalledTick_cases s with ⟨_, h⟩ | ⟨_, _, h⟩ | ⟨_, _, h⟩ <;> simp [h, State.active_def]
  · simp
@[simp] theorem stalledTick_irqs (s : State) (k : CoreId) : ((stalledTick s).core k).irqs = (s.core k).irqs := by
  rcases CoreId.eq_or_other k s.turn with rfl | rfl
  · rcases stalledTick_cases s with ⟨_, h⟩ | ⟨_, _, h⟩ | ⟨_, _, h⟩ <;> simp [h, State.active_def]
  · simp
theorem stalledTick_rcp (s : State) : ((stalledTick s).core s.turn).rcp =
    { s.active.rcp with fault := s.active.rcp.fault || (s.active.interruptAt s.draws).isSome } := by
  rcases stalledTick_cases s with ⟨hf, h⟩ | ⟨hf, hi, h⟩ | ⟨hf, hi, h⟩
  · rw [h, ← State.active_def, hf, Bool.true_or, ← hf]
  · rw [h, State.nextDraw_core, ← State.active_def, hi, Option.isSome_none, Bool.or_false]
  · simp [h, hi, CoreState.trigger_rcp]
theorem stalledTick_draws (s : State) :
    (stalledTick s).draws = if s.active.rcp.fault = true then s.draws else s.draws + 1 := by
  rcases stalledTick_cases s with ⟨hf, h⟩ | ⟨hf, _, h⟩ | ⟨hf, _, h⟩ <;> simp [h, hf]
@[simp] theorem stalledTick_turn (s : State) : (stalledTick s).turn = s.turn := by
  rcases stalledTick_cases s with ⟨_, h⟩ | ⟨_, _, h⟩ | ⟨_, _, h⟩ <;> simp [h]
@[simp] theorem stalledTick_turns (s : State) : (stalledTick s).turns = s.turns := by
  rcases stalledTick_cases s with ⟨_, h⟩ | ⟨_, _, h⟩ | ⟨_, _, h⟩ <;> simp [h]
@[simp] theorem stalledTick_mem (s : State) : (stalledTick s).mem = s.mem := by
  rcases stalledTick_cases s with ⟨_, h⟩ | ⟨_, _, h⟩ | ⟨_, _, h⟩ <;> simp [h]

/-! ## The delay -/

@[simp] theorem passCountdown_zero (k : Nat) : passCountdown 0#7 k = 0#7 := rfl

/-- What is left of a countdown is at most what there was. -/
theorem passCountdown_le (d : BitVec 7) (k : Nat) : (passCountdown d k).toNat ≤ d.toNat := by
  unfold passCountdown
  split
  · simp
  · split
    · exact Nat.le_refl _
    · rename_i h; rw [BitVec.le_def] at h; omega

theorem undelayed_eq (s : State) : undelayed s = s.setRcp (s.active.rcp.afterDelay false s.draws) := rfl

/-- An instruction that is not abandoned goes on from the state after its delay. -/
theorem delayThen_undisturbed (q : Issue) (body : State → Out) (s : State) (d : Bool) (hd : d = (!q.nd && !q.neverDelayed))
    (h : d = false ∨ s.active.interruptAt s.draws = none ∨ s.active.rcp.countdown s.draws = 0) :
    delayThen q body s = body (s.setRcp (s.active.rcp.afterDelay d s.draws)) := by
  unfold delayThen
  cases hq : (q.nd || q.neverDelayed)
  · have hd' : d = true := by cases hn : q.nd <;> cases hm : q.neverDelayed <;> simp_all
    subst hd'
    simp only [Bool.false_eq_true, if_false, delayIssue]
    have e : s.active.rcp.startCountdown Config.prngSampleOrder s.draws
        = { s.active.rcp with
            prng := if s.active.rcp.delay = 0 then (generate Config.prngSampleOrder s.active.rcp.prng s.draws).state
              else s.active.rcp.prng
            delay := s.active.rcp.countdown s.draws } := by
      unfold Rcp.startCountdown Rcp.countdown; split <;> rfl
    rw [e]
    cases hi : s.active.interruptAt s.draws with
    | none => simp [Rcp.afterDelay]
    | some irq =>
      have hz : s.active.rcp.countdown s.draws = 0 := by simpa [hi] using h
      simp [Rcp.afterDelay, hz]
  · have hd' : d = false := by cases hn : q.nd <;> cases hm : q.neverDelayed <;> simp_all
    subst hd'
    simp [undelayed_eq]

/-- A delayed instruction that meets an interrupt before its countdown is over is abandoned. -/
theorem delayThen_abandoned (q : Issue) (body : State → Out) (s : State) (hq : (q.nd || q.neverDelayed) = false)
    {irq : Interrupt} (hi : s.active.interruptAt s.draws = some irq) (hc : s.active.rcp.countdown s.draws ≠ 0) :
    delayThen q body s = .next (s.setRcp { s.active.rcp with
        prng := if s.active.rcp.delay = 0 then (generate Config.prngSampleOrder s.active.rcp.prng s.draws).state
          else s.active.rcp.prng
        delay := countDown (s.active.rcp.countdown s.draws) irq.elapsed }).nextDraw := by
  have e : s.active.rcp.startCountdown Config.prngSampleOrder s.draws
      = { s.active.rcp with
          prng := if s.active.rcp.delay = 0 then (generate Config.prngSampleOrder s.active.rcp.prng s.draws).state
            else s.active.rcp.prng
          delay := s.active.rcp.countdown s.draws } := by
    unfold Rcp.startCountdown Rcp.countdown; split <;> rfl
  simp only [delayThen, hq, Bool.false_eq_true, if_false, delayIssue, hi, e, hc]

/-- A state that differs from `s` in the acting core's generator and delay counter only. -/
def State.withDelay (s : State) (p : BitVec 24) (d : BitVec 7) : State :=
  s.setRcp { s.active.rcp with prng := p, delay := d }

/-- An abandoned instruction: a later generator and countdown, and nothing else. -/
def AbandonedFrom (s t : State) : Prop :=
  ∃ (p : BitVec 24) (d : BitVec 7), t = (s.withDelay p d).nextDraw

theorem undelayed_withDelay (s : State) :
    undelayed s = s.withDelay s.active.rcp.prng (passCountdown s.active.rcp.delay s.draws) := rfl

theorem afterDelay_withDelay (s : State) (b : Bool) :
    ∃ p d, s.setRcp (s.active.rcp.afterDelay b s.draws) = s.withDelay p d := by
  cases b
  · exact ⟨_, _, rfl⟩
  · exact ⟨_, _, rfl⟩

/-- Everything the delay can do. -/
theorem delayThen_cases (q : Issue) (body : State → Out) (s : State) :
    (∃ t, delayThen q body s = .next t ∧ AbandonedFrom s t) ∨
    ∃ p d, delayThen q body s = body (s.withDelay p d) := by
  by_cases hu : (!q.nd && !q.neverDelayed) = false ∨ s.active.interruptAt s.draws = none ∨ s.active.rcp.countdown s.draws = 0
  · right
    obtain ⟨p, d, h⟩ := afterDelay_withDelay s (!q.nd && !q.neverDelayed)
    exact ⟨p, d, by rw [delayThen_undisturbed q body s _ rfl hu, h]⟩
  · left
    simp only [not_or] at hu
    obtain ⟨hn, hi, hc⟩ := hu
    cases hirq : s.active.interruptAt s.draws with
    | none => exact absurd hirq hi
    | some irq =>
      have hq : (q.nd || q.neverDelayed) = false := by
        cases hn' : q.nd <;> cases hm : q.neverDelayed <;> simp_all
      exact ⟨_, delayThen_abandoned q body s hq hirq hc, _, _, rfl⟩

/-! ## The common sequence -/

theorem issueRefusal_none {a : ArmCore} {r : Bool} (h1 : a.inItBlock = false) (h2 : a.cp7Enabled = true) (h3 : r = true) :
    issueRefusal a r = none := by simp [issueRefusal, h1, h2, h3]

theorem rcpExecute_stall {q : Issue} {sb nb : State → Out} {s : State}
    (h : issueRefusal s.active.arm q.regsOk = none) (hf : s.active.rcp.fault = true) :
    rcpExecute q sb nb s = .next (stallForever s) := by simp [rcpExecute, h, hf]

theorem rcpExecute_nonSecure {q : Issue} {sb nb : State → Out} {s : State}
    (h : issueRefusal s.active.arm q.regsOk = none) (hf : s.active.rcp.fault = false)
    (hs : s.active.arm.security = .nonSecure) : rcpExecute q sb nb s = nb (undelayed s) := by
  simp [rcpExecute, h, hf, hs]

theorem rcpExecute_secure {q : Issue} {sb nb : State → Out} {s : State}
    (h : issueRefusal s.active.arm q.regsOk = none) (hf : s.active.rcp.fault = false)
    (hs : s.active.arm.security = .secure) (hp : q.portRefusal = none)
    (hv : s.active.rcp.saltValid = true ∨ q.saltExempt = true) : rcpExecute q sb nb s = delayThen q sb s := by
  have hc : (!s.active.rcp.saltValid && !q.saltExempt) = false := by rcases hv with h | h <;> simp [h]
  simp [rcpExecute, h, hf, hs, securePath, hp, hc]

/-- Everything the common sequence can answer next for an instruction that is not delayed. -/
theorem rcpExecute_undelayed {q : Issue} {sb nb : State → Out} {s t : State} (h : rcpExecute q sb nb s = .next t)
    (hd : (q.nd || q.neverDelayed) = true ∨ s.active.arm.security = .nonSecure) :
    t = stallForever s ∨ t = raiseRcpFault .saltInvalid s ∨ nb (undelayed s) = .next t ∨ sb (undelayed s) = .next t := by
  unfold rcpExecute at h
  cases hr : issueRefusal s.active.arm q.regsOk with
  | some r => simp [hr] at h
  | none =>
    simp only [hr] at h
    split at h
    · cases h; exact .inl rfl
    · cases hs : s.active.arm.security with
      | nonSecure => simp only [hs] at h; exact .inr (.inr (.inl h))
      | secure =>
        have hq : (q.nd || q.neverDelayed) = true := hd.resolve_right (by simp [hs])
        simp only [hs, securePath] at h
        cases hp : q.portRefusal with
        | some r => simp [hp] at h
        | none =>
          simp only [hp] at h
          split at h
          · cases h; exact .inr (.inl rfl)
          · simp only [delayThen, hq, if_true] at h; exact .inr (.inr (.inr h))

/-- Everything the common sequence can answer next. -/
theorem rcpExecute_cases {q : Issue} {sb nb : State → Out} {s t : State} (h : rcpExecute q sb nb s = .next t) :
    (s.active.rcp.fault = true ∧ t = stallForever s) ∨
    (s.active.rcp.fault = false ∧ s.active.arm.security = .nonSecure ∧ nb (undelayed s) = .next t) ∨
    (s.active.rcp.fault = false ∧ s.active.arm.security = .secure ∧ q.portRefusal = none ∧
      (t = raiseRcpFault .saltInvalid s ∨ AbandonedFrom s t ∨ ∃ p d, sb (s.withDelay p d) = .next t)) := by
  unfold rcpExecute at h
  cases hr : issueRefusal s.active.arm q.regsOk with
  | some r => simp [hr] at h
  | none =>
    simp only [hr] at h
    cases hf : s.active.rcp.fault with
    | true => simp only [hf, if_true, Host.Outcome.next.injEq] at h; exact .inl ⟨rfl, h.symm⟩
    | false =>
      simp only [hf, Bool.false_eq_true, if_false] at h
      cases hs : s.active.arm.security with
      | nonSecure => simp only [hs] at h; exact .inr (.inl ⟨rfl, rfl, h⟩)
      | secure =>
        simp only [hs, securePath] at h
        cases hp : q.portRefusal with
        | some r => simp [hp] at h
        | none =>
          refine .inr (.inr ⟨rfl, rfl, rfl, ?_⟩)
          simp only [hp] at h
          split at h
          · exact .inl (by simpa using h.symm)
          · rcases delayThen_cases q sb s with ⟨u, hu, ha⟩ | ⟨p, d, hd⟩
            · rw [hu] at h; cases h; exact .inr (.inl ha)
            · rw [hd] at h; exact .inr (.inr ⟨p, d, h⟩)

end Sys2Proof.Machine
end

