-- ==== Sys2Proof/Laws/Complete.lean ====
section
/-! SUPPORT. How an instruction that is issued and not abandoned ends: the common sequence hands its own rule the state
after its delay; and the state a completed instruction leaves, field by field. -/

namespace Sys2Proof.Machine

/-! ## The state after the delay -/

@[simp] theorem Rcp.afterDelay_saltLow (b : Bool) (r : Rcp) (k : Nat) : (r.afterDelay b k).saltLow = r.saltLow := by
  cases b <;> rfl
@[simp] theorem Rcp.afterDelay_saltValid (b : Bool) (r : Rcp) (k : Nat) : (r.afterDelay b k).saltValid = r.saltValid := by
  cases b <;> rfl
@[simp] theorem Rcp.afterDelay_seq (b : Bool) (r : Rcp) (k : Nat) : (r.afterDelay b k).seq = r.seq := by cases b <;> rfl
@[simp] theorem Rcp.afterDelay_fault (b : Bool) (r : Rcp) (k : Nat) : (r.afterDelay b k).fault = r.fault := by
  cases b <;> rfl
@[simp] theorem Rcp.afterDelay_prng_false (r : Rcp) (k : Nat) : (r.afterDelay false k).prng = r.prng := rfl

@[simp] theorem State.afterDelay_active (i : Instr) (s : State) :
    (s.afterDelay i).active = { s.active with rcp := s.rcpAfterDelay i } := by simp [State.afterDelay]
@[simp] theorem State.afterDelay_turn (i : Instr) (s : State) : (s.afterDelay i).turn = s.turn := by
  simp [State.afterDelay]
@[simp] theorem State.afterDelay_turns (i : Instr) (s : State) : (s.afterDelay i).turns = s.turns := by
  simp [State.afterDelay]
@[simp] theorem State.afterDelay_draws (i : Instr) (s : State) : (s.afterDelay i).draws = s.draws := by
  simp [State.afterDelay]
@[simp] theorem State.afterDelay_mem (i : Instr) (s : State) : (s.afterDelay i).mem = s.mem := by
  simp [State.afterDelay]
@[simp] theorem State.afterDelay_core (i : Instr) (s : State) :
    (s.afterDelay i).core s.turn = { s.active with rcp := s.rcpAfterDelay i } := by simp [State.afterDelay]
@[simp] theorem State.afterDelay_core_other (i : Instr) (s : State) :
    (s.afterDelay i).core s.turn.other = s.core s.turn.other := by simp [State.afterDelay]
@[simp] theorem State.afterDelay_reg (i : Instr) (s : State) (r : Reg) : (s.afterDelay i).reg r = s.reg r := by
  simp [State.reg]
@[simp] theorem State.afterDelay_cpwdata64 (i : Instr) (s : State) (rt rt2 : Reg) :
    (s.afterDelay i).cpwdata64 rt rt2 = s.reg rt2 ++ s.reg rt := by simp [State.cpwdata64]

/-! ## The state a completed instruction leaves -/

@[simp] theorem State.completesWith_core (s : State) (a : ArmCore) (r : Rcp) :
    (s.completesWith a r).core s.turn = { s.active with arm := { a with pc := s.active.arm.pc + 4 }, rcp := r } := by
  unfold State.completesWith State.setActive; cases h : s.turn <;> rfl
@[simp] theorem State.completesWith_core_other (s : State) (a : ArmCore) (r : Rcp) :
    (s.completesWith a r).core s.turn.other = s.core s.turn.other := by
  unfold State.completesWith State.setActive; cases h : s.turn <;> rfl
@[simp] theorem State.completesWith_turn (s : State) (a : ArmCore) (r : Rcp) : (s.completesWith a r).turn = s.turn := by
  simp [State.completesWith]
@[simp] theorem State.completesWith_turns (s : State) (a : ArmCore) (r : Rcp) :
    (s.completesWith a r).turns = s.turns := by simp [State.completesWith]
@[simp] theorem State.completesWith_draws (s : State) (a : ArmCore) (r : Rcp) :
    (s.completesWith a r).draws = s.draws + 1 := by simp [State.completesWith]
@[simp] theorem State.completesWith_mem (s : State) (a : ArmCore) (r : Rcp) : (s.completesWith a r).mem = s.mem := by
  simp [State.completesWith]
@[simp] theorem State.completesWith_active (s : State) (a : ArmCore) (r : Rcp) :
    (s.completesWith a r).active = { s.active with arm := { a with pc := s.active.arm.pc + 4 }, rcp := r } := by
  simp [State.active_def]

/-- Completion with an RCP written over the one after the delay. -/
theorem finish_setRcp (s : State) (r : Rcp) : finish (s.setRcp r) = s.completesWith s.active.arm r := by
  simp [finish, State.setRcp, State.completesWith]

/-- Completion of an instruction that does nothing else. -/
theorem finish_afterDelay (i : Instr) (s : State) :
    finish (s.afterDelay i) = s.completesWith s.active.arm (s.rcpAfterDelay i) := finish_setRcp s _

/-! ## The common sequence -/

theorem issueRefusal_issuable {i : Instr} {s : State} {ok : Bool} (h : Issuable i s) (hr : ok = i.wellFormed) :
    issueRefusal s.active.arm ok = none := issueRefusal_none h.notInIt h.enabled (hr.trans h.regs)

/-- In Secure state an undisturbed instruction does its own rule on the state after its delay. -/
theorem rcpExecute_undisturbed {q : Issue} {sb nb : State → Out} {i : Instr} {s : State} (h : SecureIssue i s)
    (hu : Undisturbed i s) (hr : q.regsOk = i.wellFormed) (hd : i.delayed = (!q.nd && !q.neverDelayed))
    (hp : q.portRefusal = none) (hv : s.active.rcp.saltValid = true ∨ q.saltExempt = true) :
    rcpExecute q sb nb s = sb (s.afterDelay i) := by
  rw [rcpExecute_secure (issueRefusal_issuable h.toIssuable hr) h.noFault h.secure hp hv,
    delayThen_undisturbed q sb s i.delayed hd hu]
  rfl

/-- In Non-secure state an instruction does its Non-secure rule, undelayed. -/
theorem rcpExecute_masked {q : Issue} {sb nb : State → Out} {i : Instr} {s : State} (h : NonSecureIssue i s)
    (hr : q.regsOk = i.wellFormed) :
    rcpExecute q sb nb s = nb (s.setRcp (s.active.rcp.afterDelay false s.draws)) := by
  rw [rcpExecute_nonSecure (issueRefusal_issuable h.toIssuable hr) h.noFault h.nonSecure]; rfl

/-- Every instruction runs through the common sequence, with its own no-delay bit, register numbers, salt exemption and
port. -/
theorem exec_issue (i : Instr) (s : State) : ∃ (q : Issue) (sb nb : State → Out), exec i s = rcpExecute q sb nb s ∧
    q.nd = i.nd ∧ q.regsOk = i.wellFormed ∧ q.saltExempt = i.saltExempt ∧ q.neverDelayed = i.isRandomByte ∧
    q.portRefusal = (if i.saltTarget = none ∨ s.turn = .core0 then none else some .saltWriteFromCore1) := by
  cases i with
  | rcpSaltCore0 nd rt rt2 =>
    refine ⟨_, _, _, (execRcpSaltCore0.eq_1 ..).trans (saltWrite.eq_1 ..), rfl, rfl, rfl, rfl, ?_⟩
    simp [Instr.saltTarget]
  | rcpSaltCore1 nd rt rt2 =>
    refine ⟨_, _, _, (execRcpSaltCore1.eq_1 ..).trans (saltWrite.eq_1 ..), rfl, rfl, rfl, rfl, ?_⟩
    simp [Instr.saltTarget]
  | rcpCanaryStatus nd rt => exact ⟨_, _, _, execRcpCanaryStatus.eq_1 .., rfl, rfl, rfl, rfl, rfl⟩
  | rcpCanaryGet nd rt tag => exact ⟨_, _, _, execRcpCanaryGet.eq_1 .., rfl, rfl, rfl, rfl, rfl⟩
  | rcpCanaryCheck nd rt tag => exact ⟨_, _, _, execRcpCanaryCheck.eq_1 .., rfl, rfl, rfl, rfl, rfl⟩
  | rcpBvalid nd rt => exact ⟨_, _, _, (execRcpBvalid.eq_1 ..).trans (assertMcr.eq_1 ..), rfl, rfl, rfl, rfl, rfl⟩
  | rcpBtrue nd rt => exact ⟨_, _, _, (execRcpBtrue.eq_1 ..).trans (assertMcr.eq_1 ..), rfl, rfl, rfl, rfl, rfl⟩
  | rcpBfalse nd rt => exact ⟨_, _, _, (execRcpBfalse.eq_1 ..).trans (assertMcr.eq_1 ..), rfl, rfl, rfl, rfl, rfl⟩
  | rcpB2valid nd rt rt2 => exact ⟨_, _, _, (execRcpB2valid.eq_1 ..).trans (assertMcrr.eq_1 ..), rfl, rfl, rfl, rfl, rfl⟩
  | rcpB2and nd rt rt2 => exact ⟨_, _, _, (execRcpB2and.eq_1 ..).trans (assertMcrr.eq_1 ..), rfl, rfl, rfl, rfl, rfl⟩
  | rcpB2or nd rt rt2 => exact ⟨_, _, _, (execRcpB2or.eq_1 ..).trans (assertMcrr.eq_1 ..), rfl, rfl, rfl, rfl, rfl⟩
  | rcpBxorvalid nd rt rt2 =>
    exact ⟨_, _, _, (execRcpBxorvalid.eq_1 ..).trans (assertMcrr.eq_1 ..), rfl, rfl, rfl, rfl, rfl⟩
  | rcpBxortrue nd rt rt2 =>
    exact ⟨_, _, _, (execRcpBxortrue.eq_1 ..).trans (assertMcrr.eq_1 ..), rfl, rfl, rfl, rfl, rfl⟩
  | rcpBxorfalse nd rt rt2 =>
    exact ⟨_, _, _, (execRcpBxorfalse.eq_1 ..).trans (assertMcrr.eq_1 ..), rfl, rfl, rfl, rfl, rfl⟩
  | rcpIvalid nd rt rt2 => exact ⟨_, _, _, (execRcpIvalid.eq_1 ..).trans (assertMcrr.eq_1 ..), rfl, rfl, rfl, rfl, rfl⟩
  | rcpIequal nd rt rt2 => exact ⟨_, _, _, (execRcpIequal.eq_1 ..).trans (assertMcrr.eq_1 ..), rfl, rfl, rfl, rfl, rfl⟩
  | rcpRandomByte nd rt => exact ⟨_, _, _, execRcpRandomByte.eq_1 .., rfl, rfl, rfl, rfl, rfl⟩
  | rcpCountSet nd rt tag => exact ⟨_, _, _, execRcpCountSet.eq_1 .., rfl, rfl, rfl, rfl, rfl⟩
  | rcpCountCheck nd rt tag => exact ⟨_, _, _, execRcpCountCheck.eq_1 .., rfl, rfl, rfl, rfl, rfl⟩
  | rcpPanic nd => exact ⟨_, _, _, execRcpPanic.eq_1 .., rfl, rfl, rfl, rfl, rfl⟩

/-! ## Assertions -/

/-- An instruction that asserts on the state after its delay. -/
theorem asserts_of_assertThen {i : Instr} {s : State} {P : Prop} {c : RcpCause} {b : Bool}
    (h : exec i s = assertThen b c (s.afterDelay i)) (hb : b = true ↔ P) : Asserts i P c s := by
  constructor
  · intro hp
    rw [h, assertThen, if_pos (hb.2 hp), finish_afterDelay]
  · intro hp
    rw [h, assertThen, if_neg (by simpa [hb] using hp)]
    exact ⟨_, rfl, raiseRcpFault_faulted _ _⟩

/-- An `mcr` assertion. -/
theorem asserts_of_assertMcr {i : Instr} {nd : Bool} {rt : Reg} {c : RcpCause} {cond : Word → Bool} {s : State} {P : Prop}
    (h : SecureReady i s) (he : exec i s = assertMcr nd rt c cond s) (hw : i.wellFormed = mcrRegOk rt)
    (hd : i.delayed = !nd) (hb : cond (s.reg rt) = true ↔ P) : Asserts i P c s := by
  refine asserts_of_assertThen (b := cond (s.reg rt)) ?_ hb
  rw [he, assertMcr,
    rcpExecute_undisturbed h.toSecureIssue h.undisturbed hw.symm (by simpa using hd) rfl (.inl h.saltValid)]
  simp

/-- An `mcrr` assertion. -/
theorem asserts_of_assertMcrr {i : Instr} {nd : Bool} {rt rt2 : Reg} {c : RcpCause} {cond : Word → Word → Bool}
    {s : State} {P : Prop} (h : SecureReady i s) (he : exec i s = assertMcrr nd rt rt2 c cond s)
    (hw : i.wellFormed = (mcrRegOk rt && mcrRegOk rt2)) (hd : i.delayed = !nd)
    (hb : cond (s.reg rt) (s.reg rt2) = true ↔ P) : Asserts i P c s := by
  refine asserts_of_assertThen (b := cond (s.reg rt) (s.reg rt2)) ?_ hb
  rw [he, assertMcrr,
    rcpExecute_undisturbed h.toSecureIssue h.undisturbed hw.symm (by simpa using hd) rfl (.inl h.saltValid)]
  simp

/-! ## Reads -/

/-- An `mrc` that reads on a state with the RCP `r`. -/
theorem readCompletes_of {i : Instr} {rt : Reg} {v : Word} {s : State} {r : Rcp}
    (h : exec i s = readThen rt v (s.setRcp r)) : ReadCompletes i rt v s r := by
  constructor
  · intro hrt
    rw [h]
    simp [readThen, finish, State.readInto, State.completesWith, State.setRcp, ArmCore.readInto, hrt, ArmCore.writeReg]
  · intro hrt
    subst hrt
    rw [h]
    simp [readThen, finish, State.readInto, State.completesWith, State.setRcp, flagsOfRead]

end Sys2Proof.Machine
end

