-- ==== Sys2Proof/Laws/Decode.lean ====
section
/-! SUPPORT. The fields of the encoder's words: each field of a format reads back what was placed in it; and decoding by
row: what a row's mask holds decides class and validation, and a row that selects a word is the one the decoder takes. -/

namespace Sys2Proof

@[simp] theorem regOf_regBits (r : Reg) : regOf (regBits r) = r := rfl
@[simp] theorem regBits_regOf (v : BitVec 4) : regBits (regOf v) = v := rfl

/-- A bit of a placed field. -/
@[simp] theorem place_getElem {n : Nat} (v : BitVec n) (lo i : Nat) (h : i < 32) :
    (place v lo)[i] = (!decide (i < lo) && v.getLsbD (i - lo)) := by
  by_cases hl : i < lo
  · simp [place, BitVec.getElem_shiftLeft, hl]
  · have h' : i - lo < 32 := by omega
    simp [place, BitVec.getElem_shiftLeft, hl, BitVec.getElem_setWidth]

/-- The bits of a word decide a field. -/
theorem extract_eq {n : Nat} (w : Word) (lo : Nat) (v : BitVec n)
    (h : ∀ i, i < n → w.getLsbD (lo + i) = v.getLsbD i) : w.extractLsb' lo n = v := by
  apply BitVec.eq_of_getLsbD_eq
  intro i hi
  simpa [hi] using h i hi

@[simp] theorem tag_append (t : Tag) : tagCrn t ++ tagCrm t = t := by
  apply BitVec.eq_of_getLsbD_eq
  intro i hi
  simp only [tagCrn, tagCrm, BitVec.getLsbD_append, BitVec.getLsbD_extractLsb']
  interval_cases i <;> rfl

/-! ## Decoding by row -/

/-- A field inside a mask is not changed by the mask. -/
theorem extract_masked (w m : Word) (lo n : Nat) (h : ∀ i, i < n → m.getLsbD (lo + i) = true) :
    (w &&& m).extractLsb' lo n = w.extractLsb' lo n := by
  apply BitVec.eq_of_getLsbD_eq
  intro i hi
  simp [hi, h i hi]

/-- A bit inside a mask is not changed by the mask. -/
theorem bit_masked (w m : Word) (i : Nat) (h : m.getLsbD i = true) : (w &&& m).getLsbD i = w.getLsbD i := by simp [h]

/-- The mask of the MCRR rows holds all that class and validation look at. -/
theorem classOf_mcrr_mask (w : Word) : classOf (w &&& 0xEFF00FFF) = classOf w := by
  unfold classOf fieldCoproc
  rw [extract_masked w _ 8 4 (by decide), extract_masked w _ 29 3 (by decide), extract_masked w _ 26 2 (by decide),
    extract_masked w _ 24 4 (by decide), extract_masked w _ 21 7 (by decide), bit_masked w _ 4 (by decide),
    bit_masked w _ 20 (by decide)]

theorem classOf_tag_mask (w : Word) : classOf (w &&& 0xEFF00FF0) = classOf w := by
  unfold classOf fieldCoproc
  rw [extract_masked w _ 8 4 (by decide), extract_masked w _ 29 3 (by decide), extract_masked w _ 26 2 (by decide),
    extract_masked w _ 24 4 (by decide), extract_masked w _ 21 7 (by decide), bit_masked w _ 4 (by decide),
    bit_masked w _ 20 (by decide)]

theorem classOf_noTag_mask (w : Word) : classOf (w &&& 0xEFFF0FFF) = classOf w := by
  unfold classOf fieldCoproc
  rw [extract_masked w _ 8 4 (by decide), extract_masked w _ 29 3 (by decide), extract_masked w _ 26 2 (by decide),
    extract_masked w _ 24 4 (by decide), extract_masked w _ 21 7 (by decide), bit_masked w _ 4 (by decide),
    bit_masked w _ 20 (by decide)]

theorem classOf_cdp_mask (w : Word) : classOf (w &&& 0xEFFFFFFF) = classOf w := by
  unfold classOf fieldCoproc
  rw [extract_masked w _ 8 4 (by decide), extract_masked w _ 29 3 (by decide), extract_masked w _ 26 2 (by decide),
    extract_masked w _ 24 4 (by decide), extract_masked w _ 21 7 (by decide), bit_masked w _ 4 (by decide),
    bit_masked w _ 20 (by decide)]

theorem validWord_mcrr_mask (w : Word) : validWord .mcrr (w &&& 0xEFF00FFF) = validWord .mcrr w := by
  have h1 : fieldOpc1Mcrr (w &&& 0xEFF00FFF) = fieldOpc1Mcrr w := extract_masked w _ 4 4 (by decide)
  have h2 : (w &&& 0xEFF00FFF).extractLsb' 0 3 = w.extractLsb' 0 3 := extract_masked w _ 0 3 (by decide)
  have h3 : (w &&& 0xEFF00FFF).getLsbD 3 = w.getLsbD 3 := bit_masked w _ 3 (by decide)
  simp only [validWord, h1, h2, h3]

theorem validWord_noTag_mask (c : Cls) (h : c = .mcr ∨ c = .mrc) (w : Word) :
    validWord c (w &&& 0xEFFF0FFF) = validWord c w := by
  have h1 : fieldOpc1Mcr (w &&& 0xEFFF0FFF) = fieldOpc1Mcr w := extract_masked w _ 21 3 (by decide)
  have h2 : fieldCrn (w &&& 0xEFFF0FFF) = fieldCrn w := extract_masked w _ 16 4 (by decide)
  have h3 : fieldCrm (w &&& 0xEFFF0FFF) = fieldCrm w := extract_masked w _ 0 4 (by decide)
  have h4 : (w &&& 0xEFFF0FFF).getLsbD 5 = w.getLsbD 5 := bit_masked w _ 5 (by decide)
  rcases h with rfl | rfl <;> simp only [validWord, noTag, h1, h2, h3, h4]

/-- An instruction that may carry a tag is valid whatever the tag. -/
theorem validWord_tag_mask (c : Cls) (h : c = .mcr ∨ c = .mrc) (w : Word)
    (hv : validWord c (w &&& 0xEFF00FF0) = true)
    (ho : fieldOpc1Mcr (w &&& 0xEFF00FF0) = 0 ∨
      c = .mcr ∧ (fieldOpc1Mcr (w &&& 0xEFF00FF0) = 4 ∨ fieldOpc1Mcr (w &&& 0xEFF00FF0) = 5)) :
    validWord c w = true := by
  have h1 : fieldOpc1Mcr (w &&& 0xEFF00FF0) = fieldOpc1Mcr w := extract_masked w _ 21 3 (by decide)
  have h4 : (w &&& 0xEFF00FF0).getLsbD 5 = w.getLsbD 5 := bit_masked w _ 5 (by decide)
  rw [h1] at ho
  rcases h with rfl | rfl <;> simp only [validWord, h1, h4] at hv ⊢
  · rcases ho with ho | ⟨-, ho | ho⟩ <;> simp_all
  · rcases ho with ho | ⟨ho, -⟩
    · simp_all
    · cases ho

/-- The 20 rows differ in a bit that both masks hold. -/
theorem rows_differ : opcodeMap.Pairwise (fun a b => (a.pattern ^^^ b.pattern) &&& a.mask &&& b.mask ≠ 0) := by decide

theorem not_selects_both {a b : OpcodeRow} {w : Word} (h : (a.pattern ^^^ b.pattern) &&& a.mask &&& b.mask ≠ 0)
   (ha : a.selects w = true) (hb : b.selects w = true) : False := by
  simp only [OpcodeRow.selects, beq_iff_eq] at ha hb
  apply h
  rw [← ha, ← hb]
  ext i hi
  cases hw : w[i] <;> cases h1 : a.mask[i] <;> cases h2 : b.mask[i] <;> simp [hw, h1, h2]

theorem find_of_selects : ∀ {l : List OpcodeRow} {r : OpcodeRow} {w : Word},
    l.Pairwise (fun a b => (a.pattern ^^^ b.pattern) &&& a.mask &&& b.mask ≠ 0) → r ∈ l → r.selects w = true →
    l.find? (·.selects w) = some r
  | a :: l, r, w, hp, hr, hs => by
    rw [List.pairwise_cons] at hp
    rcases List.mem_cons.1 hr with rfl | hr
    · simp [hs]
    · have ha : a.selects w = false := by
        cases h : a.selects w
        · rfl
        · exact (not_selects_both (hp.1 r hr) h hs).elim
      rw [List.find?_cons, ha]
      exact find_of_selects hp.2 hr hs

/-- A row that selects a word is the row the decoder takes. -/
theorem lookupRow_of_selects {r : OpcodeRow} {w : Word} (hr : r ∈ opcodeMap) (hs : r.selects w = true) :
    lookupRow w = some (r.build w) := by
  rw [lookupRow, find_of_selects rows_differ hr hs]; rfl

theorem decodeWord_of_row {r : OpcodeRow} {w : Word} {c : Cls} (hr : r ∈ opcodeMap) (hs : w &&& r.mask = r.pattern)
    (hc : classOf w = .ok c) (hv : validWord c w = true) : decodeWord w = .ok (r.build w) := by
  simp [decodeWord, hc, hv, lookupRow_of_selects hr (by simpa [OpcodeRow.selects] using hs)]

theorem decodeWord_rowMcrr {w p : Word} {mk : Bool → Reg → Reg → Instr} (hr : rowMcrr p mk ∈ opcodeMap)
    (hm : w &&& 0xEFF00FFF = p) (hc : classOf p = .ok .mcrr) (hv : validWord .mcrr p = true) :
    decodeWord w = .ok (mk (fieldNd w) (fieldRt w) (fieldRt2 w)) :=
  decodeWord_of_row hr hm (by rw [← classOf_mcrr_mask, hm, hc]) (by rw [← validWord_mcrr_mask, hm, hv])

theorem decodeWord_rowNoTag {w p : Word} {c : Cls} {mk : Bool → Reg → Instr} (hr : rowNoTag p mk ∈ opcodeMap)
    (hm : w &&& 0xEFFF0FFF = p) (h : c = .mcr ∨ c = .mrc) (hc : classOf p = .ok c) (hv : validWord c p = true) :
    decodeWord w = .ok (mk (fieldNd w) (fieldRt w)) :=
  decodeWord_of_row hr hm (by rw [← classOf_noTag_mask, hm, hc]) (by rw [← validWord_noTag_mask c h, hm, hv])

theorem decodeWord_rowTag {w p : Word} {c : Cls} {mk : Bool → Reg → Tag → Instr} (hr : rowTag p mk ∈ opcodeMap)
    (hm : w &&& 0xEFF00FF0 = p) (h : c = .mcr ∨ c = .mrc) (hc : classOf p = .ok c) (hv : validWord c p = true)
    (ho : fieldOpc1Mcr p = 0 ∨ c = .mcr ∧ (fieldOpc1Mcr p = 4 ∨ fieldOpc1Mcr p = 5)) :
    decodeWord w = .ok (mk (fieldNd w) (fieldRt w) (fieldTag w)) :=
  decodeWord_of_row hr hm (by rw [← classOf_tag_mask, hm, hc]) (validWord_tag_mask c h w (by rw [hm, hv]) (by rw [hm]; exact ho))

/-- The class a row's pattern stands in, and whether the instruction it builds has legal register numbers. -/
def OpcodeRow.classed (r : OpcodeRow) (c : Cls) : Prop :=
  classOf r.pattern = .ok c ∧ (∀ w, classOf (w &&& r.mask) = classOf w) ∧
    ∀ w, (r.build w).wellFormed = classRegsOk c w

theorem rows_classed : ∀ r ∈ opcodeMap, ∃ c, r.classed c := by
  simp only [opcodeMap, rowsMcrr, rowsNoTag, rowsTag, List.cons_append, List.nil_append, List.mem_cons, List.not_mem_nil,
    or_false, forall_eq_or_imp, forall_eq]
  refine ⟨?_, ?_, ?_, ?_, ?_, ?_, ?_, ?_, ?_, ?_, ?_, ?_, ?_, ?_, ?_, ?_, ?_, ?_, ?_, ?_⟩
  all_goals first
    | exact ⟨.mcrr, by decide, classOf_mcrr_mask, fun _ => rfl⟩
    | exact ⟨.mcr, by decide, classOf_noTag_mask, fun _ => rfl⟩
    | exact ⟨.mrc, by decide, classOf_noTag_mask, fun _ => rfl⟩
    | exact ⟨.mcr, by decide, classOf_tag_mask, fun _ => rfl⟩
    | exact ⟨.mrc, by decide, classOf_tag_mask, fun _ => rfl⟩
    | exact ⟨.cdp, by decide, classOf_cdp_mask, fun _ => rfl⟩

/-- A word that decodes has legal register numbers as its class asks of it. -/
theorem wellFormed_of_decodeWord {w : Word} {c : Cls} {i : Instr} (hc : classOf w = .ok c) (hd : decodeWord w = .ok i) :
    i.wellFormed = classRegsOk c w := by
  unfold decodeWord at hd
  simp only [hc] at hd
  split at hd
  · cases hf : opcodeMap.find? (·.selects w) with
    | none => simp [lookupRow, hf] at hd
    | some r =>
      simp only [lookupRow, hf, Option.map_some, Except.ok.injEq] at hd
      obtain ⟨c', h1, h2, h3⟩ := rows_classed r (List.mem_of_find?_eq_some hf)
      have hs : w &&& r.mask = r.pattern := by simpa [OpcodeRow.selects] using List.find?_some hf
      have : classOf w = .ok c' := by rw [← h2, hs, h1]
      rw [hc] at this
      cases this
      rw [← hd, h3]
  · cases hd

/-! ## The fields of an encoded word -/

theorem encodeMcrrMrrc_masked (nd l : Bool) (rt2 rt : Reg) (opc1 crm : BitVec 4) :
    encodeMcrrMrrc nd l rt2 rt opc1 crm &&& 0xEFF00FFF
      = 0xEC400700 ||| place (BitVec.ofBool l) 20 ||| place opc1 4 ||| place crm 0 := by
  apply BitVec.eq_of_getElem_eq
  intro i hi
  simp only [encodeMcrrMrrc, BitVec.getElem_and, BitVec.getElem_or, place_getElem]
  interval_cases i <;> simp

theorem encodeMcrMrc_masked (nd l : Bool) (opc1 : BitVec 3) (crn : BitVec 4) (rt : Reg) (opc2 : BitVec 3) (crm : BitVec 4) :
    encodeMcrMrc nd l opc1 crn rt opc2 crm &&& 0xEFF00FF0
      = 0xEE000710 ||| place opc1 21 ||| place (BitVec.ofBool l) 20 ||| place opc2 5 := by
  apply BitVec.eq_of_getElem_eq
  intro i hi
  simp only [encodeMcrMrc, BitVec.getElem_and, BitVec.getElem_or, place_getElem]
  interval_cases i <;> simp

theorem encodeMcrMrc_masked_noTag (nd l : Bool) (opc1 : BitVec 3) (rt : Reg) (opc2 : BitVec 3) :
    encodeMcrMrc nd l opc1 0 rt opc2 0 &&& 0xEFFF0FFF
      = 0xEE000710 ||| place opc1 21 ||| place (BitVec.ofBool l) 20 ||| place opc2 5 := by
  apply BitVec.eq_of_getElem_eq
  intro i hi
  simp only [encodeMcrMrc, BitVec.getElem_and, BitVec.getElem_or, place_getElem]
  interval_cases i <;> simp

@[simp] theorem fieldNd_encodeMcrrMrrc (nd l : Bool) (rt2 rt : Reg) (opc1 crm : BitVec 4) :
    fieldNd (encodeMcrrMrrc nd l rt2 rt opc1 crm) = nd := by
  rw [fieldNd, BitVec.getLsbD_eq_getElem (by omega)]
  simp [encodeMcrrMrrc, BitVec.getElem_or, place_getElem]

@[simp] theorem fieldRt_encodeMcrrMrrc (nd l : Bool) (rt2 rt : Reg) (opc1 crm : BitVec 4) :
    fieldRt (encodeMcrrMrrc nd l rt2 rt opc1 crm) = rt := by
  rw [fieldRt, extract_eq _ 12 (regBits rt), regOf_regBits]
  intro i hi
  rw [BitVec.getLsbD_eq_getElem (by omega)]
  simp only [encodeMcrrMrrc, BitVec.getElem_or, place_getElem]
  interval_cases i <;> simp

@[simp] theorem fieldRt2_encodeMcrrMrrc (nd l : Bool) (rt2 rt : Reg) (opc1 crm : BitVec 4) :
    fieldRt2 (encodeMcrrMrrc nd l rt2 rt opc1 crm) = rt2 := by
  rw [fieldRt2, extract_eq _ 16 (regBits rt2), regOf_regBits]
  intro i hi
  rw [BitVec.getLsbD_eq_getElem (by omega)]
  simp only [encodeMcrrMrrc, BitVec.getElem_or, place_getElem]
  interval_cases i <;> simp

@[simp] theorem fieldNd_encodeMcrMrc (nd l : Bool) (opc1 : BitVec 3) (crn : BitVec 4) (rt : Reg) (opc2 : BitVec 3) (crm : BitVec 4) :
    fieldNd (encodeMcrMrc nd l opc1 crn rt opc2 crm) = nd := by
  rw [fieldNd, BitVec.getLsbD_eq_getElem (by omega)]
  simp [encodeMcrMrc, BitVec.getElem_or, place_getElem]

@[simp] theorem fieldRt_encodeMcrMrc (nd l : Bool) (opc1 : BitVec 3) (crn : BitVec 4) (rt : Reg) (opc2 : BitVec 3) (crm : BitVec 4) :
    fieldRt (encodeMcrMrc nd l opc1 crn rt opc2 crm) = rt := by
  rw [fieldRt, extract_eq _ 12 (regBits rt), regOf_regBits]
  intro i hi
  rw [BitVec.getLsbD_eq_getElem (by omega)]
  simp only [encodeMcrMrc, BitVec.getElem_or, place_getElem]
  interval_cases i <;> simp

@[simp] theorem fieldTag_encodeMcrMrc (nd l : Bool) (opc1 : BitVec 3) (t : Tag) (rt : Reg) (opc2 : BitVec 3) :
    fieldTag (encodeMcrMrc nd l opc1 (tagCrn t) rt opc2 (tagCrm t)) = t := by
  have h1 : fieldCrn (encodeMcrMrc nd l opc1 (tagCrn t) rt opc2 (tagCrm t)) = tagCrn t := by
    apply extract_eq
    intro i hi
    rw [BitVec.getLsbD_eq_getElem (by omega)]
    simp only [encodeMcrMrc, BitVec.getElem_or, place_getElem]
    interval_cases i <;> simp
  have h2 : fieldCrm (encodeMcrMrc nd l opc1 (tagCrn t) rt opc2 (tagCrm t)) = tagCrm t := by
    apply extract_eq
    intro i hi
    rw [BitVec.getLsbD_eq_getElem (by omega)]
    simp only [encodeMcrMrc, BitVec.getElem_or, place_getElem]
    interval_cases i <;> simp
  rw [fieldTag, h1, h2, tag_append]

end Sys2Proof
end

