-- ==== Sys2Proof/Laws/Exec.lean ====
section
/-! SUPPORT. Everything an instruction can answer next, said once for all twenty (`exec_cases`): a frame or an invariant
is a case analysis over it. -/

namespace Sys2Proof.Machine

@[simp] theorem State.withDelay_self (s : State) : s.withDelay s.active.rcp.prng s.active.rcp.delay = s :=
  State.setActive_active_self s
@[simp] theorem State.withDelay_active (s : State) (p : BitVec 24) (d : BitVec 7) :
    (s.withDelay p d).active = { s.active with rcp := { s.active.rcp with prng := p, delay := d } } := by
  simp [State.withDelay]
@[simp] theorem State.withDelay_core (s : State) (p : BitVec 24) (d : BitVec 7) :
    (s.withDelay p d).core s.turn = { s.active with rcp := { s.active.rcp with prng := p, delay := d } } := by
  simp [State.withDelay]
@[simp] theorem State.withDelay_core_other (s : State) (p : BitVec 24) (d : BitVec 7) :
    (s.withDelay p d).core s.turn.other = s.core s.turn.other := by simp [State.withDelay]
@[simp] theorem State.withDelay_turn (s : State) (p : BitVec 24) (d : BitVec 7) : (s.withDelay p d).turn = s.turn := by
  simp [State.withDelay]
@[simp] theorem State.withDelay_turns (s : State) (p : BitVec 24) (d : BitVec 7) : (s.withDelay p d).turns = s.turns := by
  simp [State.withDelay]
@[simp] theorem State.withDelay_draws (s : State) (p : BitVec 24) (d : BitVec 7) : (s.withDelay p d).draws = s.draws := by
  simp [State.withDelay]
@[simp] theorem State.withDelay_mem (s : State) (p : BitVec 24) (d : BitVec 7) : (s.withDelay p d).mem = s.mem := by
  simp [State.withDelay]
@[simp] theorem State.withDelay_reg (s : State) (p : BitVec 24) (d : BitVec 7) (r : Reg) :
    (s.withDelay p d).reg r = s.reg r := by simp [State.withDelay]

/-- A core as an instruction that completes leaves it: registers and flags as in `a`, the RCP as in `r`. -/
def State.withArmRcp (s : State) (a : ArmCore) (r : Rcp) : State := s.setActive { s.active with arm := a, rcp := r }

theorem finish_withArmRcp_core (s : State) (a : ArmCore) (r : Rcp) :
    (finish (s.withArmRcp a r)).core s.turn = { s.active with arm := { a with pc := a.pc + 4 }, rcp := r } := by
  have h := finish_core (s.withArmRcp a r)
  simpa [State.withArmRcp] using h
theorem finish_withArmRcp_core_other (s : State) (a : ArmCore) (r : Rcp) :
    (finish (s.withArmRcp a r)).core s.turn.other = s.core s.turn.other := by
  have h := finish_core_other (s.withArmRcp a r)
  simpa [State.withArmRcp] using h

/-- The registers and flags an instruction that completes may leave: as they were, or `v` in the destination of an
`mrc`, which is 0 in Non-secure state. -/
def ArmAfter (i : Instr) (s : State) (a : ArmCore) : Prop :=
  a = s.active.arm ∨ ∃ rt v, i.mrcDest = some rt ∧ a = s.active.arm.readInto rt v ∧
    (s.active.arm.security = .nonSecure → v = 0)

/-- The RCP an instruction that completes and writes no salt may leave. -/
def RcpAfter (i : Instr) (s : State) (r : Rcp) : Prop :=
  ∃ p d q, r = { s.active.rcp with prng := p, delay := d, seq := q } ∧ (i.isCount = false → q = s.active.rcp.seq) ∧
    (s.active.arm.security = .nonSecure → i.isRandomByte = false → p = s.active.rcp.prng)

/-- The six kinds of next state. -/
inductive ExecNext (i : Instr) (s : State) : State → Prop
  | stall (hf : s.active.rcp.fault = true) : ExecNext i s (stallForever s)
  | abandoned (t : State) (hf : s.active.rcp.fault = false) (hs : s.active.arm.security = .secure)
      (h : AbandonedFrom s t) : ExecNext i s t
  | faulted (c : RcpCause) (p : BitVec 24) (d : BitVec 7) (hf : s.active.rcp.fault = false)
      (hs : s.active.arm.security = .secure) : ExecNext i s (raiseRcpFault c (s.withDelay p d))
  | completed (a : ArmCore) (r : Rcp) (hf : s.active.rcp.fault = false) (ha : ArmAfter i s a) (hr : RcpAfter i s r) :
      ExecNext i s (finish (s.withArmRcp a r))
  | salt (k : CoreId) (v : BitVec 64) (p : BitVec 24) (d : BitVec 7) (hf : s.active.rcp.fault = false)
      (hs : s.active.arm.security = .secure) (ht : s.turn = .core0) (hk : i.saltTarget = some k)
      (hv : (s.core k).rcp.saltValid = false) :
      ExecNext i s (finish ((s.withDelay p d).setCore k
        { (s.withDelay p d).core k with rcp := ((s.withDelay p d).core k).rcp.writeSalt v }))
  | panic (p : BitVec 24) (d : BitVec 7) (hf : s.active.rcp.fault = false) (hs : s.active.arm.security = .secure)
      (hi : i.isPanic = true) : ExecNext i s (panicState (s.withDelay p d))

theorem withDelay_eq_withArmRcp (s : State) (p : BitVec 24) (d : BitVec 7) :
    s.withDelay p d = s.withArmRcp s.active.arm { s.active.rcp with prng := p, delay := d } := rfl

theorem ExecNext.noEffect {i : Instr} {s : State} (p : BitVec 24) (d : BitVec 7) (hf : s.active.rcp.fault = false)
    (hp : s.active.arm.security = .nonSecure → i.isRandomByte = false → p = s.active.rcp.prng) :
    ExecNext i s (finish (s.withDelay p d)) := by
  rw [withDelay_eq_withArmRcp]
  exact .completed _ _ hf (.inl rfl) ⟨p, d, _, rfl, fun _ => rfl, hp⟩

theorem ExecNext.reads {i : Instr} {s : State} {rt : Reg} (v : Word) (p : BitVec 24) (d : BitVec 7)
    (hf : s.active.rcp.fault = false) (hd : i.mrcDest = some rt) (hv : s.active.arm.security = .nonSecure → v = 0)
    (hp : s.active.arm.security = .nonSecure → i.isRandomByte = false → p = s.active.rcp.prng) :
    ExecNext i s (finish ((s.withDelay p d).readInto rt v)) := by
  have e : (s.withDelay p d).readInto rt v
      = s.withArmRcp (s.active.arm.readInto rt v) { s.active.rcp with prng := p, delay := d } := by
    simp [State.readInto, State.withArmRcp, State.withDelay, State.setRcp]
  rw [e]
  exact .completed _ _ hf (.inr ⟨rt, v, hd, rfl, hv⟩) ⟨p, d, _, rfl, fun _ => rfl, hp⟩

theorem ExecNext.counts {i : Instr} {s : State} (p : BitVec 24) (d : BitVec 7) (q : BitVec 8)
    (hf : s.active.rcp.fault = false) (hi : i.isCount = true)
    (hp : s.active.arm.security = .nonSecure → p = s.active.rcp.prng) :
    ExecNext i s (finish ((s.withDelay p d).setSeq q)) := by
  have e : (s.withDelay p d).setSeq q
      = s.withArmRcp s.active.arm { s.active.rcp with prng := p, delay := d, seq := q } := by
    simp [State.setSeq, State.withArmRcp, State.withDelay, State.setRcp]
  rw [e]
  exact .completed _ _ hf (.inl rfl) ⟨p, d, q, rfl, fun h => absurd hi (by simp [h]), fun h _ => hp h⟩

/-- The common sequence, for an instruction whose own rules are known to stay within the six kinds. -/
theorem rcpExecute_next {i : Instr} {q : Issue} {sb nb : State → Out} {s t : State}
    (h : rcpExecute q sb nb s = .next t)
    (hn : s.active.rcp.fault = false → s.active.arm.security = .nonSecure → nb (undelayed s) = .next t → ExecNext i s t)
    (hs : ∀ p d, s.active.rcp.fault = false → s.active.arm.security = .secure → q.portRefusal = none →
      sb (s.withDelay p d) = .next t → ExecNext i s t) : ExecNext i s t := by
  rcases rcpExecute_cases h with ⟨hf, rfl⟩ | ⟨hf, hns, hb⟩ | ⟨hf, hsec, hp, rfl | ha | ⟨p, d, hb⟩⟩
  · exact .stall hf
  · exact hn hf hns hb
  · have := ExecNext.faulted (i := i) .saltInvalid s.active.rcp.prng s.active.rcp.delay hf hsec
    simpa using this
  · exact .abandoned _ hf hsec ha
  · exact hs p d hf hsec hp hb

theorem assertThen_next {i : Instr} {s t : State} {p : BitVec 24} {d : BitVec 7} {cond : Bool} {c : RcpCause}
    (hf : s.active.rcp.fault = false) (hs : s.active.arm.security = .secure)
    (h : assertThen cond c (s.withDelay p d) = .next t) : ExecNext i s t := by
  unfold assertThen at h
  split at h <;> cases h
  · exact .noEffect p d hf (by simp [hs])
  · exact .faulted c p d hf hs

theorem noEffect_next {i : Instr} {s t : State} (hf : s.active.rcp.fault = false)
    (h : noEffect (undelayed s) = .next t) : ExecNext i s t := by
  cases h; rw [undelayed_withDelay]; exact .noEffect _ _ hf (fun _ _ => rfl)

theorem maskedRead_next {i : Instr} {s t : State} {rt : Reg} (hf : s.active.rcp.fault = false)
    (hd : i.mrcDest = some rt) (h : maskedRead rt (undelayed s) = .next t) : ExecNext i s t := by
  cases h; rw [undelayed_withDelay]; exact .reads 0 _ _ hf hd (fun _ => rfl) (fun _ _ => rfl)

theorem assertMcr_next {i : Instr} {nd : Bool} {rt : Reg} {c : RcpCause} {cond : Word → Bool} {s t : State}
    (h : assertMcr nd rt c cond s = .next t) : ExecNext i s t :=
  rcpExecute_next h (fun hf _ hb => noEffect_next hf hb) (fun _ _ hf hs _ hb => assertThen_next hf hs hb)

theorem assertMcrr_next {i : Instr} {nd : Bool} {rt rt2 : Reg} {c : RcpCause} {cond : Word → Word → Bool} {s t : State}
    (h : assertMcrr nd rt rt2 c cond s = .next t) : ExecNext i s t :=
  rcpExecute_next h (fun hf _ hb => noEffect_next hf hb) (fun _ _ hf hs _ hb => assertThen_next hf hs hb)

theorem saltWrite_next {i : Instr} {k : CoreId} {nd : Bool} {rt rt2 : Reg} {s t : State} (hk : i.saltTarget = some k)
    (h : saltWrite k nd rt rt2 s = .next t) : ExecNext i s t := by
  refine rcpExecute_next h (fun _ _ hb => by cases hb) (fun p d hf hs hp hb => ?_)
  have ht : s.turn = .core0 := by
    by_contra hne; simp [hne] at hp
  unfold writeSaltThen at hb
  split at hb <;> cases hb
  · exact .faulted _ p d hf hs
  · rename_i hv
    refine .salt k _ p d hf hs ht hk ?_
    rcases CoreId.eq_or_other k s.turn with rfl | rfl
    · simpa [State.active] using hv
    · simpa using hv

theorem setSeqMasked_next {i : Instr} {v : State → BitVec 8} {s t : State} (hf : s.active.rcp.fault = false)
    (hi : i.isCount = true) (h : setSeqMasked v (undelayed s) = .next t) : ExecNext i s t := by
  unfold setSeqMasked at h
  split at h
  · cases h; rw [undelayed_withDelay]; exact .counts _ _ _ hf hi (fun _ => rfl)
  · exact noEffect_next hf h

/-- Everything an instruction can answer next. -/
theorem exec_cases {i : Instr} {s t : State} (h : exec i s = .next t) : ExecNext i s t := by
  cases i with
  | rcpSaltCore0 nd rt rt2 => exact saltWrite_next rfl h
  | rcpSaltCore1 nd rt rt2 => exact saltWrite_next rfl h
  | rcpCanaryStatus nd rt =>
    refine rcpExecute_next h (fun hf _ hb => maskedRead_next hf rfl hb) (fun p d hf hs _ hb => ?_)
    cases hb; exact .reads _ p d hf rfl (by simp [hs]) (by simp [hs])
  | rcpCanaryGet nd rt tag =>
    refine rcpExecute_next h (fun hf _ hb => maskedRead_next hf rfl hb) (fun p d hf hs _ hb => ?_)
    cases hb; exact .reads _ p d hf rfl (by simp [hs]) (by simp [hs])
  | rcpCanaryCheck nd rt tag =>
    exact rcpExecute_next h (fun hf _ hb => noEffect_next hf hb) (fun _ _ hf hs _ hb => assertThen_next hf hs hb)
  | rcpBvalid nd rt => simp only [exec, execRcpBvalid] at h; exact assertMcr_next h
  | rcpBtrue nd rt => simp only [exec, execRcpBtrue] at h; exact assertMcr_next h
  | rcpBfalse nd rt => simp only [exec, execRcpBfalse] at h; exact assertMcr_next h
  | rcpB2valid nd rt rt2 => simp only [exec, execRcpB2valid] at h; exact assertMcrr_next h
  | rcpB2and nd rt rt2 => simp only [exec, execRcpB2and] at h; exact assertMcrr_next h
  | rcpB2or nd rt rt2 => simp only [exec, execRcpB2or] at h; exact assertMcrr_next h
  | rcpBxorvalid nd rt rt2 => simp only [exec, execRcpBxorvalid] at h; exact assertMcrr_next h
  | rcpBxortrue nd rt rt2 => simp only [exec, execRcpBxortrue] at h; exact assertMcrr_next h
  | rcpBxorfalse nd rt rt2 => simp only [exec, execRcpBxorfalse] at h; exact assertMcrr_next h
  | rcpIvalid nd rt rt2 => simp only [exec, execRcpIvalid] at h; exact assertMcrr_next h
  | rcpIequal nd rt rt2 => simp only [exec, execRcpIequal] at h; exact assertMcrr_next h
  | rcpRandomByte nd rt =>
    have e : ∀ p d, (s.withDelay p d).advanceGenerator = s.withDelay (s.withDelay p d).randomGeneration.state d := by
      intro p d
      simp [State.advanceGenerator, State.withDelay, State.setRcp]
    refine rcpExecute_next h (fun hf hn hb => ?_) (fun p d hf hs _ hb => ?_)
    · unfold randomByteMasked at hb
      split at hb
      · cases hb
        rw [undelayed_withDelay, e]
        exact .reads 0 _ _ hf rfl (fun _ => rfl) (fun _ hi => by cases hi)
      · exact maskedRead_next hf rfl hb
    · cases hb
      rw [e]
      exact .reads _ _ d hf rfl (by simp [hs]) (by simp [hs])
  | rcpCountSet nd rt tag =>
    refine rcpExecute_next h (fun hf _ hb => setSeqMasked_next hf rfl hb) (fun p d hf hs _ hb => ?_)
    cases hb; exact .counts p d tag hf rfl (by simp [hs])
  | rcpCountCheck nd rt tag =>
    refine rcpExecute_next h (fun hf _ hb => setSeqMasked_next hf rfl hb) (fun p d hf hs _ hb => ?_)
    unfold countCheckThen at hb
    split at hb <;> cases hb
    · exact .counts p d _ hf rfl (by simp [hs])
    · exact .faulted _ p d hf hs
  | rcpPanic nd =>
    simp only [exec, execRcpPanic] at h
    refine rcpExecute_next h (fun _ _ hb => by cases hb) (fun p d hf hs _ hb => ?_)
    cases hb; exact .panic p d hf hs rfl

/-! ## What the six kinds leave on each core -/

theorem raiseRcpFault_withDelay_core (c : RcpCause) (s : State) (p : BitVec 24) (d : BitVec 7) :
    (raiseRcpFault c (s.withDelay p d)).core s.turn =
      ({ s.active with rcp := { s.active.rcp with prng := p, delay := d } } : CoreState).trigger c := by
  have h := raiseRcpFault_core c (s.withDelay p d)
  simpa using h
theorem raiseRcpFault_withDelay_core_other (c : RcpCause) (s : State) (p : BitVec 24) (d : BitVec 7) :
    (raiseRcpFault c (s.withDelay p d)).core s.turn.other = (s.core s.turn.other).trigger .crossCore := by
  have h := raiseRcpFault_core_other c (s.withDelay p d)
  simpa using h

theorem panicState_core (s : State) : (panicState s).core s.turn = { s.active with run := .stalled } := by
  have h := stallForever_core s.crossTrigger
  simp only [State.active_def, State.crossTrigger_turn, State.crossTrigger_core] at h
  simpa [panicState, State.active_def] using h
theorem panicState_core_other (s : State) :
    (panicState s).core s.turn.other = (s.core s.turn.other).trigger .crossCore := by
  have h := stallForever_core_other s.crossTrigger
  simp only [State.crossTrigger_turn, State.crossTrigger_core_other] at h
  simpa [panicState] using h
theorem panicState_withDelay_core (s : State) (p : BitVec 24) (d : BitVec 7) :
    (panicState (s.withDelay p d)).core s.turn =
      { s.active with run := .stalled, rcp := { s.active.rcp with prng := p, delay := d } } := by
  have h := panicState_core (s.withDelay p d)
  simpa using h
theorem panicState_withDelay_core_other (s : State) (p : BitVec 24) (d : BitVec 7) :
    (panicState (s.withDelay p d)).core s.turn.other = (s.core s.turn.other).trigger .crossCore := by
  have h := panicState_core_other (s.withDelay p d)
  simpa using h

/-- The acting core after a salt write of core `k`. -/
theorem saltState_core (s : State) (k : CoreId) (v : BitVec 64) (p : BitVec 24) (d : BitVec 7) :
    (finish ((s.withDelay p d).setCore k
      { (s.withDelay p d).core k with rcp := ((s.withDelay p d).core k).rcp.writeSalt v })).core s.turn =
      { s.active with
        arm := { s.active.arm with pc := s.active.arm.pc + 4 }
        rcp := if k = s.turn then ({ s.active.rcp with prng := p, delay := d } : Rcp).writeSalt v
          else { s.active.rcp with prng := p, delay := d } } := by
  have h := finish_core ((s.withDelay p d).setCore k
    { (s.withDelay p d).core k with rcp := ((s.withDelay p d).core k).rcp.writeSalt v })
  simp only [State.setCore_turn, State.withDelay_turn] at h
  rw [h]
  rcases CoreId.eq_or_other k s.turn with rfl | rfl <;> simp [State.active_def]

/-- The other core after a salt write of core `k`. -/
theorem saltState_core_other (s : State) (k : CoreId) (v : BitVec 64) (p : BitVec 24) (d : BitVec 7) :
    (finish ((s.withDelay p d).setCore k
      { (s.withDelay p d).core k with rcp := ((s.withDelay p d).core k).rcp.writeSalt v })).core s.turn.other =
      { s.core s.turn.other with
        rcp := if k = s.turn then (s.core s.turn.other).rcp else (s.core s.turn.other).rcp.writeSalt v } := by
  have h := finish_core_other ((s.withDelay p d).setCore k
    { (s.withDelay p d).core k with rcp := ((s.withDelay p d).core k).rcp.writeSalt v })
  simp only [State.setCore_turn, State.withDelay_turn] at h
  rw [h]
  rcases CoreId.eq_or_other k s.turn with rfl | rfl <;> simp

/-- Everything an instruction can leave of the core that is not acting. -/
theorem exec_other {i : Instr} {s t : State} (h : exec i s = .next t) :
    t.core s.turn.other = s.core s.turn.other ∨
    (t.core s.turn.other = (s.core s.turn.other).trigger .crossCore ∧ s.active.rcp.fault = false ∧
      s.active.arm.security = .secure ∧ (t.fault s.turn = true ∨ (t.core s.turn).run = .stalled)) ∨
    (s.turn = .core0 ∧ i.saltTarget = some .core1 ∧ (s.core s.turn.other).rcp.saltValid = false ∧
      s.active.arm.security = .secure ∧
      ∃ v, t.core s.turn.other =
        { s.core s.turn.other with rcp := (s.core s.turn.other).rcp.writeSalt v }) := by
  rcases exec_cases h with hf | ⟨_, hf, hs, ⟨p, d, rfl⟩⟩ | ⟨c, p, d, hf, hs⟩ | ⟨a, r, hf, ha, hr⟩ |
    ⟨k, v, p, d, hf, hs, ht, hk, hv⟩ | ⟨p, d, hf, hs, hi⟩
  · exact .inl (by simp)
  · exact .inl ((State.withDraws_core ..).trans (by simp))
  · exact .inr (.inl ⟨raiseRcpFault_withDelay_core_other .., hf, hs,
      .inl (by simp [State.fault, raiseRcpFault_withDelay_core])⟩)
  · exact .inl (finish_withArmRcp_core_other ..)
  · rcases CoreId.eq_or_other k s.turn with rfl | rfl
    · exact .inl (by rw [saltState_core_other]; simp)
    · refine .inr (.inr ⟨ht, by rw [hk, ht]; rfl, hv, hs, v, ?_⟩)
      rw [saltState_core_other]; simp
  · exact .inr (.inl ⟨panicState_withDelay_core_other .., hf, hs, .inr (by simp [panicState_withDelay_core])⟩)

/-- Everything an instruction can leave of the acting core. -/
theorem exec_acting {i : Instr} {s t : State} (h : exec i s = .next t) :
    (s.active.rcp.fault = true ∧ t.core s.turn = { s.active with run := .stalled }) ∨
    (s.active.rcp.fault = false ∧ s.active.arm.security = .secure ∧ ∃ p d,
      t.core s.turn = { s.active with rcp := { s.active.rcp with prng := p, delay := d } }) ∨
    (s.active.rcp.fault = false ∧ s.active.arm.security = .secure ∧ ∃ c p d,
      t = raiseRcpFault c (s.withDelay p d)) ∨
    (s.active.rcp.fault = false ∧ ∃ a r, ArmAfter i s a ∧ RcpAfter i s r ∧
      t.core s.turn = { s.active with arm := { a with pc := a.pc + 4 }, rcp := r }) ∨
    (s.active.rcp.fault = false ∧ s.active.arm.security = .secure ∧ s.turn = .core0 ∧
      ∃ k v p d, i.saltTarget = some k ∧ (s.core k).rcp.saltValid = false ∧
        t.core s.turn = { s.active with
          arm := { s.active.arm with pc := s.active.arm.pc + 4 }
          rcp := if k = s.turn then ({ s.active.rcp with prng := p, delay := d } : Rcp).writeSalt v
            else { s.active.rcp with prng := p, delay := d } }) ∨
    (s.active.rcp.fault = false ∧ s.active.arm.security = .secure ∧ i.isPanic = true ∧ ∃ p d,
      t.core s.turn = { s.active with run := .stalled, rcp := { s.active.rcp with prng := p, delay := d } }) := by
  rcases exec_cases h with hf | ⟨_, hf, hs, ⟨p, d, rfl⟩⟩ | ⟨c, p, d, hf, hs⟩ | ⟨a, r, hf, ha, hr⟩ |
    ⟨k, v, p, d, hf, hs, ht, hk, hv⟩ | ⟨p, d, hf, hs, hi⟩
  · exact .inl ⟨hf, by simp⟩
  · exact .inr (.inl ⟨hf, hs, p, d, (State.withDraws_core ..).trans (by simp)⟩)
  · exact .inr (.inr (.inl ⟨hf, hs, c, p, d, rfl⟩))
  · exact .inr (.inr (.inr (.inl ⟨hf, a, r, ha, hr, finish_withArmRcp_core ..⟩)))
  · exact .inr (.inr (.inr (.inr (.inl ⟨hf, hs, ht, k, v, p, d, hk, hv, saltState_core ..⟩))))
  · exact .inr (.inr (.inr (.inr (.inr ⟨hf, hs, hi, p, d, panicState_withDelay_core ..⟩))))

end Sys2Proof.Machine
end

