-- ==== Sys2Proof/Laws/Memory.lean ====
section
/-! SUPPORT. The laws of the program text: a byte reads back after a write, other bytes do not change, every operation
keeps the canonical form, and a loaded word is the word the fetch reads. -/

namespace Sys2Proof.Machine

@[simp] theorem readByte_writeByte_same (m : List Host.Cell) (a : Nat) (x : Byte) :
    readByte (writeByte m a x) a = some x := by
  induction m with
  | nil => simp [writeByte, readByte]
  | cons c rest ih =>
    obtain ⟨b, v⟩ := c
    simp only [writeByte]
    split
    · simp [readByte]
    · split
      · simp [readByte]
      · rename_i h1 h2; simp [readByte, h1, h2, ih]

theorem readByte_writeByte_ne (m : List Host.Cell) {a c : Nat} (x : Byte) (h : c ≠ a) :
    readByte (writeByte m a x) c = readByte m c := by
  induction m with
  | nil => simp [writeByte, readByte, h]
  | cons d rest ih =>
    obtain ⟨b, v⟩ := d
    simp only [writeByte]
    split
    · rename_i hab
      simp only [readByte, h, if_false]
      split
      · rw [if_neg (by omega), if_pos (by omega)]
      · rfl
    · split
      · rename_i hab; subst hab; simp [readByte, h]
      · simp only [readByte, ih]

theorem Memory.wfFrom_mono {lo lo' : Nat} (h : lo' ≤ lo) :
    ∀ m : List Host.Cell, Memory.wfFrom lo m = true → Memory.wfFrom lo' m = true
  | [], _ => rfl
  | (b, v) :: rest, hm => by
    simp only [Memory.wfFrom, Bool.and_eq_true, decide_eq_true_eq] at hm ⊢
    exact ⟨⟨Nat.le_trans h hm.1.1, hm.1.2⟩, hm.2⟩

theorem Memory.wfFrom_writeByte {a : Nat} (ha : a < 2 ^ 32) (x : Byte) :
    ∀ (m : List Host.Cell) (lo : Nat), lo ≤ a → Memory.wfFrom lo m = true → Memory.wfFrom lo (writeByte m a x) = true
  | [], lo, hlo, _ => by simp [writeByte, Memory.wfFrom, hlo]; omega
  | (b, v) :: rest, lo, hlo, hm => by
    simp only [Memory.wfFrom, Bool.and_eq_true, decide_eq_true_eq] at hm
    simp only [writeByte]
    split
    · simp only [Memory.wfFrom, Bool.and_eq_true, decide_eq_true_eq]
      exact ⟨⟨hlo, ha⟩, ⟨by omega, hm.1.2⟩, hm.2⟩
    · split
      · rename_i h; subst h
        simp only [Memory.wfFrom, Bool.and_eq_true, decide_eq_true_eq]
        exact ⟨⟨hlo, ha⟩, hm.2⟩
      · simp only [Memory.wfFrom, Bool.and_eq_true, decide_eq_true_eq]
        exact ⟨hm.1, Memory.wfFrom_writeByte ha x rest (b + 1) (by omega) hm.2⟩

/-- A write keeps the canonical form. -/
theorem Memory.wf_writeByte {m : List Host.Cell} {a : Nat} (x : Byte) (ha : a < 2 ^ 32) (h : Memory.wf m = true) :
    Memory.wf (writeByte m a x) = true :=
  Memory.wfFrom_writeByte ha x m 0 (Nat.zero_le _) h

/-- Loading bytes keeps the canonical form. -/
theorem Memory.wf_loadBytes : ∀ (bs : List Byte) {m : List Host.Cell} (a : Word), Memory.wf m = true →
    Memory.wf (loadBytes m a bs) = true
  | [], _, _, h => h
  | b :: rest, _, a, h => Memory.wf_loadBytes rest (a + 1) (Memory.wf_writeByte b a.isLt h)

/-- Loading a word keeps the canonical form. -/
theorem Memory.wf_loadWord {m : List Host.Cell} (a w : Word) (h : Memory.wf m = true) :
    Memory.wf (loadWord m a w) = true := Memory.wf_loadBytes _ a h

/-- A word is made of its own bytes. -/
@[simp] theorem wordOfBytes_bytesOfWord (w : Word) :
    wordOfBytes (w.extractLsb' 16 8) (w.extractLsb' 24 8) (w.extractLsb' 0 8) (w.extractLsb' 8 8) = w := by
  apply BitVec.eq_of_getLsbD_eq
  intro i hi
  simp only [wordOfBytes, BitVec.getLsbD_append, BitVec.getLsbD_extractLsb']
  interval_cases i <;> rfl

theorem word_add_ne (a : Word) (i j : Nat) (hi : i < 4) (hj : j < 4) (h : i ≠ j) :
    (a + BitVec.ofNat 32 i).toNat ≠ (a + BitVec.ofNat 32 j).toNat := by
  simp only [BitVec.toNat_add, BitVec.toNat_ofNat]
  have := a.isLt
  omega

/-- The word that was loaded is the word the fetch reads. -/
@[simp] theorem readWord_loadWord (m : List Host.Cell) (a w : Word) : readWord (loadWord m a w) a = some w := by
  have e0 : a + BitVec.ofNat 32 0 = a := by simp
  have n01 : a.toNat ≠ (a + 1).toNat := by simpa [e0] using word_add_ne a 0 1 (by decide) (by decide) (by decide)
  have n02 : a.toNat ≠ (a + 2).toNat := by simpa [e0] using word_add_ne a 0 2 (by decide) (by decide) (by decide)
  have n03 : a.toNat ≠ (a + 3).toNat := by simpa [e0] using word_add_ne a 0 3 (by decide) (by decide) (by decide)
  have n12 : (a + 1).toNat ≠ (a + 2).toNat := word_add_ne a 1 2 (by decide) (by decide) (by decide)
  have n13 : (a + 1).toNat ≠ (a + 3).toNat := word_add_ne a 1 3 (by decide) (by decide) (by decide)
  have n23 : (a + 2).toNat ≠ (a + 3).toNat := word_add_ne a 2 3 (by decide) (by decide) (by decide)
  have e2 : a + 1 + 1 = a + 2 := by rw [BitVec.add_assoc]; rfl
  have e3 : a + 2 + 1 = a + 3 := by rw [BitVec.add_assoc]; rfl
  unfold readWord loadWord bytesOfWord
  simp only [loadBytes, e2, e3]
  rw [readByte_writeByte_ne _ _ n03, readByte_writeByte_ne _ _ n02, readByte_writeByte_ne _ _ n01,
    readByte_writeByte_same, readByte_writeByte_ne _ _ n13, readByte_writeByte_ne _ _ n12, readByte_writeByte_same,
    readByte_writeByte_ne _ _ n23, readByte_writeByte_same, readByte_writeByte_same]
  simp only [wordOfBytes_bytesOfWord]

/-- Loading bytes leaves every address outside them alone. -/
theorem readByte_loadBytes_outside : ∀ (bs : List Byte) (m : List Host.Cell) (a : Word) (c : Nat),
    (∀ i, i < bs.length → c ≠ (a + BitVec.ofNat 32 i).toNat) → readByte (loadBytes m a bs) c = readByte m c
  | [], _, _, _, _ => rfl
  | b :: rest, m, a, c, h => by
    rw [loadBytes, readByte_loadBytes_outside rest]
    · exact readByte_writeByte_ne m b (by simpa using h 0 (by simp))
    · intro i hi
      have := h (i + 1) (by simpa using hi)
      rwa [BitVec.add_assoc, show (1 : Word) + BitVec.ofNat 32 i = BitVec.ofNat 32 (i + 1) by
        rw [BitVec.add_comm, BitVec.ofNat_add]; rfl]

@[simp] theorem withFetchWord_core (s : State) (n w : Nat) (k : CoreId) : (s.withFetchWord n w).core k = s.core k := by
  cases k <;> rfl
@[simp] theorem withFetchWord_active (s : State) (n w : Nat) : (s.withFetchWord n w).active = s.active := by
  simp only [State.active, withFetchWord_core]; rfl
@[simp] theorem withFetchWord_mem (s : State) (n w : Nat) :
    (s.withFetchWord n w).mem = loadWord s.mem s.active.arm.pc (tableWord n w) := rfl

end Sys2Proof.Machine
end

