-- ==== Sys2Proof/Laws/PerInstr.lean ====
section
/-! SUPPORT. The family `EncodedWord`, made per instruction: the encoder's word of a listed instruction belongs to one of
the five classes and passes the validation of its class, whatever its operands. -/

namespace Sys2Proof.Laws.EncodedWord

/-- The encoded word has a class and is valid in it. -/
def Statement (i : Instr) : Prop := ∃ c, classOf (encode i) = .ok c ∧ validWord c (encode i) = true

theorem of_mcrr {w p : Word} (hm : w &&& 0xEFF00FFF = p) (hc : classOf p = .ok .mcrr) (hv : validWord .mcrr p = true) :
    ∃ c, classOf w = .ok c ∧ validWord c w = true :=
  ⟨.mcrr, by rw [← classOf_mcrr_mask, hm, hc], by rw [← validWord_mcrr_mask, hm, hv]⟩

theorem of_noTag {w p : Word} (c : Cls) (hm : w &&& 0xEFFF0FFF = p) (h : c = .mcr ∨ c = .mrc) (hc : classOf p = .ok c)
    (hv : validWord c p = true) : ∃ c, classOf w = .ok c ∧ validWord c w = true :=
  ⟨c, by rw [← classOf_noTag_mask, hm, hc], by rw [← validWord_noTag_mask c h, hm, hv]⟩

theorem of_tag {w p : Word} (c : Cls) (hm : w &&& 0xEFF00FF0 = p) (h : c = .mcr ∨ c = .mrc) (hc : classOf p = .ok c)
    (hv : validWord c p = true)
    (ho : fieldOpc1Mcr p = 0 ∨ c = .mcr ∧ (fieldOpc1Mcr p = 4 ∨ fieldOpc1Mcr p = 5)) :
    ∃ c, classOf w = .ok c ∧ validWord c w = true :=
  ⟨c, by rw [← classOf_tag_mask, hm, hc], validWord_tag_mask c h w (by rw [hm, hv]) (by rw [hm]; exact ho)⟩

theorem rcpSaltCore0 (nd : Bool) (rt rt2 : Reg) : Statement (.rcpSaltCore0 nd rt rt2) :=
  of_mcrr (p := 0xEC400780) ((encodeMcrrMrrc_masked ..).trans (by decide)) (by decide) (by decide)
theorem rcpSaltCore1 (nd : Bool) (rt rt2 : Reg) : Statement (.rcpSaltCore1 nd rt rt2) :=
  of_mcrr (p := 0xEC400781) ((encodeMcrrMrrc_masked ..).trans (by decide)) (by decide) (by decide)
theorem rcpCanaryStatus (nd : Bool) (rt : Reg) : Statement (.rcpCanaryStatus nd rt) :=
  of_noTag (p := 0xEE300710) .mrc ((encodeMcrMrc_masked_noTag ..).trans (by decide)) (by decide) (by decide) (by decide)
theorem rcpCanaryGet (nd : Bool) (rt : Reg) (tag : Tag) : Statement (.rcpCanaryGet nd rt tag) :=
  of_tag (p := 0xEE100730) .mrc ((encodeMcrMrc_masked ..).trans (by decide)) (by decide) (by decide) (by decide) (by decide)
theorem rcpCanaryCheck (nd : Bool) (rt : Reg) (tag : Tag) : Statement (.rcpCanaryCheck nd rt tag) :=
  of_tag (p := 0xEE000730) .mcr ((encodeMcrMrc_masked ..).trans (by decide)) (by decide) (by decide) (by decide) (by decide)
theorem rcpBvalid (nd : Bool) (rt : Reg) : Statement (.rcpBvalid nd rt) :=
  of_noTag (p := 0xEE200710) .mcr ((encodeMcrMrc_masked_noTag ..).trans (by decide)) (by decide) (by decide) (by decide)
theorem rcpBtrue (nd : Bool) (rt : Reg) : Statement (.rcpBtrue nd rt) :=
  of_noTag (p := 0xEE400710) .mcr ((encodeMcrMrc_masked_noTag ..).trans (by decide)) (by decide) (by decide) (by decide)
theorem rcpBfalse (nd : Bool) (rt : Reg) : Statement (.rcpBfalse nd rt) :=
  of_noTag (p := 0xEE600730) .mcr ((encodeMcrMrc_masked_noTag ..).trans (by decide)) (by decide) (by decide) (by decide)
theorem rcpB2valid (nd : Bool) (rt rt2 : Reg) : Statement (.rcpB2valid nd rt rt2) :=
  of_mcrr (p := 0xEC400708) ((encodeMcrrMrrc_masked ..).trans (by decide)) (by decide) (by decide)
theorem rcpB2and (nd : Bool) (rt rt2 : Reg) : Statement (.rcpB2and nd rt rt2) :=
  of_mcrr (p := 0xEC400710) ((encodeMcrrMrrc_masked ..).trans (by decide)) (by decide) (by decide)
theorem rcpB2or (nd : Bool) (rt rt2 : Reg) : Statement (.rcpB2or nd rt rt2) :=
  of_mcrr (p := 0xEC400720) ((encodeMcrrMrrc_masked ..).trans (by decide)) (by decide) (by decide)
theorem rcpBxorvalid (nd : Bool) (rt rt2 : Reg) : Statement (.rcpBxorvalid nd rt rt2) :=
  of_mcrr (p := 0xEC400738) ((encodeMcrrMrrc_masked ..).trans (by decide)) (by decide) (by decide)
theorem rcpBxortrue (nd : Bool) (rt rt2 : Reg) : Statement (.rcpBxortrue nd rt rt2) :=
  of_mcrr (p := 0xEC400740) ((encodeMcrrMrrc_masked ..).trans (by decide)) (by decide) (by decide)
theorem rcpBxorfalse (nd : Bool) (rt rt2 : Reg) : Statement (.rcpBxorfalse nd rt rt2) :=
  of_mcrr (p := 0xEC400758) ((encodeMcrrMrrc_masked ..).trans (by decide)) (by decide) (by decide)
theorem rcpIvalid (nd : Bool) (rt rt2 : Reg) : Statement (.rcpIvalid nd rt rt2) :=
  of_mcrr (p := 0xEC400768) ((encodeMcrrMrrc_masked ..).trans (by decide)) (by decide) (by decide)
theorem rcpIequal (nd : Bool) (rt rt2 : Reg) : Statement (.rcpIequal nd rt rt2) :=
  of_mcrr (p := 0xEC400770) ((encodeMcrrMrrc_masked ..).trans (by decide)) (by decide) (by decide)
theorem rcpRandomByte (nd : Bool) (rt : Reg) : Statement (.rcpRandomByte nd rt) :=
  of_noTag (p := 0xEE500710) .mrc ((encodeMcrMrc_masked_noTag ..).trans (by decide)) (by decide) (by decide) (by decide)
theorem rcpCountSet (nd : Bool) (rt : Reg) (tag : Tag) : Statement (.rcpCountSet nd rt tag) :=
  of_tag (p := 0xEE800710) .mcr ((encodeMcrMrc_masked ..).trans (by decide)) (by decide) (by decide) (by decide) (by decide)
theorem rcpCountCheck (nd : Bool) (rt : Reg) (tag : Tag) : Statement (.rcpCountCheck nd rt tag) :=
  of_tag (p := 0xEEA00730) .mcr ((encodeMcrMrc_masked ..).trans (by decide)) (by decide) (by decide) (by decide) (by decide)
theorem rcpPanic (nd : Bool) : Statement (.rcpPanic nd) := ⟨.cdp, by cases nd <;> decide, by cases nd <;> decide⟩

end Sys2Proof.Laws.EncodedWord
end

