-- ==== Sys2Proof/Laws/Step.lean ====
section
/-! SUPPORT. What a step does around exec: decoding of the bytes of a word, the fetch, the turn. -/

namespace Sys2Proof

/-- The bytes of a word decode as the word does. -/
theorem decodeBytes_bytesOfWord (w : Word) (rest : List Byte) :
    decodeBytes (bytesOfWord w ++ rest) =
      (match decodeWord w with
       | .ok i => .ok (i, rest)
       | .error e => .error e) := by
  show (match decodeWord (wordOfBytes _ _ _ _) with | .ok i => _ | .error e => _) = _
  rw [Machine.wordOfBytes_bytesOfWord]
  rfl

theorem decodeBytes_bytesOfWord_nil (w : Word) :
    decodeBytes (bytesOfWord w) =
      (match decodeWord w with
       | .ok i => .ok (i, [])
       | .error e => .error e) := by
  simpa using decodeBytes_bytesOfWord w []

namespace Machine

theorem executeWord_of_ok (ex : Instr → State → Out) {w : Word} {i : Instr} (s : State) (h : decodeWord w = .ok i) :
    executeWord ex w s = ex i s := by
  simp only [executeWord, decodeBytes_bytesOfWord_nil, h]

theorem executeWord_of_error (ex : Instr → State → Out) {w : Word} {e : DecodeError} (s : State)
    (h : decodeWord w = .error e) : executeWord ex w s = executeReject e w s := by
  simp only [executeWord, decodeBytes_bytesOfWord_nil, h]

/-- The turn goes to the head of the interleaving, if it has one. -/
theorem State.endTurn_eq (s : State) : s.endTurn = { s with turn := s.turns.headD s.turn, turns := s.turns.tail } := by
  obtain ⟨c0, c1, t, ts, n, m⟩ := s
  cases ts <;> rfl
@[simp] theorem State.endTurn_core (s : State) (k : CoreId) : s.endTurn.core k = s.core k := by
  rw [State.endTurn_eq]; cases k <;> rfl
@[simp] theorem State.endTurn_mem (s : State) : s.endTurn.mem = s.mem := by rw [State.endTurn_eq]
@[simp] theorem State.endTurn_draws (s : State) : s.endTurn.draws = s.draws := by rw [State.endTurn_eq]

/-- A step of a running core at a legal pc executes the word it fetches. -/
theorem step_of_readWord {s : State} {w : Word} (hr : s.active.run = .running) (he : s.active.ended ≠ some .undefInstr)
    (h0 : s.active.arm.pc.getLsbD 0 = false) (hp : s.active.arm.pc.toNat ≤ 0xfffffffb)
    (hw : readWord s.mem s.active.arm.pc = some w) : step s = passTurn (executeWord exec w s) := by
  have hl : ¬ (0xfffffffb < s.active.arm.pc.toNat) := by omega
  simp only [step, cycle, coreStep, hr, if_neg he, issueNext, fetchWord, h0, if_neg hl, hw, Bool.false_eq_true, if_false]

/-- A step of a stalled core. -/
theorem step_of_stalled {s : State} (hr : s.active.run = .stalled) : step s = .next (stalledTick s).endTurn := by
  simp only [step, cycle, coreStep, hr, passTurn]

/-- A next state of an instruction leaves the turn and the interleaving alone. -/
theorem exec_turn {i : Instr} {s t : State} (h : exec i s = .next t) : t.turn = s.turn ∧ t.turns = s.turns := by
  rcases exec_cases h with _ | ⟨_, _, _, _, _, rfl⟩ | _ | _ | _ | _ <;> simp [State.withArmRcp, panicState]

/-- Everything a step can answer next: a stalled core's turn, or an executed word; then the turn passes. -/
theorem step_cases {s t : State} (h : step s = .next t) :
    (s.active.run = .stalled ∧ t = (stalledTick s).endTurn) ∨
    (s.active.run = .running ∧ ∃ u, t = u.endTurn ∧
      ((∃ i, exec i s = .next u) ∨ (s.active.rcp.fault = true ∧ u = stallForever s) ∨
        (s.active.rcp.fault = false ∧ (u = raiseRcpFault .invalidInstruction s ∨ u = raiseUsageFault s)))) := by
  cases hr : s.active.run with
  | stalled => rw [step_of_stalled hr] at h; cases h; exact .inl ⟨rfl, rfl⟩
  | running =>
    refine .inr ⟨rfl, ?_⟩
    simp only [step, cycle, coreStep, hr] at h
    by_cases he : s.active.ended = some .undefInstr
    · rw [if_pos he] at h; cases h
    rw [if_neg he] at h
    unfold issueNext at h
    cases hf : fetchWord s with
    | fault r => simp only [hf, passTurn] at h; cases h
    | refused r => simp only [hf, passTurn] at h; cases h
    | word w =>
      simp only [hf] at h
      cases hd : decodeWord w with
      | ok i =>
        rw [executeWord_of_ok exec s hd] at h
        cases hx : exec i s with
        | next u => rw [hx] at h; cases h; exact ⟨u, rfl, .inl ⟨i, hx⟩⟩
        | fault r => rw [hx] at h; cases h
        | refused r => rw [hx] at h; cases h
      | error e =>
        rw [executeWord_of_error exec s hd] at h
        have hrej : ∀ ok valid, passTurn (rcpReject ok valid s) = .next t → ∃ u, t = u.endTurn ∧
            ((∃ i, exec i s = .next u) ∨ (s.active.rcp.fault = true ∧ u = stallForever s) ∨
              (s.active.rcp.fault = false ∧ (u = raiseRcpFault .invalidInstruction s ∨ u = raiseUsageFault s))) := by
          intro ok valid hh
          unfold rcpReject at hh
          cases hi : issueRefusal s.active.arm ok with
          | some r => simp only [hi, passTurn] at hh; cases hh
          | none =>
            simp only [hi] at hh
            cases hfl : s.active.rcp.fault with
            | true =>
              simp only [hfl, if_true, passTurn] at hh
              cases hh; exact ⟨_, rfl, .inr (.inl ⟨rfl, rfl⟩)⟩
            | false =>
              simp only [hfl, Bool.false_eq_true, if_false] at hh
              cases valid with
              | true => simp only [if_true, passTurn] at hh; cases hh
              | false =>
                cases hs : s.active.arm.security <;> simp only [hs, passTurn, Bool.false_eq_true, if_false] at hh <;>
                  cases hh
                · exact ⟨_, rfl, .inr (.inr ⟨rfl, .inl rfl⟩)⟩
                · exact ⟨_, rfl, .inr (.inr ⟨rfl, .inr rfl⟩)⟩
        cases e with
        | notRcp => cases h
        | ldcStc => cases h
        | truncated => cases h
        | invalid c => exact hrej _ _ h
        | unlisted c => exact hrej _ _ h

end Machine

end Sys2Proof
end

