-- ==== Sys2Proof/Tests/Slice0.lean ====
section
/-! SUPPORT. Tests. Every expected value is 95_test_vectors.md's, by its section, or a rule's own; and one witness for the
hypotheses of every statement. -/

namespace Sys2Proof.Tests

open Sys2Proof.Machine

/-! ## Well-formedness: each check refuses an ill-formed term (30_encoding.md R58) -/

theorem test_wf_salt0 : (Instr.rcpSaltCore0 true 13 1).wellFormed = false := by decide
theorem test_wf_salt1 : (Instr.rcpSaltCore1 true 0 15).wellFormed = false := by decide
theorem test_wf_status : (Instr.rcpCanaryStatus true 13).wellFormed = false := by decide
theorem test_wf_status_flags : (Instr.rcpCanaryStatus true 15).wellFormed = true := by decide
theorem test_wf_get_flags : (Instr.rcpCanaryGet true 15 0).wellFormed = true := by decide
theorem test_wf_get : (Instr.rcpCanaryGet true 13 0).wellFormed = false := by decide
theorem test_wf_check : (Instr.rcpCanaryCheck true 15 0).wellFormed = false := by decide
theorem test_wf_bvalid : (Instr.rcpBvalid true 13).wellFormed = false := by decide
theorem test_wf_btrue : (Instr.rcpBtrue true 15).wellFormed = false := by decide
theorem test_wf_bfalse : (Instr.rcpBfalse true 13).wellFormed = false := by decide
theorem test_wf_b2valid : (Instr.rcpB2valid true 15 1).wellFormed = false := by decide
theorem test_wf_b2and : (Instr.rcpB2and true 1 13).wellFormed = false := by decide
theorem test_wf_b2or : (Instr.rcpB2or true 13 1).wellFormed = false := by decide
theorem test_wf_bxorvalid : (Instr.rcpBxorvalid true 1 15).wellFormed = false := by decide
theorem test_wf_bxortrue : (Instr.rcpBxortrue true 15 1).wellFormed = false := by decide
theorem test_wf_bxorfalse : (Instr.rcpBxorfalse true 1 13).wellFormed = false := by decide
theorem test_wf_ivalid : (Instr.rcpIvalid true 13 1).wellFormed = false := by decide
theorem test_wf_iequal : (Instr.rcpIequal true 1 15).wellFormed = false := by decide
theorem test_wf_random : (Instr.rcpRandomByte true 13).wellFormed = false := by decide
theorem test_wf_count_set : (Instr.rcpCountSet true 15 0).wellFormed = false := by decide
theorem test_wf_count_check : (Instr.rcpCountCheck true 13 0).wellFormed = false := by decide

/-! ## Decoding: a word written out for every constructor (section 2.1) -/

theorem test_decode_salt0 : decodeWord 0xFC410780 = .ok (.rcpSaltCore0 true 0 1) := by decide
theorem test_decode_salt1 : decodeWord 0xEC432781 = .ok (.rcpSaltCore1 false 2 3) := by decide
theorem test_decode_status : decodeWord 0xFE307710 = .ok (.rcpCanaryStatus true 7) := by decide
theorem test_decode_status_flags : decodeWord 0xEE30F710 = .ok (.rcpCanaryStatus false 15) := by decide
theorem test_decode_get : decodeWord 0xEE144730 = .ok (.rcpCanaryGet false 4 0x40) := by decide
theorem test_decode_check : decodeWord 0xFE05C73A = .ok (.rcpCanaryCheck true 12 0x5a) := by decide
theorem test_decode_bvalid : decodeWord 0xEE203710 = .ok (.rcpBvalid false 3) := by decide
theorem test_decode_btrue : decodeWord 0xEE403710 = .ok (.rcpBtrue false 3) := by decide
theorem test_decode_bfalse : decodeWord 0xEE603730 = .ok (.rcpBfalse false 3) := by decide
theorem test_decode_b2valid : decodeWord 0xEC410708 = .ok (.rcpB2valid false 0 1) := by decide
theorem test_decode_b2and : decodeWord 0xEC410710 = .ok (.rcpB2and false 0 1) := by decide
theorem test_decode_b2or : decodeWord 0xEC410720 = .ok (.rcpB2or false 0 1) := by decide
theorem test_decode_bxorvalid : decodeWord 0xEC410738 = .ok (.rcpBxorvalid false 0 1) := by decide
theorem test_decode_bxortrue : decodeWord 0xEC410740 = .ok (.rcpBxortrue false 0 1) := by decide
theorem test_decode_bxorfalse : decodeWord 0xEC410758 = .ok (.rcpBxorfalse false 0 1) := by decide
theorem test_decode_ivalid : decodeWord 0xEC410768 = .ok (.rcpIvalid false 0 1) := by decide
theorem test_decode_iequal : decodeWord 0xFC454770 = .ok (.rcpIequal true 4 5) := by decide
theorem test_decode_random : decodeWord 0xEE500710 = .ok (.rcpRandomByte false 0) := by decide
theorem test_decode_count_set : decodeWord 0xEE8F071F = .ok (.rcpCountSet false 0 0xff) := by decide
theorem test_decode_count_check : decodeWord 0xFEAF073F = .ok (.rcpCountCheck true 0 0xff) := by decide
theorem test_decode_panic : decodeWord 0xEE000720 = .ok (.rcpPanic false) := by decide

/-- The bytes of a word: the first halfword first, each halfword little-endian (20_memory.md R34). -/
theorem test_decode_bytes : decodeBytes [0x14, 0xEE, 0x30, 0x47, 0xAA] = .ok (.rcpCanaryGet false 4 0x40, [0xAA]) := by
  decide

/-! Invalid words (section 2.2) -/

theorem test_invalid_mcr :
    ([0xEEA10710, 0xEEE00710, 0xEE200711, 0xEE430710] : List Word).all
      (fun w => decodeWord w == .error (.invalid .mcr)) = true := by decide
theorem test_invalid_mrc :
    ([0xEE300730, 0xEE700730, 0xEE900710, 0xEE300712, 0xEE510710] : List Word).all
      (fun w => decodeWord w == .error (.invalid .mrc)) = true := by decide
theorem test_invalid_mcrr :
    ([0xEC410778, 0xEC410760, 0xEC410788, 0xEC410798, 0xEC4107F8, 0xEC410782, 0xEC410711, 0xEC410709] : List Word).all
      (fun w => decodeWord w == .error (.invalid .mcrr)) = true := by decide
theorem test_invalid_mrrc :
    ([0xEC510708, 0xEC510710] : List Word).all (fun w => decodeWord w == .error (.invalid .mrrc)) = true := by decide
theorem test_invalid_cdp :
    ([0xEE000700, 0xEE100720] : List Word).all (fun w => decodeWord w == .error (.invalid .cdp)) = true := by decide

/-! Valid but unlisted, and other words (sections 2.3, 2.4; 30_encoding.md R64) -/

theorem test_unlisted :
    decodeWord 0xEEC00730 = .error (.unlisted .mcr) ∧ decodeWord 0xEE200750 = .error (.unlisted .mcr) ∧
    decodeWord 0xEE140770 = .error (.unlisted .mrc) ∧ decodeWord 0xEE100700 = .error (.unlisted .cdp) ∧
    decodeWord 0xEE021723 = .error (.unlisted .cdp) ∧ decodeWord 0xEE700700 = .error (.unlisted .cdp) := by decide
theorem test_not_rcp : decodeWord 0xEE000A10 = .error .notRcp ∧ decodeWord 0xEE300610 = .error .notRcp := by decide
theorem test_ldc : decodeWord 0xEC900700 = .error .ldcStc := by decide

/-! ## Canary, generator (sections 3, 6) -/

theorem test_canary_tags :
    canary 0x0123456789abcdef 0x40 = 0xebeaef00 ∧ canary 0x0123456789abcdef 0xbf = 0x148d6600 ∧
    canary 0xfedcba9876543210 0xa7 = 0xf32a3600 := by decide
theorem test_canary_slices :
    canary 0x000000ff00000000 0x0f = 0x0ff00000 ∧ canary 0x00000000ff000000 0x0f = 0x0f000f00 ∧
    canary 0xffffff0123456789 0x40 = 0x05668900 := by decide
theorem test_advance :
    advance 0 = 0x108101 ∧ advance 0xffffff = 0xef7efe ∧ advance 0x012345 = 0x12478b ∧ advance 0x800000 = 0x108101 := by
  decide
theorem test_out :
    prngOut 0x012345 = 0x7b ∧ prngOut 0x12478b = 0xfe ∧ prngOut 0x001200 = 0x8e ∧ prngOut 0xabcdef = 0x94 := by decide

/-! ## Instructions -/

/-- A core with the given security state, salt, salt validity and first two registers. -/
def tstCore (sec : Security) (salt : BitVec 64) (valid : Bool) (a b : Word) : CoreState :=
  { CoreState.reset with
    arm := { ArmCore.reset with x := (ArmCore.reset.x.set 0 a).set 1 b, security := sec, cpacrNs7 := true, nsacr7 := true }
    rcp := { (Rcp.reset.writeSalt salt) with saltValid := valid } }

/-- Both cores, core 0 acting: the state the vectors start from. -/
def tst (sec : Security) (valid : Bool) (a b : Word) : State :=
  { State.reset with
    core0 := tstCore sec 0x0123456789abcdef valid a b
    core1 := tstCore sec 0xfedcba9876543210 valid a b }

/-- In Secure state with valid salts. -/
def sec (a b : Word) : State := tst .secure true a b

/-- In Non-secure state with valid salts. -/
def nonSec (a b : Word) : State := tst .nonSecure true a b

/-- The state an instruction leaves, if it leaves one. -/
def after (i : Instr) (s : State) : State :=
  match exec i s with
  | .next t => t
  | .fault _ => s
  | .refused _ => s

/-- The instruction completes: the pc moves on and no fault register is set. -/
def passes (i : Instr) (s : State) : Bool :=
  match exec i s with
  | .next t => t.active.arm.pc == s.active.arm.pc + 4 && !t.core0.rcp.fault && !t.core1.rcp.fault
  | .fault _ => false
  | .refused _ => false

/-- The instruction raises an RCP fault with a cause: both fault registers are set and the pc stays. -/
def faultsWith (c : RcpCause) (i : Instr) (s : State) : Bool :=
  match exec i s with
  | .next t => t.active.arm.pc == s.active.arm.pc && t.core0.rcp.fault && t.core1.rcp.fault
      && t.active.ended == some (.rcpFault c)
  | .fault _ => false
  | .refused _ => false

/-- An outcome is a given next state. -/
def leaves (o : Out) (t : State) : Bool :=
  match o with
  | .next u => u == t
  | .fault _ => false
  | .refused _ => false

/-- An outcome is a given refusal. -/
def refuses (o : Out) (r : Refusal) : Bool :=
  match o with
  | .next _ => false
  | .fault _ => false
  | .refused q => q == r

theorem eq_of_leaves {o : Out} {t : State} (h : leaves o t = true) : o = .next t := by
  cases o with
  | next u => exact congrArg _ (beq_iff_eq.1 h)
  | fault r => cases h
  | refused r => cases h

theorem eq_of_refuses {o : Out} {r : Refusal} (h : refuses o r = true) : o = .refused r := by
  cases o with
  | next u => cases h
  | fault q => cases h
  | refused q => exact congrArg _ (beq_iff_eq.1 h)

/-- Vectors 8.2, 8.3. -/
theorem test_salt0 :
    (after (.rcpSaltCore0 true 0 1) (tst .secure false 1 2)).core0.rcp.salt = 0x0000000200000001 ∧
    (after (.rcpSaltCore0 true 0 1) (tst .secure false 1 2)).core0.rcp.saltValid = true := by decide
theorem test_salt0_again : faultsWith .saltAlreadyValid (.rcpSaltCore0 true 0 1) (sec 1 2) = true := by decide
/-- Vector 8.8. -/
theorem test_salt1 :
    (after (.rcpSaltCore1 true 0 1) (tst .secure false 1 2)).core1.rcp.salt = 0x0000000200000001 ∧
    (after (.rcpSaltCore1 true 0 1) (tst .secure false 1 2)).core0.rcp.saltValid = false := by decide
/-- Vector 8.18. -/
theorem test_salt1_core1 :
    refuses (exec (.rcpSaltCore1 true 0 1) { tst .secure false 1 2 with turn := .core1 }) .saltWriteFromCore1 = true := by
  decide
/-- Vector 8.1 and section 1.4. -/
theorem test_status : (after (.rcpCanaryStatus true 4) (tst .secure false 0 0)).reg 4 = 0x00c300c3 := by decide
theorem test_status_flags :
    (after (.rcpCanaryStatus true 15) (sec 0 0)).core0.arm.flags = ⟨true, false, true, false⟩ := by decide
/-- Section 3: with Rt = 15 the flags are bits 31:28 of the canary. -/
theorem test_get : (after (.rcpCanaryGet true 4 0x40) (sec 0 0)).reg 4 = 0xebeaef00 := by decide
theorem test_get_flags :
    (after (.rcpCanaryGet true 15 0x40) (sec 0 0)).core0.arm.flags = ⟨true, true, true, false⟩ := by decide
theorem test_check : passes (.rcpCanaryCheck true 0 0x40) (sec 0xebeaef00 0) = true := by decide
theorem test_check_low_byte : faultsWith .canaryMismatch (.rcpCanaryCheck true 0 0x40) (sec 0xebeaef01 0) = true := by decide
/-- Section 4. -/
theorem test_bvalid : passes (.rcpBvalid true 0) (sec 0x00c300c3 0) = true := by decide
theorem test_bvalid_fault : faultsWith .booleanCheck (.rcpBvalid true 0) (sec 0x80c300c3 0) = true := by decide
theorem test_btrue : passes (.rcpBtrue true 0) (sec 0xa500a500 0) = true := by decide
theorem test_btrue_fault : faultsWith .booleanCheck (.rcpBtrue true 0) (sec 0x00c300c3 0) = true := by decide
theorem test_bfalse : passes (.rcpBfalse true 0) (sec 0x00c300c3 0) = true := by decide
theorem test_bfalse_fault : faultsWith .booleanCheck (.rcpBfalse true 0) (sec 0xa500a500 0) = true := by decide
theorem test_b2valid : passes (.rcpB2valid true 0 1) (sec 0x00c300c3 0xa500a500) = true := by decide
theorem test_b2valid_fault : faultsWith .booleanCheck (.rcpB2valid true 0 1) (sec 0x00c300c3 0x12345678) = true := by decide
theorem test_b2and : passes (.rcpB2and true 0 1) (sec 0xa500a500 0xa500a500) = true := by decide
theorem test_b2and_fault : faultsWith .booleanCheck (.rcpB2and true 0 1) (sec 0xa500a500 0x00c300c3) = true := by decide
theorem test_b2or : passes (.rcpB2or true 0 1) (sec 0x00c300c3 0xa500a500) = true := by decide
theorem test_b2or_poison : faultsWith .booleanCheck (.rcpB2or true 0 1) (sec 0xa500a500 0) = true := by decide
theorem test_bxorvalid : passes (.rcpBxorvalid true 0 1) (sec 0x12f756bb 0x12345678) = true := by decide
theorem test_bxorvalid_fault : faultsWith .booleanCheck (.rcpBxorvalid true 0 1) (sec 0xa500a500 0x00c300c3) = true := by decide
theorem test_bxortrue : passes (.rcpBxortrue true 0 1) (sec 0xb734f378 0x12345678) = true := by decide
theorem test_bxortrue_fault : faultsWith .booleanCheck (.rcpBxortrue true 0 1) (sec 0x00c300c3 0) = true := by decide
theorem test_bxorfalse : passes (.rcpBxorfalse true 0 1) (sec 0x12f756bb 0x12345678) = true := by decide
theorem test_bxorfalse_fault : faultsWith .booleanCheck (.rcpBxorfalse true 0 1) (sec 0xa500a500 0) = true := by decide
/-- Section 5. -/
theorem test_ivalid : passes (.rcpIvalid true 0 1) (sec 0xdeadbeef 0x48ad28ef) = true := by decide
theorem test_ivalid_fault : faultsWith .integerCheck (.rcpIvalid true 0 1) (sec 0x00001000 0x96008601) = true := by decide
theorem test_iequal : passes (.rcpIequal true 0 1) (sec 5 5) = true := by decide
theorem test_iequal_fault : faultsWith .integerCheck (.rcpIequal true 0 1) (sec 0 0x96009600) = true := by decide
/-- Section 6.4. -/
theorem test_generate :
    generate .before 0x012345 0 = ⟨0x7b, 0x12478b⟩ ∧ generate .after 0x012345 0 = ⟨0xfe, 0x12478b⟩ := by decide
theorem test_random_width : ((after (.rcpRandomByte true 1) (sec 0xffffffff 0xffffffff)).reg 1).extractLsb' 8 24 = 0 := by
  have h : ∀ b : BitVec 8, (b.setWidth 32).extractLsb' 8 24 = 0 := by decide
  exact h (undelayed (sec 0xffffffff 0xffffffff)).randomGeneration.byte
/-- Section 7. -/
theorem test_count_set : (after (.rcpCountSet true 0 0x10) (sec 0 0)).core0.rcp.seq = 0x10 := by decide
theorem test_count_wrap :
    (after (.rcpCountCheck true 0 0xff) (after (.rcpCountSet true 0 0xff) (sec 0 0))).core0.rcp.seq = 0 := by decide
theorem test_count_fault :
    faultsWith .countMismatch (.rcpCountCheck true 0 0x12) (after (.rcpCountSet true 0 0x11) (sec 0 0)) = true := by decide
/-- Vector 8.10, on core 0. -/
theorem test_panic :
    (after (.rcpPanic true) (sec 0 0)).core0.run = .stalled ∧ (after (.rcpPanic true) (sec 0 0)).core0.rcp.fault = false ∧
    (after (.rcpPanic true) (sec 0 0)).core1.rcp.fault = true := by decide
/-- Vector 8.5. -/
theorem test_panic_salt_invalid : faultsWith .saltInvalid (.rcpPanic true) (tst .secure false 0 0) = true := by decide
/-- Vector 8.4. -/
theorem test_salt_invalid : faultsWith .saltInvalid (.rcpBvalid true 0) (tst .secure false 0xa500a500 0) = true := by decide
/-- Vectors 8.6, 8.14: bad parity. -/
theorem test_invalid_secure :
    leaves (executeWord exec 0xEEA10710 (tst .secure false 0 0))
      (raiseRcpFault .invalidInstruction (tst .secure false 0 0)) = true := by decide
theorem test_invalid_nonsecure :
    leaves (executeWord exec 0xEEA10710 (nonSec 0 0)) (raiseUsageFault (nonSec 0 0)) = true := by decide
/-- Vectors 8.11 to 8.13, 8.15, 8.17. -/
theorem test_ns_get : (after (.rcpCanaryGet false 0 0x40) (nonSec 7 0)).reg 0 = 0 := by decide
theorem test_ns_btrue : passes (.rcpBtrue false 0) (nonSec 0 0) = true := by decide
theorem test_ns_salt_invalid : passes (.rcpBvalid false 0) (tst .nonSecure false 0 0) = true := by decide
theorem test_ns_panic : refuses (exec (.rcpPanic false) (nonSec 0 0)) .nonSecurePanic = true := by decide
/-- Vector 8.9. -/
theorem test_stall :
    (after (.rcpCanaryStatus true 0) (raiseRcpFault .crossCore (nonSec 7 0))).core0.run = .stalled ∧
    (after (.rcpCanaryStatus true 0) (raiseRcpFault .crossCore (nonSec 7 0))).reg 0 = 7 := by decide
/-- A countdown of 100 cycles runs; an interrupt arrives now, and another at draw 7. -/
def disturbed : State :=
  { sec 5 5 with
    core0 := { (sec 5 5).core0 with rcp := { (sec 5 5).core0.rcp with delay := 100 }, irqs := [⟨7, 1⟩, ⟨0, 30⟩] } }

/-- A delay that no interrupt disturbs does not use up the interrupt of a later issue (44_random_and_delay.md R108). -/
theorem test_later_interrupt :
    (match delayIssue (({ disturbed with draws := 6 } : State)) with
     | .elapsed t => decide (t.active.rcp.delay = 0) && decide (t.active.interruptAt 7 = some ⟨7, 1⟩)
     | .abandoned _ => false) = true ∧
    (match delayIssue (({ disturbed with draws := 7 } : State)) with
     | .elapsed _ => false
     | .abandoned t => decide (t.active.rcp.delay = 99) && decide (t.draws = 8)) = true := by decide
/-- A later run of a core after its UsageFault finds the RCP as it was left (60_exceptions.md R126). -/
theorem test_later_run :
    ((raiseUsageFault (nonSec 0 0)).runCoreCode .core0 (nonSec 1 2).core0.arm).core0 = (nonSec 1 2).core0 := by decide
/-- `Rt = 15` of an `mrc` is legal (30_encoding.md R58): an invalid and an unlisted `mrc` word with it stall while the
fault register is set (60_exceptions.md R122). -/
theorem test_mrc_flags_word_stalls :
    decodeWord 0xEE10F710 = .error (.invalid .mrc) ∧ decodeWord 0xEE10F770 = .error (.unlisted .mrc) ∧
    executeWord exec 0xEE10F710 (raiseRcpFault .crossCore (sec 0 0)) =
      .next (stallForever (raiseRcpFault .crossCore (sec 0 0))) ∧
    executeWord exec 0xEE10F770 (raiseRcpFault .crossCore (nonSec 0 0)) =
      .next (stallForever (raiseRcpFault .crossCore (nonSec 0 0))) :=
  ⟨by decide, by decide, rfl, rfl⟩
/-- A Secure invalid `mrc` word with `Rt = 15` is an RCP fault (60_exceptions.md R125). -/
theorem test_mrc_flags_word_faults :
    executeWord exec 0xEE10F710 (sec 0 0) = .next (raiseRcpFault .invalidInstruction (sec 0 0)) := rfl
/-- Code of a running Secure core sets NSACR bit 7 (70_reset_and_hazards.md R152). -/
theorem test_write_nsacr : (State.reset.writeNsacr7 true).core0.arm.nsacr7 = true := by decide
/-- Code of a panicked core retires no write of NSACR or CPACR_NS (60_exceptions.md R123, 46_panic.md R119). -/
theorem test_stalled_writes_no_enable :
    ((after (.rcpPanic true) (sec 0 0)).writeNsacr7 (!(sec 0 0).core0.arm.nsacr7)).core0.arm.nsacr7 =
      (sec 0 0).core0.arm.nsacr7 ∧
    ((after (.rcpPanic true) (sec 0 0)).writeCpacrNs7 (!(sec 0 0).core0.arm.cpacrNs7)).core0.arm.cpacrNs7 =
      (sec 0 0).core0.arm.cpacrNs7 := by decide
/-- A whole step from reset: `rcp_canary_status` into r4 at address 0. -/
theorem test_step :
    (match step (State.reset.withFetchWord 32 0xFE304710) with
     | .next t => t.reg 4 == 0x00c300c3 && t.active.arm.pc == 4
     | .fault _ => false
     | .refused _ => false) = true := by decide

/-! ## Witnesses of the hypotheses -/

/-- Every well-formed instruction is ready in the Secure test state. -/
theorem ready (i : Instr) (a b : Word) (h : i.wellFormed = true) : SecureReady i (sec a b) :=
  ⟨⟨⟨rfl, rfl, h⟩, rfl, rfl⟩, rfl, .inr (.inl rfl)⟩

/-- Every well-formed instruction is issued in the Secure test state with invalid salts. -/
theorem issued (i : Instr) (a b : Word) (h : i.wellFormed = true) : SecureIssue i (tst .secure false a b) :=
  ⟨⟨rfl, rfl, h⟩, rfl, rfl⟩

/-- Every well-formed instruction is issued in the Non-secure test state. -/
theorem issuedNs (i : Instr) (v : Bool) (a b : Word) (h : i.wellFormed = true) : NonSecureIssue i (tst .nonSecure v a b) :=
  ⟨⟨rfl, rfl, h⟩, rfl, rfl⟩

theorem witness_EncodeOfDecodeIsTheWord : decodeWord 0xFE1B073F = .ok (.rcpCanaryGet true 0 0xbf) := by decide

theorem witness_FlippedParityBitIsInvalid :
    (classOf 0xEE000730 = .ok .mcr ∧ decodeWord 0xEE000730 = .ok (.rcpCanaryCheck false 0 0)) ∧
    (classOf 0xFE1FF73F = .ok .mrc ∧ decodeWord 0xFE1FF73F = .ok (.rcpCanaryGet true 15 0xff)) ∧
    (classOf 0xEC410781 = .ok .mcrr ∧ decodeWord 0xEC410781 = .ok (.rcpSaltCore1 false 0 1)) ∧
    (classOf 0xEE000720 = .ok .cdp ∧ decodeWord 0xEE000720 = .ok (.rcpPanic false)) := by decide

/-- The word 0xEE300710 at address 0. -/
def placed : State := State.reset.withFetchWord 32 0xEE300710

theorem witness_StepRunsTheDecodedInstruction :
    placed.active.run = .running ∧ placed.active.ended ≠ some .undefInstr ∧ placed.active.arm.pc.getLsbD 0 = false ∧
    placed.active.arm.pc.toNat ≤ 0xfffffffb ∧ readByte placed.mem placed.active.arm.pc.toNat = some 0x30 ∧
    readByte placed.mem (placed.active.arm.pc + 1).toNat = some 0xEE ∧
    readByte placed.mem (placed.active.arm.pc + 2).toNat = some 0x10 ∧
    readByte placed.mem (placed.active.arm.pc + 3).toNat = some 0x07 ∧
    decodeBytes [0x30, 0xEE, 0x10, 0x07] = .ok (.rcpCanaryStatus false 0, []) := by decide

theorem witness_PlacedWordIsExecuted :
    State.reset.active.run = .running ∧ State.reset.active.ended ≠ some .undefInstr ∧
    State.reset.active.arm.pc.getLsbD 0 = false ∧ State.reset.active.arm.pc.toNat ≤ 0xfffffffb ∧
    decodeTableWord 32 0xEE30F710 = some (.rcpCanaryStatus false 15) := by decide

/-- The reset state with another pc. -/
def atPc (pc : Word) : State := { State.reset with core0 := { CoreState.reset with arm := { ArmCore.reset with pc := pc } } }

theorem witness_FetchStops :
    ((atPc 0xfffffffb).active.run = .running ∧ (atPc 0xfffffffb).active.ended ≠ some .undefInstr ∧
      (atPc 0xfffffffb).active.arm.pc.getLsbD 0 = true) ∧
    ((atPc 0xfffffffc).active.run = .running ∧ (atPc 0xfffffffc).active.ended ≠ some .undefInstr ∧
      (atPc 0xfffffffc).active.arm.pc.getLsbD 0 = false ∧ 0xfffffffb < (atPc 0xfffffffc).active.arm.pc.toNat) ∧
    ((atPc 0xfffffffa).active.run = .running ∧ (atPc 0xfffffffa).active.ended ≠ some .undefInstr ∧
      (atPc 0xfffffffa).active.arm.pc.getLsbD 0 = false ∧ (atPc 0xfffffffa).active.arm.pc.toNat ≤ 0xfffffffb ∧
      readByte (atPc 0xfffffffa).mem (atPc 0xfffffffa).active.arm.pc.toNat = none) := by decide

theorem witness_SecureInvalidWordFaults :
    (sec 0 0).active.arm.inItBlock = false ∧ (sec 0 0).active.arm.cp7Enabled = true ∧ classRegsOk .mcr 0xEEA10710 = true ∧
    (sec 0 0).fault (sec 0 0).turn = false ∧ (sec 0 0).active.arm.security = .secure ∧
    decodeWord 0xEEA10710 = .error (.invalid .mcr) := by decide

theorem witness_NonSecureInvalidWordIsUsageFault :
    (nonSec 0 0).active.arm.inItBlock = false ∧ (nonSec 0 0).active.arm.cp7Enabled = true ∧
    classRegsOk .mrrc 0xEC510708 = true ∧ (nonSec 0 0).fault (nonSec 0 0).turn = false ∧
    (nonSec 0 0).active.arm.security = .nonSecure ∧ (nonSec 0 0).active.ended = none ∧
    decodeWord 0xEC510708 = .error (.invalid .mrrc) ∧ (nonSec 0 0).active.run = .running := by decide

theorem witness_WordsWithoutMeaningStop :
    (sec 0 0).active.arm.inItBlock = false ∧ (sec 0 0).active.arm.cp7Enabled = true ∧
    (decodeWord 0xEEC00730 = .error (.unlisted .mcr) ∧ classRegsOk .mcr 0xEEC00730 = true ∧
      (sec 0 0).fault (sec 0 0).turn = false) ∧
    decodeWord 0xEC900700 = .error .ldcStc ∧ decodeWord 0xEE000A10 = .error .notRcp := by decide

theorem witness_InstructionsNotSentAreRefused :
    ({ State.reset with core0 := { CoreState.reset with arm := { ArmCore.reset with inItBlock := true } } } :
      State).active.arm.inItBlock = true ∧
    ({ State.reset with core0 := { CoreState.reset with arm := { ArmCore.reset with security := .nonSecure } } } :
      State).active.arm.cp7Enabled = false ∧
    ((sec 0 0).active.arm.inItBlock = false ∧ (sec 0 0).active.arm.cp7Enabled = true ∧
      (Instr.rcpCanaryGet true 13 0x40).wellFormed = false) ∧
    (classOf 0xEE20D730 = .ok .mcr ∧ classRegsOk .mcr 0xEE20D730 = false ∧
      decodeWord 0xEE20D730 = .error (.invalid .mcr)) ∧
    (classOf 0xEEC0F730 = .ok .mcr ∧ classRegsOk .mcr 0xEEC0F730 = false ∧
      decodeWord 0xEEC0F730 = .error (.unlisted .mcr)) := by decide

theorem witness_FaultRegisterStallsEveryInstruction :
    (Issuable (.rcpPanic true) (raiseRcpFault .crossCore (nonSec 0 0)) ∧
      (raiseRcpFault .crossCore (nonSec 0 0)).fault (raiseRcpFault .crossCore (nonSec 0 0)).turn = true) ∧
    (classRegsOk .mcr 0xEEA10710 = true ∧ decodeWord 0xEEA10710 = .error (.invalid .mcr)) ∧
    (classRegsOk .cdp 0xEE100700 = true ∧ decodeWord 0xEE100700 = .error (.unlisted .cdp)) :=
  ⟨⟨⟨rfl, rfl, rfl⟩, rfl⟩, by decide, by decide⟩

/-- A panicked core with an interrupt to come. -/
def panicked : State := after (.rcpPanic true) { sec 0 0 with core0 := { (sec 0 0).core0 with irqs := [⟨0, 0⟩] } }

/-- A core stalled after a fault, and panicked cores with no interrupt and with one to come. -/
theorem witness_StalledCoreRetiresNothing :
    (stallForever (raiseRcpFault .crossCore (sec 0 0))).active.run = .stalled ∧
    (stallForever (sec 0 0)).active.run = .stalled ∧
    (panicked.active.run = .stalled ∧ panicked.active.interruptAt panicked.draws = some ⟨0, 0⟩) := by decide

theorem witness_InvalidSaltFaultsInSecureState :
    SecureIssue (.rcpBvalid false 0) (tst .secure false 0xa500a500 0) ∧
    (tst .secure false 0xa500a500 0).active.rcp.saltValid = false ∧ (Instr.rcpBvalid false 0).saltExempt = false :=
  ⟨issued _ _ _ rfl, rfl, rfl⟩

theorem witness_FaultingInstructionWritesNothingElse :
    executeWord exec 0xFE400710 (sec 0 0) = .next (raiseRcpFault .booleanCheck (sec 0 0)) ∧
    (sec 0 0).fault (sec 0 0).turn = false ∧
    (raiseRcpFault .booleanCheck (sec 0 0)).fault (sec 0 0).turn = true :=
  ⟨eq_of_leaves (by decide), by decide, by decide⟩

theorem witness_SaltWriteWritesTheSalt :
    (tst .secure false 1 2).turn = .core0 ∧
    (SecureIssue (.rcpSaltCore0 false 0 1) (tst .secure false 1 2) ∧
      Undisturbed (.rcpSaltCore0 false 0 1) (tst .secure false 1 2) ∧ (tst .secure false 1 2).core0.rcp.saltValid = false) ∧
    (SecureIssue (.rcpSaltCore1 false 0 1) (tst .secure false 1 2) ∧
      Undisturbed (.rcpSaltCore1 false 0 1) (tst .secure false 1 2) ∧ (tst .secure false 1 2).core1.rcp.saltValid = false) :=
  ⟨rfl, ⟨issued _ _ _ rfl, .inr (.inl rfl), rfl⟩, issued _ _ _ rfl, .inr (.inl rfl), rfl⟩

theorem witness_SecondSaltWriteFaults :
    (sec 1 2).turn = .core0 ∧
    (SecureIssue (.rcpSaltCore0 false 0 1) (sec 1 2) ∧ Undisturbed (.rcpSaltCore0 false 0 1) (sec 1 2) ∧
      (sec 1 2).core0.rcp.saltValid = true) ∧
    (SecureIssue (.rcpSaltCore1 false 0 1) (sec 1 2) ∧ Undisturbed (.rcpSaltCore1 false 0 1) (sec 1 2) ∧
      (sec 1 2).core1.rcp.saltValid = true) :=
  ⟨rfl, ⟨(ready _ _ _ rfl).toSecureIssue, .inr (.inl rfl), rfl⟩, (ready _ _ _ rfl).toSecureIssue, .inr (.inl rfl), rfl⟩

theorem witness_FormsWithoutMeaningStop :
    ({ sec 1 2 with turn := .core1 } : State).turn = .core1 ∧
    SecureIssue (.rcpSaltCore0 true 0 1) { sec 1 2 with turn := .core1 } ∧
    SecureIssue (.rcpSaltCore1 true 0 1) { sec 1 2 with turn := .core1 } ∧
    NonSecureIssue (.rcpSaltCore0 true 0 1) (nonSec 1 2) ∧ NonSecureIssue (.rcpSaltCore1 true 0 1) (nonSec 1 2) ∧
    NonSecureIssue (.rcpPanic true) (nonSec 1 2) :=
  ⟨rfl, ⟨⟨rfl, rfl, rfl⟩, rfl, rfl⟩, ⟨⟨rfl, rfl, rfl⟩, rfl, rfl⟩, issuedNs _ _ _ _ rfl, issuedNs _ _ _ _ rfl,
    issuedNs _ _ _ _ rfl⟩

theorem witness_CanaryStatusReportsTheSaltState :
    (SecureIssue (.rcpCanaryStatus false 4) (tst .secure false 0 0) ∧
      Undisturbed (.rcpCanaryStatus false 4) (tst .secure false 0 0)) ∧
    (SecureIssue (.rcpCanaryStatus false 15) (sec 0 0) ∧ Undisturbed (.rcpCanaryStatus false 15) (sec 0 0)) :=
  ⟨⟨issued _ _ _ rfl, .inr (.inl rfl)⟩, (ready _ _ _ rfl).toSecureIssue, .inr (.inl rfl)⟩

theorem witness_CanaryPropertiesHold :
    (0x40 : Tag) ≠ 0x41 ∧ (0x80 : Tag).getLsbD 7 = true ∧ (0x80 : Tag).getLsbD 0 = false := by decide

theorem witness_CanaryGetReturnsTheCanary :
    SecureReady (.rcpCanaryGet false 4 0x40) (sec 0 0) ∧ SecureReady (.rcpCanaryGet false 15 0x40) (sec 0 0) :=
  ⟨ready _ _ _ rfl, ready _ _ _ rfl⟩

theorem witness_CanaryCheckAssertsTheCanary :
    (SecureReady (.rcpCanaryCheck false 0 0x40) (sec 0xebeaef00 0) ∧
      (sec 0xebeaef00 0).reg 0 = canary (sec 0xebeaef00 0).active.rcp.salt 0x40) ∧
    (SecureReady (.rcpCanaryCheck false 0 0x40) (sec 0xebeaef01 0) ∧
      ¬ (sec 0xebeaef01 0).reg 0 = canary (sec 0xebeaef01 0).active.rcp.salt 0x40) :=
  ⟨⟨ready _ _ _ rfl, by decide⟩, ready _ _ _ rfl, by decide⟩

theorem witness_CanaryGotPassesOnlyItsOwnCheck :
    (0 : Reg) ≠ 15 ∧ SecureReady (.rcpCanaryGet true 0 0x40) (sec 0 0) ∧
    exec (.rcpCanaryGet true 0 0x40) (sec 0 0) = .next (finish ((sec 0 0).readInto 0 0xebeaef00)) ∧
    SecureReady (.rcpCanaryCheck true 0 0x41) (finish ((sec 0 0).readInto 0 0xebeaef00)) :=
  ⟨by decide, ready _ _ _ rfl, eq_of_leaves (by decide), ⟨⟨rfl, rfl, rfl⟩, rfl, rfl⟩, rfl, .inr (.inl rfl)⟩

theorem witness_OneRegisterBooleanAssertions :
    SecureReady (.rcpBvalid false 0) (sec 0xa500a500 0) ∧ (sec 0xa500a500 0).reg 0 = 0xa500a500 ∧
    SecureReady (.rcpBtrue false 0) (sec 0xa500a500 0) ∧ SecureReady (.rcpBfalse false 0) (sec 0x00c300c3 0) ∧
    (sec 0x00c300c3 0).reg 0 = 0x00c300c3 ∧ SecureReady (.rcpBvalid false 0) (sec 0xa500a501 0) :=
  ⟨ready _ _ _ rfl, by decide, ready _ _ _ rfl, ready _ _ _ rfl, by decide, ready _ _ _ rfl⟩

theorem witness_TwoRegisterBooleanAssertions :
    SecureReady (.rcpB2valid false 0 1) (sec 0xa500a500 0x00c300c3) ∧
    SecureReady (.rcpB2and false 0 1) (sec 0xa500a500 0xa500a500) ∧
    SecureReady (.rcpB2or false 0 1) (sec 0x00c300c3 0xa500a500) ∧ SecureReady (.rcpB2or false 0 1) (sec 0xa500a500 0) :=
  ⟨ready _ _ _ rfl, ready _ _ _ rfl, ready _ _ _ rfl, ready _ _ _ rfl⟩

theorem witness_XorBooleanAssertions :
    SecureReady (.rcpBxorvalid false 0 1) (sec 0xb734f378 0x12345678) ∧
    SecureReady (.rcpBxortrue false 0 1) (sec 0xb734f378 0x12345678) ∧
    SecureReady (.rcpBxorfalse false 0 1) (sec 0x12f756bb 0x12345678) ∧
    (sec 0xb734f378 0x12345678).reg 0 ^^^ (sec 0xb734f378 0x12345678).reg 1 = 0xa500a500 :=
  ⟨ready _ _ _ rfl, ready _ _ _ rfl, ready _ _ _ rfl, by decide⟩

theorem witness_IntegerAssertions :
    (SecureReady (.rcpIvalid false 0 1) (sec 0xdeadbeef 0x48ad28ef) ∧
      (sec 0xdeadbeef 0x48ad28ef).reg 0 ^^^ (sec 0xdeadbeef 0x48ad28ef).reg 1 = 0x96009600) ∧
    (SecureReady (.rcpIequal false 0 1) (sec 5 5) ∧ (sec 5 5).reg 0 = (sec 5 5).reg 1) ∧
    (SecureReady (.rcpIequal false 0 1) (sec 0 0x96009600) ∧ ¬ (sec 0 0x96009600).reg 0 = (sec 0 0x96009600).reg 1) :=
  ⟨⟨ready _ _ _ rfl, by decide⟩, ⟨ready _ _ _ rfl, by decide⟩, ready _ _ _ rfl, by decide⟩

theorem witness_OneRegisterTwice :
    SecureReady (.rcpBxorvalid false 0 0) (sec 7 0) ∧ SecureReady (.rcpBxortrue false 0 0) (sec 7 0) ∧
    SecureReady (.rcpBxorfalse false 0 0) (sec 7 0) ∧ SecureReady (.rcpIvalid false 0 0) (sec 7 0) ∧
    SecureReady (.rcpIequal false 0 0) (sec 7 0) :=
  ⟨ready _ _ _ rfl, ready _ _ _ rfl, ready _ _ _ rfl, ready _ _ _ rfl, ready _ _ _ rfl⟩

theorem witness_RandomByteReturnsOneNumber :
    SecureReady (.rcpRandomByte true 0) (sec 0 0) ∧ SecureReady (.rcpRandomByte false 15) (sec 0 0) :=
  ⟨ready _ _ _ rfl, ready _ _ _ rfl⟩

theorem witness_AbandonedInstructionHasNotExecuted :
    SecureIssue (.rcpIequal false 0 1) disturbed ∧ disturbed.active.rcp.saltValid = true ∧
    (Instr.rcpIequal false 0 1).saltTarget = none ∧ (Instr.rcpIequal false 0 1).delayed = true ∧
    disturbed.active.interruptAt disturbed.draws = some ⟨0, 30⟩ ∧ disturbed.active.rcp.countdown disturbed.draws ≠ 0 :=
  ⟨⟨⟨rfl, rfl, rfl⟩, rfl, rfl⟩, rfl, rfl, rfl, rfl, by decide⟩

theorem witness_VariantsDifferOnlyInTheDelay :
    (sec 5 5).active.interruptAt (sec 5 5).draws = none ∧
    exec (.rcpIequal true 0 1) (sec 5 5) = .next (finish (sec 5 5)) ∧
    exec (.rcpCanaryGet true 13 0) (sec 5 5) = .refused .unpredictableRegister :=
  ⟨rfl, eq_of_leaves (by decide), eq_of_refuses (by decide)⟩

/-- A `*2` instruction that completes while a countdown of 100 cycles runs, and one where none runs. -/
theorem witness_UndelayedInstructionStartsNoCountdown :
    ((Instr.rcpIequal true 0 1).delayed = false ∧
      exec (.rcpIequal true 0 1) disturbed = .next (finish (undelayed disturbed))) ∧
    ((Instr.rcpIequal true 0 1).isRandomByte = false ∧ (Instr.rcpIequal true 0 1).saltTarget ≠ some disturbed.turn) ∧
    ((sec 5 5).active.rcp.delay = 0 ∧ exec (.rcpIequal true 0 1) (sec 5 5) = .next (finish (sec 5 5))) :=
  ⟨⟨rfl, rfl⟩, by decide, rfl, eq_of_leaves (by decide)⟩

theorem witness_CountSetWritesTheCounter : SecureReady (.rcpCountSet false 9 0x10) (sec 0 0) := ready _ _ _ rfl

theorem witness_CountCheckAssertsAndIncrements :
    SecureReady (.rcpCountCheck false 9 0) (sec 0 0) ∧ (sec 0 0).active.rcp.seq = 0 ∧
    SecureReady (.rcpCountCheck false 9 0xff) (sec 0 0) ∧ (sec 0 0).active.rcp.seq ≠ 0xff :=
  ⟨ready _ _ _ rfl, by decide, ready _ _ _ rfl, by decide⟩

theorem witness_PanicStallsAndFaultsTheOtherCore : SecureReady (.rcpPanic false) (sec 0 0) := ready _ _ _ rfl

theorem witness_AbandonedPanicAssertsTheNmi :
    panicked.active.run = .stalled ∧ panicked.fault panicked.turn = false ∧ panicked.active.interruptAt panicked.draws = some ⟨0, 0⟩ := by decide

theorem witness_NonSecureReadsAreZero :
    NonSecureIssue (.rcpCanaryStatus false 15) (nonSec 7 7) ∧ NonSecureIssue (.rcpCanaryGet false 0 0x40) (nonSec 7 7) ∧
    NonSecureIssue (.rcpRandomByte false 1) (nonSec 7 7) :=
  ⟨issuedNs _ _ _ _ rfl, issuedNs _ _ _ _ rfl, issuedNs _ _ _ _ rfl⟩

theorem witness_NonSecureAssertionsDoNothing :
    (Instr.rcpBtrue false 0).isDataAssertion = true ∧ NonSecureIssue (.rcpBtrue false 0) (tst .nonSecure false 0 0) :=
  ⟨rfl, issuedNs _ _ _ _ rfl⟩

theorem witness_NonSecureCountEitherWay :
    NonSecureIssue (.rcpCountSet false 0 0x10) (nonSec 0 0) ∧ NonSecureIssue (.rcpCountCheck false 0 0x10) (nonSec 0 0) :=
  ⟨issuedNs _ _ _ _ rfl, issuedNs _ _ _ _ rfl⟩

/-- Also the witness of `NonSecureHasNoDelay`. -/
theorem witness_NonSecureNeverFaults :
    (nonSec 0 0).active.arm.security = .nonSecure ∧ exec (.rcpBtrue false 0) (nonSec 0 0) = .next (finish (nonSec 0 0)) :=
  ⟨rfl, eq_of_leaves (by decide)⟩

/-- Two Non-secure states with the same core 0 registers and other salts, validity and counters. -/
theorem witness_NonSecureLearnsNothing :
    (nonSec 1 2).active.arm.security = .nonSecure ∧ (nonSec 1 2).turn = (tst .nonSecure false 1 2).turn ∧
    (nonSec 1 2).active.arm = (tst .nonSecure false 1 2).active.arm ∧
    (nonSec 1 2).active.run = (tst .nonSecure false 1 2).active.run ∧
    (nonSec 1 2).fault (nonSec 1 2).turn = (tst .nonSecure false 1 2).fault (tst .nonSecure false 1 2).turn ∧
    (nonSec 1 2).active.rcp ≠ (tst .nonSecure false 1 2).active.rcp := by decide

/-- Also the witness of the other frames, `FaultIsFinal` apart: an `mrc` that completes. -/
theorem witness_OnlyMrcWritesARegister :
    exec (.rcpCanaryStatus true 4) (sec 0 0) = .next (finish ((sec 0 0).readInto 4 0xa500a500)) ∧
    ¬ (CoreId.core0 = (sec 0 0).turn ∧ (Instr.rcpCanaryStatus true 4).mrcDest = some 5 ∧ (5 : Reg) ≠ 15) ∧
    ¬ (CoreId.core0 = (sec 0 0).turn ∧ (Instr.rcpCanaryStatus true 4).mrcDest = some 15) :=
  ⟨eq_of_leaves (by decide), by decide, by decide⟩

theorem witness_CounterAndSaltFrame :
    exec (.rcpCountSet true 0 0x10) (sec 0 0) = .next (finish ((sec 0 0).setSeq 0x10)) ∧
    ¬ (CoreId.core1 = (sec 0 0).turn ∧ (Instr.rcpCountSet true 0 0x10).isCount = true) ∧
    (Instr.rcpCountSet true 0 0x10).saltTarget ≠ some .core0 :=
  ⟨eq_of_leaves (by decide), by decide, by decide⟩

theorem reset_inv : Inv State.reset := by
  constructor
  · rfl
  · intro k; cases k <;> rfl
  · intro k c h; cases k <;> cases h
  · intro k h; cases k <;> cases h
  · intro k h; cases k <;> cases h
  · intro k h; cases k <;> cases h

theorem witness_StepKeepsTheInvariant :
    Inv placed ∧ ∃ t, step placed = .next t := by
  have hm : Memory.wf placed.mem = true := by decide
  exact ⟨⟨hm, reset_inv.pcEven, reset_inv.endedFaulted, reset_inv.faultEnded, reset_inv.stalledFault,
    reset_inv.faultDiffers⟩, _, rfl⟩

/-- A step with valid salts, one of a faulted core and one of a stalled core: a second `rcp_canary_status` after a fault. -/
theorem witness_ValidSaltStays :
    (∃ t, step (raiseRcpFault .crossCore (stallForever ((sec 0 0).withFetchWord 32 0xEE300710))) = .next t) ∧
    ((raiseRcpFault .crossCore (stallForever ((sec 0 0).withFetchWord 32 0xEE300710))).core .core0).rcp.saltValid = true :=
  ⟨⟨_, rfl⟩, by decide⟩

theorem witness_FaultIsFinal :
    (∃ t, step (raiseRcpFault .crossCore (stallForever (sec 0 0))) = .next t) ∧
    (raiseRcpFault .crossCore (stallForever (sec 0 0))).fault .core0 = true ∧
    ((raiseRcpFault .crossCore (stallForever (sec 0 0))).core .core0).run = .stalled :=
  ⟨⟨_, rfl⟩, by decide, by decide⟩

theorem witness_NonSecureAccessGate :
    ({ nonSec 0 0 with core0 := { (nonSec 0 0).core0 with
        arm := { (nonSec 0 0).core0.arm with nsacr7 := false, cpacrNs7 := false } } } : State).active.arm.nsacr7 = false ∧
    (nonSec 0 0).active.arm.security = .nonSecure ∧ (nonSec 0 0).active.arm.inItBlock = false ∧
    (nonSec 0 0).active.arm.nsacr7 = true ∧ (nonSec 0 0).active.run = .running ∧ (Instr.rcpPanic true).wellFormed = true ∧
    (stallForever (nonSec 0 0)).active.arm.security = .nonSecure ∧
    (stallForever (nonSec 0 0)).active.arm.inItBlock = false ∧ (stallForever (nonSec 0 0)).active.run = .stalled := by
  decide

end Sys2Proof.Tests
end

/-! SUPPORT. The statements of 10_state.md: what an instruction leaves of the registers, the flags, the counters and the
salts, what a step leaves of a valid salt, the reset, and the two gates before the RCP (the fetch and the access enable).
The frames are case analyses over `exec_acting`, `exec_other` and `step_cases`. -/

namespace Sys2Proof.Machine

/-! ## The Arm part of each core -/

/-- The acting core's Arm part either stays or completes from one of the forms of `ArmAfter`. -/
theorem exec_acting_arm {i : Instr} {s t : State} (h : exec i s = .next t) :
    (t.core s.turn).arm = s.active.arm ∨
    ∃ a, ArmAfter i s a ∧ (t.core s.turn).arm = { a with pc := a.pc + 4 } := by
  rcases exec_acting h with ⟨_, e⟩ | ⟨_, _, _, _, e⟩ | ⟨_, _, _, _, _, rfl⟩ | ⟨_, a, _, ha, _, e⟩ |
    ⟨_, _, _, _, _, _, _, _, _, e⟩ | ⟨_, _, _, _, _, e⟩
  case inr.inr.inl => exact .inl (by simp [raiseRcpFault_withDelay_core])
  case inr.inr.inr.inl => exact .inr ⟨a, ha, by rw [e]⟩
  case inr.inr.inr.inr.inl => exact .inr ⟨_, .inl rfl, by rw [e]⟩
  all_goals exact .inl (by rw [e])

theorem exec_other_arm {i : Instr} {s t : State} (h : exec i s = .next t) :
    (t.core s.turn.other).arm = (s.core s.turn.other).arm := by
  rcases exec_other h with e | ⟨e, _⟩ | ⟨_, _, _, _, _, e⟩ <;> simp [e]

/-- An `mrc` writes no register but its destination, and none at all when that is 15. -/
theorem ArmAfter.reg_eq {i : Instr} {s : State} {a : ArmCore} (ha : ArmAfter i s a) {r : Reg}
    (hr : ¬ (i.mrcDest = some r ∧ r ≠ 15)) : a.x[r] = s.active.arm.x[r] := by
  rcases ha with rfl | ⟨rt, v, hd, rfl, _⟩
  · rfl
  · by_cases h15 : rt = 15
    · subst h15; simp
    · have hne : r ≠ rt := by rintro rfl; exact hr ⟨hd, h15⟩
      rw [ArmCore.readInto_reg _ _ h15, ArmCore.writeReg_read_ne _ _ hne]

theorem ArmAfter.flags_eq {i : Instr} {s : State} {a : ArmCore} (ha : ArmAfter i s a) (hd : i.mrcDest ≠ some 15) :
    a.flags = s.active.arm.flags := by
  rcases ha with rfl | ⟨rt, v, hrt, rfl, _⟩
  · rfl
  · have h15 : rt ≠ 15 := by rintro rfl; exact hd hrt
    rw [ArmCore.readInto_reg _ _ h15, ArmCore.writeReg_flags]

/-- Settles O48: the acting core's registers by `ArmAfter.reg_eq`, the other core's by `exec_other_arm`. -/
theorem onlyMrcWritesARegister : Obligations.OnlyMrcWritesARegister := by
  intro i s t h k r hk
  rcases CoreId.eq_or_other k s.turn with rfl | rfl
  · rcases exec_acting_arm h with e | ⟨a, ha, e⟩
    · rw [e, State.active_def]
    · rw [e]
      exact ha.reg_eq fun hd => hk ⟨rfl, hd⟩
  · rw [exec_other_arm h]

/-- Settles O49: the acting core's flags by `ArmAfter.flags_eq`, the other core's by `exec_other_arm`. -/
theorem onlyMrcToFifteenWritesFlags : Obligations.OnlyMrcToFifteenWritesFlags := by
  intro i s t h k hk
  rcases CoreId.eq_or_other k s.turn with rfl | rfl
  · rcases exec_acting_arm h with e | ⟨a, ha, e⟩
    · rw [e, State.active_def]
    · rw [e]
      exact ha.flags_eq fun hd => hk ⟨rfl, hd⟩
  · rw [exec_other_arm h]

/-! ## The counters and the salts -/

/-- What an instruction leaves of an RCP: its salt's canary part and validity, and the counter unless the instruction is
a count of the acting core; or, as a salt write does, the counter of an RCP whose salt was invalid. -/
theorem exec_rcp_frame {i : Instr} {s t : State} (h : exec i s = .next t) (k : CoreId) :
    (¬ (k = s.turn ∧ i.isCount = true) → (t.core k).rcp.seq = (s.core k).rcp.seq) ∧
    ((t.core k).rcp.saltLow = (s.core k).rcp.saltLow ∧ (t.core k).rcp.saltValid = (s.core k).rcp.saltValid ∨
      i.saltTarget = some k ∧ (s.core k).rcp.saltValid = false) := by
  rcases CoreId.eq_or_other k s.turn with rfl | rfl
  · rcases exec_acting h with ⟨_, e⟩ | ⟨_, _, _, _, e⟩ | ⟨_, _, _, _, _, rfl⟩ | ⟨_, _, _, _, hr, e⟩ |
      ⟨_, _, _, k, _, _, _, hk, hv, e⟩ | ⟨_, _, _, _, _, e⟩
    case inr.inr.inl => simp [raiseRcpFault_withDelay_core, CoreState.trigger_rcp, State.active_def]
    case inr.inr.inr.inl =>
      obtain ⟨p, d, q, rfl, hq, _⟩ := hr
      simpa [e, State.active_def] using hq
    case inr.inr.inr.inr.inl =>
      by_cases hkt : k = s.turn
      · subst hkt; simp [e, hk, hv, State.active_def]
      · simp [e, hkt, State.active_def]
    all_goals simp [e, State.active_def]
  · rcases exec_other h with e | ⟨e, _⟩ | ⟨ht, hk, hv, _, _, e⟩
    · simp [e]
    · simp [e, CoreState.trigger_rcp]
    · have hk' : i.saltTarget = some s.turn.other := by rw [hk, ht]; rfl
      simp [e, hk', hv]

/-- Settles O52, by `exec_rcp_frame`. -/
theorem counterAndSaltFrame : Obligations.CounterAndSaltFrame := by
  intro i s t h
  constructor
  · intro k
    exact (exec_rcp_frame h k).1
  · intro k hk
    exact (exec_rcp_frame h k).2.resolve_right fun ⟨hw, _⟩ => hk hw

/-- Settles O53: the three things `exec_other` leaves of the core that is not acting. -/
theorem onlyTwoLinksBetweenTheCores : Obligations.OnlyTwoLinksBetweenTheCores := by
  intro i s t h
  rcases exec_other h with e | ⟨e, _, _, hend⟩ | ⟨ht, hk, _, _, v, e⟩
  · simp [e]
  · simp [e, hend, CoreState.trigger_rcp, Rcp.salt]
  · refine ⟨?_, ?_, ?_, ?_, ?_, fun hn => absurd ⟨ht, hk⟩ hn, .inl ?_⟩ <;> simp [e]

/-! ## A valid salt over a step -/

@[simp] theorem raiseUsageFault_rcp (s : State) (k : CoreId) :
    ((raiseUsageFault s).core k).rcp = (s.core k).rcp := by
  rcases CoreId.eq_or_other k s.turn with rfl | rfl <;> simp [raiseUsageFault, State.active_def]

@[simp] theorem stallForever_rcp (s : State) (k : CoreId) : ((stallForever s).core k).rcp = (s.core k).rcp := by
  rcases CoreId.eq_or_other k s.turn with rfl | rfl <;> simp [State.active_def]

/-- A stalled core's turn changes no salt. -/
theorem stalledTick_salt (s : State) (k : CoreId) :
    ((stalledTick s).core k).rcp.saltValid = (s.core k).rcp.saltValid ∧
    ((stalledTick s).core k).rcp.saltLow = (s.core k).rcp.saltLow := by
  rcases CoreId.eq_or_other k s.turn with rfl | rfl
  · simp [stalledTick_rcp, State.active_def]
  · simp

/-- Settles O56: of all that a step can do (`step_cases`) only an instruction writes a salt, and only an invalid one
(`exec_rcp_frame`). -/
theorem validSaltStays : Obligations.ValidSaltStays := by
  intro s t k h hv
  rcases step_cases h with ⟨_, rfl⟩ | ⟨_, u, rfl, ⟨i, hi⟩ | ⟨_, rfl⟩ | ⟨_, rfl | rfl⟩⟩
  · simpa [hv] using stalledTick_salt s k
  · have hkept := (exec_rcp_frame hi k).2.resolve_right fun ⟨_, hinvalid⟩ => by simp [hv] at hinvalid
    simpa [hv, and_comm] using hkept
  · simp [hv]
  · have hf := raiseRcpFault_faulted .invalidInstruction s
    simp [hf.saltValid, hf.saltLow, hv]
  · simp [hv]

/-! ## The fetch -/

/-- A step of a core that is running issues what it fetches. -/
theorem step_of_running {s : State} (hr : s.active.run = .running) (he : s.active.ended ≠ some .undefInstr) :
    step s = passTurn (issueNext exec s) := by
  simp only [step, cycle, coreStep, hr, if_neg he]

theorem fetchWord_of_odd {s : State} (h0 : s.active.arm.pc.getLsbD 0 = true) : fetchWord s = .refused .misalignedPc := by
  simp only [fetchWord, h0, if_true]

theorem fetchWord_of_high {s : State} (h0 : s.active.arm.pc.getLsbD 0 = false)
    (hp : 0xfffffffb < s.active.arm.pc.toNat) : fetchWord s = .refused .pcTooHigh := by
  simp only [fetchWord, h0, hp, if_true, Bool.false_eq_true, if_false]

theorem fetchWord_of_unloaded {s : State} (h0 : s.active.arm.pc.getLsbD 0 = false)
    (hp : s.active.arm.pc.toNat ≤ 0xfffffffb) (hw : readWord s.mem s.active.arm.pc = none) :
    fetchWord s = .fault .fetchUnwritten := by
  simp only [fetchWord, h0, Nat.not_lt.mpr hp, hw, Bool.false_eq_true, if_false]

/-- A word with an unloaded byte cannot be read. -/
theorem readWord_eq_none {m : List Host.Cell} {a : Word}
    (h : readByte m a.toNat = none ∨ readByte m (a + 1).toNat = none ∨ readByte m (a + 2).toNat = none ∨
      readByte m (a + 3).toNat = none) : readWord m a = none := by
  unfold readWord
  split
  · simp_all
  · rfl

/-- Settles O9: the three ways `fetchWord` ends without a word. -/
theorem fetchStops : Obligations.FetchStops := by
  intro s hr he
  rw [step_of_running hr he]
  refine ⟨fun h0 => ?_, fun h0 hp => ?_, fun h0 hp hb => ?_⟩
  · simp only [issueNext, fetchWord_of_odd h0, passTurn]
  · simp only [issueNext, fetchWord_of_high h0 hp, passTurn]
  · simp only [issueNext, fetchWord_of_unloaded h0 hp (readWord_eq_none hb), passTurn]

/-! ## Reset -/

@[simp] theorem State.reset_core (k : CoreId) : State.reset.core k = CoreState.reset := by cases k <;> rfl

/-- The reset event leaves of a core its interrupts to come, and nothing else. -/
@[simp] theorem State.warmReset_core (s : State) (k : CoreId) :
    s.warmReset.core k = { CoreState.reset with irqs := (s.core k).irqs } := by cases k <;> rfl

/-- Settles O54: both cores are `CoreState.reset`, which is running, not ended, not faulted and at pc 0. -/
theorem invariantAtReset : Obligations.InvariantAtReset where
  memWf := rfl
  pcEven k := by rw [State.reset_core]; rfl
  endedFaulted k c h := by rw [State.reset_core] at h; cases h
  faultEnded k h := by rw [State.fault, State.reset_core] at h; cases h
  stalledFault k h := by rw [State.reset_core] at h; cases h
  faultDiffers k h := by rw [State.fault, State.reset_core] at h; cases h

/-- Settles O58: each core after either reset is `CoreState.reset` but for its interrupts to come. -/
theorem resetClearsFaultsAndSalts : Obligations.ResetClearsFaultsAndSalts := by
  intro s k
  simp only [State.fault, State.nmi, State.reset_core, State.warmReset_core]
  exact ⟨⟨rfl, rfl, rfl, rfl⟩, rfl, rfl, rfl, rfl, rfl⟩

/-! ## The access gate -/

/-- An instruction whose access is not enabled is refused. -/
theorem exec_of_cp7Disabled (i : Instr) {s : State} (hit : s.active.arm.inItBlock = false)
    (hen : s.active.arm.cp7Enabled = false) : exec i s = .refused .cp7Disabled := by
  obtain ⟨q, sb, nb, he, _⟩ := exec_issue i s
  simp [he, rcpExecute, issueRefusal, hit, hen]

/-- Non-secure code cannot set the enable while NSACR bit 7 is clear. -/
theorem ArmCore.writeCpacrNs7_closed {a : ArmCore} (hs : a.security = .nonSecure) (hg : a.nsacr7 = false) :
    a.writeCpacrNs7 true = a := by
  simp [ArmCore.writeCpacrNs7, hs, hg]

/-- Non-secure code sets the enable while NSACR bit 7 is set. -/
theorem ArmCore.writeCpacrNs7_open {a : ArmCore} (hs : a.security = .nonSecure) (hg : a.nsacr7 = true) :
    a.writeCpacrNs7 true = { a with cpacrNs7 := true } := by
  simp [ArmCore.writeCpacrNs7, hs, hg]

/-- Code that would leave the Arm part as it is leaves it, whether the core runs or not. -/
theorem CoreState.ownCode_arm_eq_self (k : CoreState) {f : ArmCore → ArmCore} (h : f k.arm = k.arm) :
    (k.ownCode f).arm = k.arm := by
  cases hr : k.run with
  | stalled => rw [k.ownCode_stalled f hr]
  | running => rw [k.ownCode_arm f hr, h]

/-- Settles O59: a closed gate leaves the access disabled, an open one enables it, and a stalled core writes nothing. -/
theorem nonSecureAccessGate : Obligations.NonSecureAccessGate := by
  intro s i hs hit
  refine ⟨fun hg hc => ?_, fun hg hr hw => ?_, s.writeCpacrNs7_stalled true⟩
  · have harm : (s.writeCpacrNs7 true).active.arm = s.active.arm := by
      rw [State.writeCpacrNs7_active]
      exact CoreState.ownCode_arm_eq_self _ (ArmCore.writeCpacrNs7_closed hs hg)
    apply exec_of_cp7Disabled
    · rw [harm, hit]
    · simp only [harm, ArmCore.cp7Enabled, hs, hc]
  · have harm : (s.writeCpacrNs7 true).active.arm = { s.active.arm with cpacrNs7 := true } := by
      rw [State.writeCpacrNs7_active, CoreState.ownCode_arm _ _ hr, ArmCore.writeCpacrNs7_open hs hg]
    refine ⟨?_, ?_, hw⟩
    · rw [harm, hit]
    · simp only [harm, ArmCore.cp7Enabled, hs]

end Sys2Proof.Machine

/-! SUPPORT. The statements of 20_memory.md: no instruction reads or writes memory. Each operation of the state commutes
with putting another memory in place (`State.withMem`), so the common sequence and the rule of every instruction do the
same whatever memory holds (`UsesNoMemory`). -/

namespace Sys2Proof.Machine

/-! ## Another memory -/

/-- The state with another memory. -/
def State.withMem (s : State) (m : List Host.Cell) : State := { s with mem := m }

section
variable (s : State) (m : List Host.Cell)

@[simp] theorem State.withMem_core (k : CoreId) : (s.withMem m).core k = s.core k := by cases k <;> rfl
@[simp] theorem State.withMem_turn : (s.withMem m).turn = s.turn := rfl
@[simp] theorem State.withMem_draws : (s.withMem m).draws = s.draws := rfl
@[simp] theorem State.withMem_active : (s.withMem m).active = s.active := State.withMem_core ..
@[simp] theorem State.withMem_reg (r : Reg) : (s.withMem m).reg r = s.reg r := by simp [State.reg]
@[simp] theorem State.withMem_cpwdata64 (rt rt2 : Reg) : (s.withMem m).cpwdata64 rt rt2 = s.cpwdata64 rt rt2 := by
  simp [State.cpwdata64]
@[simp] theorem State.withMem_randomGeneration : (s.withMem m).randomGeneration = s.randomGeneration := by
  simp [State.randomGeneration]

@[simp] theorem State.withMem_setCore (k : CoreId) (c : CoreState) :
    (s.withMem m).setCore k c = (s.setCore k c).withMem m := by cases k <;> rfl
@[simp] theorem State.withMem_nextDraw : (s.withMem m).nextDraw = s.nextDraw.withMem m := rfl
@[simp] theorem State.withMem_setActive (c : CoreState) : (s.withMem m).setActive c = (s.setActive c).withMem m := by
  simp [State.setActive]
@[simp] theorem State.withMem_setRcp (r : Rcp) : (s.withMem m).setRcp r = (s.setRcp r).withMem m := by
  simp [State.setRcp]
@[simp] theorem State.withMem_setSeq (q : BitVec 8) : (s.withMem m).setSeq q = (s.setSeq q).withMem m := by
  simp [State.setSeq]
@[simp] theorem State.withMem_advanceGenerator : (s.withMem m).advanceGenerator = s.advanceGenerator.withMem m := by
  simp [State.advanceGenerator]
@[simp] theorem State.withMem_readInto (rt : Reg) (v : Word) :
    (s.withMem m).readInto rt v = (s.readInto rt v).withMem m := by simp [State.readInto]
@[simp] theorem State.withMem_crossTrigger : (s.withMem m).crossTrigger = s.crossTrigger.withMem m := by
  simp [State.crossTrigger]
@[simp] theorem raiseRcpFault_withMem (c : RcpCause) :
    raiseRcpFault c (s.withMem m) = (raiseRcpFault c s).withMem m := by simp [raiseRcpFault]
@[simp] theorem stallForever_withMem : stallForever (s.withMem m) = (stallForever s).withMem m := by
  simp [stallForever]
@[simp] theorem panicState_withMem : panicState (s.withMem m) = (panicState s).withMem m := by simp [panicState]
@[simp] theorem finish_withMem : finish (s.withMem m) = (finish s).withMem m := by simp [finish]
@[simp] theorem undelayed_withMem : undelayed (s.withMem m) = (undelayed s).withMem m := by simp [undelayed]

end

/-! ## Rules that use no memory -/

/-- The rule does not look at memory: with another memory `m` put in place it answers the same next state but for that
memory, or the same refusal; and it never answers a fault of the machine. -/
def UsesNoMemory (f : State → Out) : Prop :=
  ∀ (s : State) (m : List Host.Cell),
    (∃ t, f s = .next t ∧ f (s.withMem m) = .next (t.withMem m)) ∨
    ∃ r, f s = .refused r ∧ f (s.withMem m) = .refused r

theorem UsesNoMemory.of_eq {f g : State → Out} (h : ∀ s, f s = g s) (hg : UsesNoMemory g) : UsesNoMemory f :=
  funext h ▸ hg

theorem UsesNoMemory.refused (r : Refusal) : UsesNoMemory fun _ => .refused r := fun _ _ => .inr ⟨r, rfl, rfl⟩

theorem UsesNoMemory.next {g : State → State} (h : ∀ s m, g (s.withMem m) = (g s).withMem m) :
    UsesNoMemory fun s => .next (g s) := fun s m => .inl ⟨g s, rfl, congrArg _ (h s m)⟩

/-- A choice on what is not memory. -/
theorem UsesNoMemory.ite {c : State → Prop} [DecidablePred c] {f g : State → Out} (hc : ∀ s m, c (s.withMem m) ↔ c s)
    (hf : UsesNoMemory f) (hg : UsesNoMemory g) : UsesNoMemory fun s => if c s then f s else g s := by
  intro s m
  by_cases h : c s
  · simpa only [hc, h, if_true] using hf s m
  · simpa only [hc, h, if_false] using hg s m

theorem assertThen_usesNoMemory (c : RcpCause) {cond : State → Bool} (h : ∀ s m, cond (s.withMem m) = cond s) :
    UsesNoMemory fun s => assertThen (cond s) c s :=
  .ite (by simp [h]) (.next finish_withMem) (.next (raiseRcpFault_withMem · · c))

theorem noEffect_usesNoMemory : UsesNoMemory noEffect := .next finish_withMem

theorem readThen_usesNoMemory (rt : Reg) {v : State → Word} (h : ∀ s m, v (s.withMem m) = v s) :
    UsesNoMemory fun s => readThen rt (v s) s := .next (by simp [h])

theorem maskedRead_usesNoMemory (rt : Reg) : UsesNoMemory (maskedRead rt) := readThen_usesNoMemory rt fun _ _ => rfl

theorem writeSaltThen_usesNoMemory (k : CoreId) (rt rt2 : Reg) :
    UsesNoMemory fun s => writeSaltThen k (s.cpwdata64 rt rt2) s :=
  .ite (by simp) (.next (raiseRcpFault_withMem · · .saltAlreadyValid)) (.next (by simp))

theorem setSeqMasked_usesNoMemory {v : State → BitVec 8} (h : ∀ s m, v (s.withMem m) = v s) :
    UsesNoMemory (setSeqMasked v) :=
  .next fun s m => by cases hn : Config.nsCountEffect s.draws <;> simp [hn, h]

theorem countCheckThen_usesNoMemory (tag : Tag) : UsesNoMemory (countCheckThen tag) :=
  .ite (by simp) (.next (by simp)) (.next (raiseRcpFault_withMem · · .countMismatch))

theorem randomByteThen_usesNoMemory (rt : Reg) : UsesNoMemory (randomByteThen rt) := .next (by simp)

theorem randomByteMasked_usesNoMemory (rt : Reg) : UsesNoMemory (randomByteMasked rt) :=
  .next fun s m => by cases hn : Config.nsCountEffect s.draws <;> simp [hn]

/-! ## The common sequence and the instructions -/

theorem delayThen_usesNoMemory (q : Issue) {body : State → Out} (hb : UsesNoMemory body) :
    UsesNoMemory (delayThen q body) := by
  intro s m
  by_cases hu : (!q.nd && !q.neverDelayed) = false ∨ s.active.interruptAt s.draws = none ∨
      s.active.rcp.countdown s.draws = 0
  · rw [delayThen_undisturbed q body s _ rfl hu, delayThen_undisturbed q body (s.withMem m) _ rfl (by simpa using hu)]
    simpa using hb (s.setRcp (s.active.rcp.afterDelay (!q.nd && !q.neverDelayed) s.draws)) m
  · simp only [not_or] at hu
    obtain ⟨hn, hi, hc⟩ := hu
    have hq : (q.nd || q.neverDelayed) = false := by simpa using hn
    obtain ⟨irq, hirq⟩ := Option.ne_none_iff_exists'.1 hi
    refine .inl ⟨_, delayThen_abandoned q body s hq hirq hc, ?_⟩
    simpa using delayThen_abandoned q body (s.withMem m) hq (by simpa using hirq) (by simpa using hc)

theorem securePath_usesNoMemory (q : Issue) {body : State → Out} (hb : UsesNoMemory body) :
    UsesNoMemory (securePath q body) := by
  unfold securePath
  cases q.portRefusal with
  | some r => exact .refused r
  | none => exact .ite (by simp) (.next (raiseRcpFault_withMem · · .saltInvalid)) (delayThen_usesNoMemory q hb)

/-- The common sequence of an instruction uses no memory but what its own two rules use. -/
theorem rcpExecute_usesNoMemory (q : Issue) {sb nb : State → Out} (hs : UsesNoMemory sb) (hn : UsesNoMemory nb) :
    UsesNoMemory (rcpExecute q sb nb) := by
  intro s m
  simp only [rcpExecute, State.withMem_active]
  cases issueRefusal s.active.arm q.regsOk with
  | some r => exact .inr ⟨r, rfl, rfl⟩
  | none =>
    cases s.active.rcp.fault with
    | true => exact .inl ⟨stallForever s, rfl, by simp⟩
    | false =>
      cases s.active.arm.security with
      | secure => exact securePath_usesNoMemory q hs s m
      | nonSecure => simpa using hn (undelayed s) m

theorem assertMcr_usesNoMemory {nd : Bool} {rt : Reg} {c : RcpCause} {cond : Word → Bool} :
    UsesNoMemory (assertMcr nd rt c cond) :=
  rcpExecute_usesNoMemory _ (assertThen_usesNoMemory c (by simp)) noEffect_usesNoMemory

theorem assertMcrr_usesNoMemory {nd : Bool} {rt rt2 : Reg} {c : RcpCause} {cond : Word → Word → Bool} :
    UsesNoMemory (assertMcrr nd rt rt2 c cond) :=
  rcpExecute_usesNoMemory _ (assertThen_usesNoMemory c (by simp)) noEffect_usesNoMemory

theorem saltWrite_usesNoMemory (k : CoreId) (nd : Bool) (rt rt2 : Reg) : UsesNoMemory (saltWrite k nd rt rt2) :=
  fun s => rcpExecute_usesNoMemory _ (writeSaltThen_usesNoMemory k rt rt2) (.refused .nonSecureSaltWrite) s

/-- No instruction uses memory, by its own Secure and Non-secure rules. -/
theorem exec_usesNoMemory (i : Instr) : UsesNoMemory (exec i) := by
  cases i with
  | rcpSaltCore0 nd rt rt2 => exact saltWrite_usesNoMemory .core0 nd rt rt2
  | rcpSaltCore1 nd rt rt2 => exact saltWrite_usesNoMemory .core1 nd rt rt2
  | rcpCanaryStatus nd rt =>
    exact rcpExecute_usesNoMemory _ (readThen_usesNoMemory rt (by simp)) (maskedRead_usesNoMemory rt)
  | rcpCanaryGet nd rt tag =>
    exact rcpExecute_usesNoMemory _ (readThen_usesNoMemory rt (by simp)) (maskedRead_usesNoMemory rt)
  | rcpCanaryCheck nd rt tag =>
    exact rcpExecute_usesNoMemory _ (assertThen_usesNoMemory _ (by simp)) noEffect_usesNoMemory
  | rcpBvalid nd rt => exact .of_eq (execRcpBvalid.eq_1 nd rt) assertMcr_usesNoMemory
  | rcpBtrue nd rt => exact .of_eq (execRcpBtrue.eq_1 nd rt) assertMcr_usesNoMemory
  | rcpBfalse nd rt => exact .of_eq (execRcpBfalse.eq_1 nd rt) assertMcr_usesNoMemory
  | rcpB2valid nd rt rt2 => exact .of_eq (execRcpB2valid.eq_1 nd rt rt2) assertMcrr_usesNoMemory
  | rcpB2and nd rt rt2 => exact .of_eq (execRcpB2and.eq_1 nd rt rt2) assertMcrr_usesNoMemory
  | rcpB2or nd rt rt2 => exact .of_eq (execRcpB2or.eq_1 nd rt rt2) assertMcrr_usesNoMemory
  | rcpBxorvalid nd rt rt2 => exact .of_eq (execRcpBxorvalid.eq_1 nd rt rt2) assertMcrr_usesNoMemory
  | rcpBxortrue nd rt rt2 => exact .of_eq (execRcpBxortrue.eq_1 nd rt rt2) assertMcrr_usesNoMemory
  | rcpBxorfalse nd rt rt2 => exact .of_eq (execRcpBxorfalse.eq_1 nd rt rt2) assertMcrr_usesNoMemory
  | rcpIvalid nd rt rt2 => exact .of_eq (execRcpIvalid.eq_1 nd rt rt2) assertMcrr_usesNoMemory
  | rcpIequal nd rt rt2 => exact .of_eq (execRcpIequal.eq_1 nd rt rt2) assertMcrr_usesNoMemory
  | rcpRandomByte nd rt =>
    exact rcpExecute_usesNoMemory _ (randomByteThen_usesNoMemory rt) (randomByteMasked_usesNoMemory rt)
  | rcpCountSet nd rt tag =>
    exact rcpExecute_usesNoMemory _ (.next (by simp)) (setSeqMasked_usesNoMemory fun _ _ => rfl)
  | rcpCountCheck nd rt tag =>
    exact rcpExecute_usesNoMemory _ (countCheckThen_usesNoMemory tag) (setSeqMasked_usesNoMemory (by simp))
  | rcpPanic nd => exact rcpExecute_usesNoMemory _ (.next panicState_withMem) (.refused .nonSecurePanic)

/-- A next state of an instruction leaves memory as it was. -/
theorem exec_mem {i : Instr} {s t : State} (h : exec i s = .next t) : t.mem = s.mem := by
  rcases exec_cases h with _ | ⟨_, _, _, _, _, rfl⟩ | _ | _ | _ | _ <;> simp [State.withArmRcp, panicState]

/-- Settles O51: what is read stays by `exec_mem`; that another memory changes nothing and that there is no fault of the
machine is `exec_usesNoMemory`. -/
theorem instructionsUseNoMemory : Obligations.InstructionsUseNoMemory := by
  intro i s m
  rcases exec_usesNoMemory i s m with ⟨t, h, hm⟩ | ⟨r, h, hm⟩
  · refine ⟨fun u hu => ?_, by simp [h], by simp [h]⟩
    obtain rfl : t = u := by simpa [h] using hu
    exact ⟨fun a => by rw [exec_mem h], hm⟩
  · refine ⟨by simp [h], by simp [h], fun q hq => ?_⟩
    obtain rfl : r = q := by simpa [h] using hq
    exact hm

end Sys2Proof.Machine

/-! SUPPORT. The statements of 30_encoding.md. Row and encoder agree (`OpcodeRow.Encodes`): the encoding of the
instruction a row builds is selected by the row, and it is the word the row built from. Both directions of the round
trip follow (`decodeWord_eq_ok_iff`). Then: what the parity bit and bit 28 do to a word, what stops a word before it is
executed, and that an instruction and its other variant do the same but for the delay (`exec_flipNd`). -/

namespace Sys2Proof

/-! ## A word is what a row's mask holds and its free fields -/

theorem bit_eq_of_masked {a b m : Word} (hm : a &&& m = b &&& m) {i : Nat} (hi : m.getLsbD i = true) :
    a.getLsbD i = b.getLsbD i := by
  rw [← bit_masked a m i hi, hm, bit_masked b m i hi]

theorem bit_eq_of_extract {a b : Word} {lo n i : Nat} (h : a.extractLsb' lo n = b.extractLsb' lo n) (h1 : lo ≤ i)
    (h2 : i < lo + n) : a.getLsbD i = b.getLsbD i := by
  have hbit := congrArg (·.getLsbD (i - lo)) h
  simpa [show i - lo < n by omega, show lo + (i - lo) = i by omega] using hbit

theorem bit_eq_of_fieldRt {a b : Word} (h : fieldRt a = fieldRt b) {i : Nat} (h1 : 12 ≤ i) (h2 : i < 16) :
    a.getLsbD i = b.getLsbD i := bit_eq_of_extract (BitVec.toFin_inj.1 h) h1 h2

theorem bit_eq_of_fieldRt2 {a b : Word} (h : fieldRt2 a = fieldRt2 b) {i : Nat} (h1 : 16 ≤ i) (h2 : i < 20) :
    a.getLsbD i = b.getLsbD i := bit_eq_of_extract (BitVec.toFin_inj.1 h) h1 h2

@[simp] theorem tagCrn_fieldTag (w : Word) : tagCrn (fieldTag w) = fieldCrn w := BitVec.extractLsb'_append_eq_left
@[simp] theorem tagCrm_fieldTag (w : Word) : tagCrm (fieldTag w) = fieldCrm w := BitVec.extractLsb'_append_eq_right

theorem bit_eq_of_fieldTag {a b : Word} (h : fieldTag a = fieldTag b) {i : Nat} (hi : i < 4 ∨ 16 ≤ i ∧ i < 20) :
    a.getLsbD i = b.getLsbD i := by
  have hcrn : fieldCrn a = fieldCrn b := by simpa using congrArg tagCrn h
  have hcrm : fieldCrm a = fieldCrm b := by simpa using congrArg tagCrm h
  rcases hi with hi | ⟨h1, h2⟩
  · exact bit_eq_of_extract hcrm (Nat.zero_le i) (by omega)
  · exact bit_eq_of_extract hcrn h1 h2

/-- Two words that a mask does not tell apart are equal if the mask's free bits are. -/
theorem eq_of_masked {a b m : Word} (hm : a &&& m = b &&& m)
    (hfree : ∀ i < 32, m.getLsbD i = false → a.getLsbD i = b.getLsbD i) : a = b := by
  apply BitVec.eq_of_getLsbD_eq
  intro i hi
  cases hb : m.getLsbD i with
  | true => exact bit_eq_of_masked hm hb
  | false => exact hfree i hi hb

theorem eq_of_mcrr_fields {a b : Word} (hm : a &&& 0xEFF00FFF = b &&& 0xEFF00FFF) (hnd : fieldNd a = fieldNd b)
    (hrt : fieldRt a = fieldRt b) (hrt2 : fieldRt2 a = fieldRt2 b) : a = b := by
  have hfields : ∀ i < 32, (0xEFF00FFF : Word).getLsbD i = false → i = 28 ∨ (12 ≤ i ∧ i < 16) ∨ (16 ≤ i ∧ i < 20) := by
    decide
  refine eq_of_masked hm fun i hi hb => ?_
  rcases hfields i hi hb with rfl | ⟨h1, h2⟩ | ⟨h1, h2⟩
  · exact hnd
  · exact bit_eq_of_fieldRt hrt h1 h2
  · exact bit_eq_of_fieldRt2 hrt2 h1 h2

theorem eq_of_noTag_fields {a b : Word} (hm : a &&& 0xEFFF0FFF = b &&& 0xEFFF0FFF) (hnd : fieldNd a = fieldNd b)
    (hrt : fieldRt a = fieldRt b) : a = b := by
  have hfields : ∀ i < 32, (0xEFFF0FFF : Word).getLsbD i = false → i = 28 ∨ (12 ≤ i ∧ i < 16) := by decide
  refine eq_of_masked hm fun i hi hb => ?_
  rcases hfields i hi hb with rfl | ⟨h1, h2⟩
  · exact hnd
  · exact bit_eq_of_fieldRt hrt h1 h2

theorem eq_of_tag_fields {a b : Word} (hm : a &&& 0xEFF00FF0 = b &&& 0xEFF00FF0) (hnd : fieldNd a = fieldNd b)
    (hrt : fieldRt a = fieldRt b) (htag : fieldTag a = fieldTag b) : a = b := by
  have hfields : ∀ i < 32, (0xEFF00FF0 : Word).getLsbD i = false →
      i = 28 ∨ (12 ≤ i ∧ i < 16) ∨ (i < 4 ∨ 16 ≤ i ∧ i < 20) := by decide
  refine eq_of_masked hm fun i hi hb => ?_
  rcases hfields i hi hb with rfl | ⟨h1, h2⟩ | h
  · exact hnd
  · exact bit_eq_of_fieldRt hrt h1 h2
  · exact bit_eq_of_fieldTag htag h

theorem eq_of_cdp_fields {a b : Word} (hm : a &&& 0xEFFFFFFF = b &&& 0xEFFFFFFF) (hnd : fieldNd a = fieldNd b) :
    a = b := by
  have hfields : ∀ i < 32, (0xEFFFFFFF : Word).getLsbD i = false → i = 28 := by decide
  refine eq_of_masked hm fun i hi hb => ?_
  obtain rfl := hfields i hi hb
  exact hnd

/-! ## Each row and the encoder agree -/

/-- The encoding of the instruction the row builds is selected by the row, and it is the word the row built from. -/
structure OpcodeRow.Encodes (r : OpcodeRow) : Prop where
  selects_encode : ∀ w, r.selects (encode (r.build w)) = true
  encode_build : ∀ w, r.selects w = true → encode (r.build w) = w

theorem OpcodeRow.selects_iff {r : OpcodeRow} {w : Word} : r.selects w = true ↔ w &&& r.mask = r.pattern := by
  simp [OpcodeRow.selects]

/-- If the encodings all stand in the row, a selected word that agrees with its instruction's encoding on the row's mask
is that encoding. -/
theorem OpcodeRow.Encodes.of_masked {r : OpcodeRow} (hm : ∀ w, encode (r.build w) &&& r.mask = r.pattern)
    (he : ∀ w, encode (r.build w) &&& r.mask = w &&& r.mask → encode (r.build w) = w) : r.Encodes where
  selects_encode w := OpcodeRow.selects_iff.2 (hm w)
  encode_build w hs := he w ((hm w).trans (OpcodeRow.selects_iff.1 hs).symm)

theorem rowMcrr_encodes {p : Word} {mk : Bool → Reg → Reg → Instr} {opc1 crm : BitVec 4}
    (he : ∀ nd rt rt2, encode (mk nd rt rt2) = encodeMcrrMrrc nd false rt2 rt opc1 crm)
    (hp : 0xEC400700 ||| place (BitVec.ofBool false) 20 ||| place opc1 4 ||| place crm 0 = p) : (rowMcrr p mk).Encodes :=
  .of_masked (fun w => by simp only [rowMcrr, he, encodeMcrrMrrc_masked, hp])
    (fun w hm => eq_of_mcrr_fields hm (by simp [rowMcrr, he]) (by simp [rowMcrr, he]) (by simp [rowMcrr, he]))

theorem rowNoTag_encodes {p : Word} {mk : Bool → Reg → Instr} {l : Bool} {opc1 opc2 : BitVec 3}
    (he : ∀ nd rt, encode (mk nd rt) = encodeMcrMrc nd l opc1 0 rt opc2 0)
    (hp : 0xEE000710 ||| place opc1 21 ||| place (BitVec.ofBool l) 20 ||| place opc2 5 = p) : (rowNoTag p mk).Encodes :=
  .of_masked (fun w => by simp only [rowNoTag, he, encodeMcrMrc_masked_noTag, hp])
    (fun w hm => eq_of_noTag_fields hm (by simp [rowNoTag, he]) (by simp [rowNoTag, he]))

theorem rowTag_encodes {p : Word} {mk : Bool → Reg → Tag → Instr} {l : Bool} {opc1 opc2 : BitVec 3}
    (he : ∀ nd rt tag, encode (mk nd rt tag) = encodeMcrMrc nd l opc1 (tagCrn tag) rt opc2 (tagCrm tag))
    (hp : 0xEE000710 ||| place opc1 21 ||| place (BitVec.ofBool l) 20 ||| place opc2 5 = p) : (rowTag p mk).Encodes :=
  .of_masked (fun w => by simp only [rowTag, he, encodeMcrMrc_masked, hp])
    (fun w hm => eq_of_tag_fields hm (by simp only [rowTag, he, fieldNd_encodeMcrMrc])
      (by simp only [rowTag, he, fieldRt_encodeMcrMrc]) (by simp only [rowTag, he, fieldTag_encodeMcrMrc]))

theorem fieldNd_encode_rcpPanic (nd : Bool) : fieldNd (encode (.rcpPanic nd)) = nd := by cases nd <;> decide

theorem rowCdp_encodes : (rowCdp 0xEE000720 .rcpPanic).Encodes :=
  .of_masked (fun w => by simp only [rowCdp]; cases fieldNd w <;> decide)
    (fun w hm => eq_of_cdp_fields hm (fieldNd_encode_rcpPanic _))

theorem rowsMcrr_encode : ∀ r ∈ rowsMcrr, r.Encodes := by
  simp only [rowsMcrr, List.mem_cons, List.not_mem_nil, or_false, forall_eq_or_imp, forall_eq]
  and_intros <;> exact rowMcrr_encodes (fun _ _ _ => rfl) (by decide)

theorem rowsNoTag_encode : ∀ r ∈ rowsNoTag, r.Encodes := by
  simp only [rowsNoTag, List.mem_cons, List.not_mem_nil, or_false, forall_eq_or_imp, forall_eq]
  and_intros <;> exact rowNoTag_encodes (fun _ _ => rfl) (by decide)

theorem rowsTag_encode : ∀ r ∈ rowsTag, r.Encodes := by
  simp only [rowsTag, List.mem_cons, List.not_mem_nil, or_false, forall_eq_or_imp, forall_eq]
  and_intros <;> exact rowTag_encodes (fun _ _ _ => rfl) (by decide)

theorem rows_encode : ∀ r ∈ opcodeMap, r.Encodes := by
  simp only [opcodeMap, List.forall_mem_append, List.forall_mem_singleton]
  exact ⟨⟨⟨rowsMcrr_encode, rowsNoTag_encode⟩, rowsTag_encode⟩, rowCdp_encodes⟩

/-- Every instruction is what its row builds from its encoding. -/
theorem exists_row_build_encode (i : Instr) : ∃ r ∈ opcodeMap, r.build (encode i) = i := by
  cases i
  case rcpPanic nd =>
    exact ⟨rowCdp 0xEE000720 .rcpPanic, by simp [opcodeMap], congrArg _ (fieldNd_encode_rcpPanic nd)⟩
  all_goals simp [opcodeMap, rowsMcrr, rowsNoTag, rowsTag, rowMcrr, rowNoTag, rowTag, rowCdp, encode]

/-! ## Decoding is the inverse of encoding -/

open Laws.EncodedWord in
/-- The encoding of every instruction has a class and is valid in it. -/
theorem encodedWord (i : Instr) : Statement i := by
  cases i with
  | rcpSaltCore0 nd rt rt2 => exact rcpSaltCore0 nd rt rt2
  | rcpSaltCore1 nd rt rt2 => exact rcpSaltCore1 nd rt rt2
  | rcpCanaryStatus nd rt => exact rcpCanaryStatus nd rt
  | rcpCanaryGet nd rt tag => exact rcpCanaryGet nd rt tag
  | rcpCanaryCheck nd rt tag => exact rcpCanaryCheck nd rt tag
  | rcpBvalid nd rt => exact rcpBvalid nd rt
  | rcpBtrue nd rt => exact rcpBtrue nd rt
  | rcpBfalse nd rt => exact rcpBfalse nd rt
  | rcpB2valid nd rt rt2 => exact rcpB2valid nd rt rt2
  | rcpB2and nd rt rt2 => exact rcpB2and nd rt rt2
  | rcpB2or nd rt rt2 => exact rcpB2or nd rt rt2
  | rcpBxorvalid nd rt rt2 => exact rcpBxorvalid nd rt rt2
  | rcpBxortrue nd rt rt2 => exact rcpBxortrue nd rt rt2
  | rcpBxorfalse nd rt rt2 => exact rcpBxorfalse nd rt rt2
  | rcpIvalid nd rt rt2 => exact rcpIvalid nd rt rt2
  | rcpIequal nd rt rt2 => exact rcpIequal nd rt rt2
  | rcpRandomByte nd rt => exact rcpRandomByte nd rt
  | rcpCountSet nd rt tag => exact rcpCountSet nd rt tag
  | rcpCountCheck nd rt tag => exact rcpCountCheck nd rt tag
  | rcpPanic nd => exact rcpPanic nd

/-- A word decodes to an instruction only if its class accepts it and a row builds the instruction from it. -/
theorem row_of_decodeWord {w : Word} {i : Instr} (h : decodeWord w = .ok i) :
    ∃ c, classOf w = .ok c ∧ validWord c w = true ∧ ∃ r ∈ opcodeMap, r.selects w = true ∧ r.build w = i := by
  unfold decodeWord at h
  cases hc : classOf w with
  | error e => simp [hc] at h
  | ok c =>
    cases hv : validWord c w with
    | false => simp [hc, hv] at h
    | true =>
      cases hf : opcodeMap.find? (·.selects w) with
      | none => simp [hc, hv, lookupRow, hf] at h
      | some r =>
        have hb : r.build w = i := by simpa [hc, hv, lookupRow, hf] using h
        exact ⟨c, rfl, hv, r, List.mem_of_find?_eq_some hf, by simpa using List.find?_some hf, hb⟩

theorem decodeWord_encode (i : Instr) : decodeWord (encode i) = .ok i := by
  obtain ⟨c, hc, hv⟩ := encodedWord i
  obtain ⟨r, hr, hb⟩ := exists_row_build_encode i
  have hs : r.selects (encode i) = true := by simpa only [hb] using (rows_encode r hr).selects_encode (encode i)
  rw [decodeWord_of_row hr (OpcodeRow.selects_iff.1 hs) hc hv, hb]

/-- A word decodes to the instruction it encodes, and to no other. -/
theorem decodeWord_eq_ok_iff {w : Word} {i : Instr} : decodeWord w = .ok i ↔ encode i = w := by
  constructor
  · intro h
    obtain ⟨-, -, -, r, hr, hs, rfl⟩ := row_of_decodeWord h
    exact (rows_encode r hr).encode_build w hs
  · rintro rfl
    exact decodeWord_encode i

/-- Settles O1: the bytes of a word decode as the word does, and `decodeWord_encode`. -/
theorem decodeOfEncodeIsTheInstruction : Obligations.DecodeOfEncodeIsTheInstruction := by
  intro i rest
  rw [encodeBytes, decodeBytes_bytesOfWord, decodeWord_encode]

/-- Settles O2, by `decodeWord_eq_ok_iff`. -/
theorem encodeOfDecodeIsTheWord : Obligations.EncodeOfDecodeIsTheWord := fun _ _ => decodeWord_eq_ok_iff.1

/-- Settles O3: two rows differ in a bit that both masks hold (`rows_differ`). -/
theorem noWordSelectsTwoRows : Obligations.NoWordSelectsTwoRows :=
  ⟨rfl, fun _ => rows_differ.imp fun hd ⟨ha, hb⟩ => not_selects_both hd ha hb⟩

/-- Settles O6: each word is the encoding of its instruction. -/
theorem listedWordsDecode : Obligations.ListedWordsDecode := by
  unfold Obligations.ListedWordsDecode
  simp only [decodeWord_eq_ok_iff]
  decide

/-! ## A word with some bits inverted -/

/-- Bits outside a mask can be inverted unseen. -/
theorem xor_masked {w x m : Word} (h : x &&& m = 0) : (w ^^^ x) &&& m = w &&& m := by
  apply BitVec.eq_of_getLsbD_eq
  intro i hi
  have hx : (x.getLsbD i && m.getLsbD i) = false := by simpa using congrArg (·.getLsbD i) h
  rw [BitVec.getLsbD_and, BitVec.getLsbD_xor, BitVec.getLsbD_and, Bool.and_xor_distrib_right, hx, Bool.xor_false]

theorem extract_xor {x : Word} {lo n : Nat} (h : x.extractLsb' lo n = 0) (w : Word) :
    (w ^^^ x).extractLsb' lo n = w.extractLsb' lo n := by
  rw [BitVec.extractLsb'_xor, h]; exact BitVec.xor_zero

theorem bit_xor {x : Word} {i : Nat} (h : x.getLsbD i = false) (w : Word) : (w ^^^ x).getLsbD i = w.getLsbD i := by
  rw [BitVec.getLsbD_xor, h, Bool.xor_false]

theorem bit_xor_not {x : Word} {i : Nat} (h : x.getLsbD i = true) (w : Word) : (w ^^^ x).getLsbD i = !w.getLsbD i := by
  rw [BitVec.getLsbD_xor, h, Bool.xor_true]

/-- The class of a word is decided by bits 31:29, 27:20, 11:8 and 4 (30_encoding.md R61). -/
theorem classOf_mask (w : Word) : classOf (w &&& 0xEFF00F10) = classOf w := by
  unfold classOf fieldCoproc
  rw [extract_masked w _ 8 4 (by decide), extract_masked w _ 29 3 (by decide), extract_masked w _ 26 2 (by decide),
    extract_masked w _ 24 4 (by decide), extract_masked w _ 21 7 (by decide), bit_masked w _ 4 (by decide),
    bit_masked w _ 20 (by decide)]

theorem classOf_xor {x : Word} (h : x &&& 0xEFF00F10 = 0) (w : Word) : classOf (w ^^^ x) = classOf w := by
  rw [← classOf_mask, xor_masked h, classOf_mask]

/-! ## The parity bit -/

/-- Of the two values of the parity bit the rule accepts one (30_encoding.md R57). -/
@[simp] theorem parityOk_not {n : Nat} (v : BitVec n) (p : Bool) : parityOk v (!p) = !parityOk v p := by
  rcases Nat.mod_two_eq_zero_or_one (popcount v) with h | h <;> cases p <;> simp [parityOk, parityOdd, Nat.add_mod, h]

theorem parityOk_xor {x : Word} {lo n i : Nat} (ho : x.extractLsb' lo n = 0) (hp : x.getLsbD i = true) (w : Word) :
    parityOk ((w ^^^ x).extractLsb' lo n) ((w ^^^ x).getLsbD i) = !parityOk (w.extractLsb' lo n) (w.getLsbD i) := by
  rw [extract_xor ho, bit_xor_not hp, parityOk_not]

@[simp] theorem classOf_xor_parityMask (c : Cls) (w : Word) : classOf (w ^^^ c.parityMask) = classOf w :=
  classOf_xor (by cases c <;> decide) w

/-- A valid word is not valid with the other parity bit. -/
theorem validWord_xor_parityMask {c : Cls} {w : Word} (h : validWord c w = true) :
    validWord c (w ^^^ c.parityMask) = false := by
  cases c with
  | mcr | mrc =>
    obtain ⟨⟨hpar, -⟩, -⟩ := by simpa only [validWord, Bool.and_eq_true] using h
    rw [validWord, fieldOpc1Mcr, parityOk_xor (by decide) (by decide), ← fieldOpc1Mcr, hpar]
    rfl
  | mcrr =>
    obtain ⟨⟨hpar, -⟩, -⟩ := by simpa only [validWord, Bool.and_eq_true] using h
    rw [validWord, fieldOpc1Mcrr, parityOk_xor (by decide) (by decide), ← fieldOpc1Mcrr, hpar]
    rfl
  | mrrc => rfl
  | cdp =>
    rw [validWord, fieldOpc1Cdp, parityOk_xor (by decide) (by decide)]
    exact congrArg Bool.not h

/-- Settles O4: the class stays, and a listed word is valid in it. -/
theorem flippedParityBitIsInvalid : Obligations.FlippedParityBitIsInvalid := by
  intro w c i hc hd
  obtain ⟨c', hc', hv, -⟩ := row_of_decodeWord hd
  obtain rfl : c = c' := by simpa [hc] using hc'
  simp [decodeWord, hc, validWord_xor_parityMask hv]

/-! ## The no-delay bit -/

/-- The no-delay bit of an instruction word (30_encoding.md R54). -/
def ndMask : Word := 0x10000000

@[simp] theorem classOf_xor_nd (w : Word) : classOf (w ^^^ ndMask) = classOf w := classOf_xor (by decide) w

/-- Validation does not look at the no-delay bit. -/
@[simp] theorem validWord_xor_nd (c : Cls) (w : Word) : validWord c (w ^^^ ndMask) = validWord c w := by
  unfold validWord noTag fieldOpc1Mcr fieldOpc1Mcrr fieldOpc1Cdp fieldCrn fieldCrm
  rw [extract_xor (by decide), extract_xor (by decide), extract_xor (by decide), extract_xor (by decide),
    extract_xor (by decide), extract_xor (by decide), bit_xor (by decide), bit_xor (by decide)]

@[simp] theorem fieldNd_xor_nd (w : Word) : fieldNd (w ^^^ ndMask) = !fieldNd w := bit_xor_not (by decide) w
@[simp] theorem fieldRt_xor_nd (w : Word) : fieldRt (w ^^^ ndMask) = fieldRt w :=
  congrArg regOf (extract_xor (by decide) w)
@[simp] theorem fieldRt2_xor_nd (w : Word) : fieldRt2 (w ^^^ ndMask) = fieldRt2 w :=
  congrArg regOf (extract_xor (by decide) w)
@[simp] theorem fieldTag_xor_nd (w : Word) : fieldTag (w ^^^ ndMask) = fieldTag w := by
  have hcrn : fieldCrn (w ^^^ ndMask) = fieldCrn w := extract_xor (by decide) w
  have hcrm : fieldCrm (w ^^^ ndMask) = fieldCrm w := extract_xor (by decide) w
  rw [fieldTag, hcrn, hcrm, fieldTag]

/-- No row looks at the no-delay bit. -/
theorem rows_mask_nd : ∀ r ∈ opcodeMap, ndMask &&& r.mask = 0 := by decide

theorem rows_selects_xor_nd {r : OpcodeRow} (hr : r ∈ opcodeMap) (w : Word) :
    r.selects (w ^^^ ndMask) = r.selects w := by
  rw [OpcodeRow.selects, xor_masked (rows_mask_nd r hr), OpcodeRow.selects]

/-- From a word with the other no-delay bit every row builds the other variant. -/
theorem rows_build_xor_nd : ∀ r ∈ opcodeMap, ∀ w, r.build (w ^^^ ndMask) = (r.build w).flipNd := by
  simp [opcodeMap, rowsMcrr, rowsNoTag, rowsTag, rowMcrr, rowNoTag, rowTag, rowCdp, Instr.flipNd]

theorem lookupRow_xor_nd (w : Word) : lookupRow (w ^^^ ndMask) = (lookupRow w).map Instr.flipNd := by
  have hfind : opcodeMap.find? (·.selects (w ^^^ ndMask)) = opcodeMap.find? (·.selects w) :=
    List.find?_congr fun r hr => rows_selects_xor_nd hr w
  rw [lookupRow, hfind, lookupRow, Option.map_map]
  exact Option.map_congr fun r hr => rows_build_xor_nd r (List.mem_of_find?_eq_some hr) w

/-- Settles O5: class and validation do not look at bit 28, and the row that is looked up builds the other variant. -/
theorem noDelayBitOnlySelectsTheVariant : Obligations.NoDelayBitOnlySelectsTheVariant := by
  intro w
  change decodeWord (w ^^^ ndMask) = _
  unfold decodeWord
  rw [classOf_xor_nd, lookupRow_xor_nd]
  cases classOf w with
  | error e => rfl
  | ok c =>
    simp only [validWord_xor_nd]
    cases validWord c w with
    | false => rfl
    | true => cases lookupRow w <;> rfl

end Sys2Proof

namespace Sys2Proof.Machine

/-! ## What stops a word before it is executed -/

theorem issueRefusal_of_inItBlock {a : ArmCore} (h : a.inItBlock = true) (ok : Bool) :
    issueRefusal a ok = some .inItBlock := by simp [issueRefusal, h]

theorem issueRefusal_of_cp7Disabled {a : ArmCore} (h : a.inItBlock = false) (he : a.cp7Enabled = false) (ok : Bool) :
    issueRefusal a ok = some .cp7Disabled := by simp [issueRefusal, h, he]

theorem issueRefusal_of_regs {a : ArmCore} {ok : Bool} (h : a.inItBlock = false) (he : a.cp7Enabled = true)
    (hr : ok = false) : issueRefusal a ok = some .unpredictableRegister := by simp [issueRefusal, h, he, hr]

theorem exec_of_issueRefusal {i : Instr} {s : State} {r : Refusal}
    (h : issueRefusal s.active.arm i.wellFormed = some r) : exec i s = .refused r := by
  obtain ⟨q, sb, nb, he, -, hok, -⟩ := exec_issue i s
  rw [he, rcpExecute, hok, h]

theorem rcpReject_of_issueRefusal {ok : Bool} {s : State} {r : Refusal} (h : issueRefusal s.active.arm ok = some r)
    (valid : Bool) : rcpReject ok valid s = .refused r := by
  rw [rcpReject, h]

/-- A valid word that is no listed instruction and is sent to the RCP has no meaning. -/
theorem rcpReject_unlisted {ok : Bool} {s : State} (h : issueRefusal s.active.arm ok = none)
    (hf : s.active.rcp.fault = false) : rcpReject ok true s = .refused .unlistedEncoding := by
  simp [rcpReject, h, hf]

/-- A word of a class that is no listed instruction is invalid or unlisted in that class. -/
theorem error_of_classOf {w : Word} {c : Cls} {e : DecodeError} (hc : classOf w = .ok c)
    (h : decodeWord w = .error e) : e = .invalid c ∨ e = .unlisted c := by
  unfold decodeWord at h
  cases hv : validWord c w with
  | false => exact .inl (by simpa [hc, hv] using h.symm)
  | true =>
    cases hl : lookupRow w with
    | none => exact .inr (by simpa [hc, hv, hl] using h.symm)
    | some i => simp [hc, hv, hl] at h

/-- What keeps the words of a class from the RCP does so whether they are listed, invalid or unlisted. -/
theorem executeWord_of_issueRefusal {w : Word} {c : Cls} {s : State} {r : Refusal} (hc : classOf w = .ok c)
    (h : issueRefusal s.active.arm (classRegsOk c w) = some r) : executeWord exec w s = .refused r := by
  cases hd : decodeWord w with
  | ok i =>
    rw [executeWord_of_ok exec s hd]
    exact exec_of_issueRefusal (wellFormed_of_decodeWord hc hd ▸ h)
  | error e =>
    rw [executeWord_of_error exec s hd]
    rcases error_of_classOf hc hd with rfl | rfl
    · exact rcpReject_of_issueRefusal h false
    · exact rcpReject_of_issueRefusal h true

/-- Settles O12: each of the three errors is answered by `executeReject`; an unlisted word passes step 0 and the stall. -/
theorem wordsWithoutMeaningStop : Obligations.WordsWithoutMeaningStop := by
  intro s w hit hen
  refine ⟨fun c hd hr hf => ?_, fun hd => ?_, fun hd => ?_⟩ <;> rw [executeWord_of_error exec s hd]
  · exact rcpReject_unlisted (issueRefusal_none hit hen hr) hf
  · rfl
  · rfl

/-- Settles O13: step 0 refuses an instruction and a word of a class alike. -/
theorem instructionsNotSentAreRefused : Obligations.InstructionsNotSentAreRefused := by
  refine ⟨fun i s => ⟨fun hit => ?_, fun hit hen => ?_, fun hit hen hr => ?_⟩,
    fun w c s hc => ⟨fun hit => ?_, fun hit hen => ?_, fun hit hen hr => ?_⟩⟩
  · exact exec_of_issueRefusal (issueRefusal_of_inItBlock hit _)
  · exact exec_of_cp7Disabled i hit hen
  · exact exec_of_issueRefusal (issueRefusal_of_regs hit hen hr)
  · exact executeWord_of_issueRefusal hc (issueRefusal_of_inItBlock hit _)
  · exact executeWord_of_issueRefusal hc (issueRefusal_of_cp7Disabled hit hen _)
  · exact executeWord_of_issueRefusal hc (issueRefusal_of_regs hit hen hr)

/-! ## The two variants of an instruction -/

/-- The state with the acting core's generator and delay counter cleared. -/
def State.forgetDelay (s : State) : State := s.withDelay 0 0

theorem State.forgetDelay_eq (s : State) :
    s.forgetDelay = s.setActive { s.active with rcp := { s.active.rcp with prng := 0, delay := 0 } } := rfl

/-- States that agree once the delay is forgotten agree but for what a delay changes. -/
theorem sameButDelay_of_forgetDelay {s t : State} (h : s.forgetDelay = t.forgetDelay) : SameButDelay s.turn s t := by
  have hturn : s.turn = t.turn := by simpa [State.forgetDelay] using congrArg State.turn h
  have hother : s.core s.turn.other = t.core t.turn.other := by
    simpa [State.forgetDelay] using congrArg (fun u => u.core u.turn.other) h
  have hcore : s.forgetDelay.core s.turn = t.forgetDelay.core t.turn := by rw [h, hturn]
  rw [State.forgetDelay, State.withDelay_core, State.forgetDelay, State.withDelay_core, State.active_def,
    State.active_def] at hcore
  rw [← hturn] at hother hcore
  refine ⟨hother, hcore, hturn, ?_, ?_, ?_⟩
  · simpa [State.forgetDelay] using congrArg State.turns h
  · simpa [State.forgetDelay] using congrArg State.draws h
  · simpa [State.forgetDelay] using congrArg State.mem h

theorem State.nextDraw_setActive (s : State) (c : CoreState) : s.nextDraw.setActive c = (s.setActive c).nextDraw := by
  unfold State.setActive; cases h : s.turn <;> simp [State.setCore, State.nextDraw, h]

theorem State.crossTrigger_setActive (s : State) (c : CoreState) :
    (s.setActive c).crossTrigger = s.crossTrigger.setActive c := by
  cases h : s.turn <;> simp [State.crossTrigger, State.setActive, State.setCore, State.core, CoreId.other, h]

/-! Each operation does the same to a state whose delay is forgotten. -/

section
variable (s : State)

@[simp] theorem forgetDelay_withDelay (p : BitVec 24) (d : BitVec 7) :
    (s.withDelay p d).forgetDelay = s.forgetDelay := by simp [State.forgetDelay_eq, State.withDelay, State.setRcp]
@[simp] theorem forgetDelay_setSeq (q : BitVec 8) : (s.setSeq q).forgetDelay = s.forgetDelay.setSeq q := by
  simp [State.forgetDelay_eq, State.setRcp, State.setSeq]
@[simp] theorem forgetDelay_readInto (rt : Reg) (v : Word) :
    (s.readInto rt v).forgetDelay = s.forgetDelay.readInto rt v := by
  simp [State.forgetDelay_eq, State.readInto]
@[simp] theorem forgetDelay_finish : (finish s).forgetDelay = finish s.forgetDelay := by
  simp [State.forgetDelay_eq, finish, State.nextDraw_setActive]
@[simp] theorem forgetDelay_crossTrigger : s.crossTrigger.forgetDelay = s.forgetDelay.crossTrigger := by
  simp [State.forgetDelay_eq, State.crossTrigger_setActive, State.active_def]
@[simp] theorem forgetDelay_stallForever : (stallForever s).forgetDelay = stallForever s.forgetDelay := by
  simp [State.forgetDelay_eq, stallForever]
@[simp] theorem forgetDelay_panicState : (panicState s).forgetDelay = panicState s.forgetDelay := by simp [panicState]
@[simp] theorem forgetDelay_raiseRcpFault (c : RcpCause) :
    (raiseRcpFault c s).forgetDelay = raiseRcpFault c s.forgetDelay := by
  unfold raiseRcpFault
  rw [forgetDelay_crossTrigger]
  cases hf : s.active.rcp.fault <;> simp [State.forgetDelay_eq, CoreState.trigger, hf]

/-- A salt write replaces the generator of its own core, and leaves that of the other. -/
theorem forgetDelay_writeSalt (k : CoreId) (v : BitVec 64) (p : BitVec 24) (d : BitVec 7) :
    ((s.withDelay p d).setCore k
      { (s.withDelay p d).core k with rcp := ((s.withDelay p d).core k).rcp.writeSalt v }).forgetDelay =
    (s.setCore k { s.core k with rcp := (s.core k).rcp.writeSalt v }).forgetDelay := by
  cases ht : s.turn <;> cases k <;>
    simp [State.forgetDelay_eq, State.withDelay, State.setRcp, State.setActive, State.setCore, State.active, State.core,
      Rcp.writeSalt, ht]

end

/-! ## Rules that ignore the delay -/

/-- An answer with the delay forgotten. -/
def forgetOutDelay : Out → Out
  | .next t => .next t.forgetDelay
  | .fault r => .fault r
  | .refused r => .refused r

theorem forgetOutDelay_eq_next {o : Out} {t : State} :
    forgetOutDelay o = forgetOutDelay (.next t) ↔ ∃ t', o = .next t' ∧ t'.forgetDelay = t.forgetDelay := by
  cases o <;> simp [forgetOutDelay]

theorem forgetOutDelay_eq_refused {o : Out} {r : Refusal} :
    forgetOutDelay o = forgetOutDelay (.refused r) ↔ o = .refused r := by
  cases o <;> simp [forgetOutDelay]

/-- What the rule answers does not depend on the acting core's generator and delay counter, but for these two. -/
def IgnoresDelay (f : State → Out) : Prop :=
  ∀ (s : State) (p : BitVec 24) (d : BitVec 7), forgetOutDelay (f (s.withDelay p d)) = forgetOutDelay (f s)

theorem IgnoresDelay.next {g : State → State} (h : ∀ s p d, (g (s.withDelay p d)).forgetDelay = (g s).forgetDelay) :
    IgnoresDelay fun s => .next (g s) := fun s p d => congrArg Host.Outcome.next (h s p d)

/-- A choice on what is neither generator nor delay counter. -/
theorem IgnoresDelay.ite {c : State → Prop} [DecidablePred c] {f g : State → Out}
    (hc : ∀ s p d, c (s.withDelay p d) ↔ c s) (hf : IgnoresDelay f) (hg : IgnoresDelay g) :
    IgnoresDelay fun s => if c s then f s else g s := by
  intro s p d
  by_cases h : c s
  · simpa only [hc, h, if_true] using hf s p d
  · simpa only [hc, h, if_false] using hg s p d

theorem assertThen_ignoresDelay (c : RcpCause) {cond : State → Bool} (h : ∀ s p d, cond (s.withDelay p d) = cond s) :
    IgnoresDelay fun s => assertThen (cond s) c s :=
  .ite (by simp [h]) (.next (by simp)) (.next (by simp))

theorem readThen_ignoresDelay (rt : Reg) {v : State → Word} (h : ∀ s p d, v (s.withDelay p d) = v s) :
    IgnoresDelay fun s => readThen rt (v s) s := .next (by simp [h])

theorem writeSaltThen_ignoresDelay (k : CoreId) (rt rt2 : Reg) :
    IgnoresDelay fun s => writeSaltThen k (s.cpwdata64 rt rt2) s := by
  refine .ite (fun s p d => ?_) (.next (by simp)) (.next (by simp [forgetDelay_writeSalt, State.cpwdata64]))
  rcases CoreId.eq_or_other k s.turn with rfl | rfl <;> simp [State.active_def]

theorem setSeq_ignoresDelay (q : BitVec 8) : IgnoresDelay fun s => .next (finish (s.setSeq q)) := .next (by simp)

theorem panic_ignoresDelay : IgnoresDelay fun s => .next (panicState s) := .next (by simp)

theorem countCheckThen_ignoresDelay (tag : Tag) : IgnoresDelay (countCheckThen tag) :=
  .ite (by simp) (.next (by simp)) (.next (by simp))

/-! ## The common sequence and the variants -/

/-- Both variants go on from states that differ in the delay only, unless neither is delayed. -/
theorem delayThen_otherVariant (q : Issue) {body : State → Out} {s : State} (hi : s.active.interruptAt s.draws = none)
    (hb : q.neverDelayed = true ∨ IgnoresDelay body) :
    forgetOutDelay (delayThen { q with nd := !q.nd } body s) = forgetOutDelay (delayThen q body s) := by
  rcases hb with hn | hb
  · simp [delayThen, hn]
  · have hfree : ∀ r : Issue, forgetOutDelay (delayThen r body s) = forgetOutDelay (body s) := by
      intro r
      obtain ⟨p, d, hd⟩ := afterDelay_withDelay s (!r.nd && !r.neverDelayed)
      rw [delayThen_undisturbed r body s _ rfl (.inr (.inl hi)), hd, hb]
    rw [hfree, hfree]

/-- The delay is all that the no-delay bit decides in the common sequence. -/
theorem rcpExecute_otherVariant (q : Issue) {sb : State → Out} (nb : State → Out) {s : State}
    (hi : s.active.interruptAt s.draws = none) (hb : q.neverDelayed = true ∨ IgnoresDelay sb) :
    forgetOutDelay (rcpExecute { q with nd := !q.nd } sb nb s) = forgetOutDelay (rcpExecute q sb nb s) := by
  have hd := delayThen_otherVariant q hi hb
  obtain ⟨nd, ok, exempt, never, port⟩ := q
  unfold rcpExecute securePath
  cases issueRefusal s.active.arm ok with
  | some r => rfl
  | none =>
    cases s.active.rcp.fault with
    | true => rfl
    | false =>
      cases s.active.arm.security with
      | nonSecure => rfl
      | secure =>
        cases port with
        | some r => rfl
        | none =>
          cases hv : !s.active.rcp.saltValid && !exempt with
          | true => rfl
          | false => exact hd

theorem saltWrite_otherVariant (k : CoreId) (nd : Bool) (rt rt2 : Reg) {s : State}
    (hi : s.active.interruptAt s.draws = none) :
    forgetOutDelay (saltWrite k (!nd) rt rt2 s) = forgetOutDelay (saltWrite k nd rt rt2 s) :=
  rcpExecute_otherVariant ⟨nd, _, _, _, _⟩ _ hi (.inr (writeSaltThen_ignoresDelay k rt rt2))

theorem assertMcr_otherVariant (nd : Bool) (rt : Reg) (c : RcpCause) (cond : Word → Bool) {s : State}
    (hi : s.active.interruptAt s.draws = none) :
    forgetOutDelay (assertMcr (!nd) rt c cond s) = forgetOutDelay (assertMcr nd rt c cond s) :=
  rcpExecute_otherVariant ⟨nd, _, _, _, _⟩ _ hi (.inr (assertThen_ignoresDelay c (by simp)))

theorem assertMcrr_otherVariant (nd : Bool) (rt rt2 : Reg) (c : RcpCause) (cond : Word → Word → Bool) {s : State}
    (hi : s.active.interruptAt s.draws = none) :
    forgetOutDelay (assertMcrr (!nd) rt rt2 c cond s) = forgetOutDelay (assertMcrr nd rt rt2 c cond s) :=
  rcpExecute_otherVariant ⟨nd, _, _, _, _⟩ _ hi (.inr (assertThen_ignoresDelay c (by simp)))

/-- With no interrupt at this issue an instruction and its other variant answer the same but for the delay. -/
theorem exec_flipNd (i : Instr) {s : State} (hi : s.active.interruptAt s.draws = none) :
    forgetOutDelay (exec i.flipNd s) = forgetOutDelay (exec i s) := by
  cases i with
  | rcpSaltCore0 nd rt rt2 => exact saltWrite_otherVariant _ nd rt rt2 hi
  | rcpSaltCore1 nd rt rt2 => exact saltWrite_otherVariant _ nd rt rt2 hi
  | rcpCanaryStatus nd rt =>
    exact rcpExecute_otherVariant ⟨nd, _, _, _, _⟩ _ hi (.inr (readThen_ignoresDelay rt (by simp)))
  | rcpCanaryGet nd rt tag =>
    exact rcpExecute_otherVariant ⟨nd, _, _, _, _⟩ _ hi (.inr (readThen_ignoresDelay rt (by simp)))
  | rcpCanaryCheck nd rt tag =>
    exact rcpExecute_otherVariant ⟨nd, _, _, _, _⟩ _ hi (.inr (assertThen_ignoresDelay _ (by simp)))
  | rcpBvalid nd rt =>
    simp only [Instr.flipNd, exec, execRcpBvalid]
    exact assertMcr_otherVariant nd rt _ _ hi
  | rcpBtrue nd rt =>
    simp only [Instr.flipNd, exec, execRcpBtrue]
    exact assertMcr_otherVariant nd rt _ _ hi
  | rcpBfalse nd rt =>
    simp only [Instr.flipNd, exec, execRcpBfalse]
    exact assertMcr_otherVariant nd rt _ _ hi
  | rcpB2valid nd rt rt2 =>
    simp only [Instr.flipNd, exec, execRcpB2valid]
    exact assertMcrr_otherVariant nd rt rt2 _ _ hi
  | rcpB2and nd rt rt2 =>
    simp only [Instr.flipNd, exec, execRcpB2and]
    exact assertMcrr_otherVariant nd rt rt2 _ _ hi
  | rcpB2or nd rt rt2 =>
    simp only [Instr.flipNd, exec, execRcpB2or]
    exact assertMcrr_otherVariant nd rt rt2 _ _ hi
  | rcpBxorvalid nd rt rt2 =>
    simp only [Instr.flipNd, exec, execRcpBxorvalid]
    exact assertMcrr_otherVariant nd rt rt2 _ _ hi
  | rcpBxortrue nd rt rt2 =>
    simp only [Instr.flipNd, exec, execRcpBxortrue]
    exact assertMcrr_otherVariant nd rt rt2 _ _ hi
  | rcpBxorfalse nd rt rt2 =>
    simp only [Instr.flipNd, exec, execRcpBxorfalse]
    exact assertMcrr_otherVariant nd rt rt2 _ _ hi
  | rcpIvalid nd rt rt2 =>
    simp only [Instr.flipNd, exec, execRcpIvalid]
    exact assertMcrr_otherVariant nd rt rt2 _ _ hi
  | rcpIequal nd rt rt2 =>
    simp only [Instr.flipNd, exec, execRcpIequal]
    exact assertMcrr_otherVariant nd rt rt2 _ _ hi
  | rcpRandomByte nd rt => exact rcpExecute_otherVariant ⟨nd, _, _, true, _⟩ (randomByteMasked rt) hi (.inl rfl)
  | rcpCountSet nd rt tag =>
    exact rcpExecute_otherVariant ⟨nd, _, _, _, _⟩ _ hi (.inr (setSeq_ignoresDelay tag))
  | rcpCountCheck nd rt tag =>
    exact rcpExecute_otherVariant ⟨nd, _, _, _, _⟩ (setSeqMasked fun t => t.active.rcp.seq + 1) hi
      (.inr (countCheckThen_ignoresDelay tag))
  | rcpPanic nd =>
    exact rcpExecute_otherVariant ⟨nd, true, _, _, _⟩ (fun _ => .refused .nonSecurePanic) hi (.inr panic_ignoresDelay)

/-- Settles O37: `exec_flipNd`, read for a next state and for a refusal. -/
theorem variantsDifferOnlyInTheDelay : Obligations.VariantsDifferOnlyInTheDelay := by
  intro i s hi
  refine ⟨fun t ht => ?_, fun r hr => ?_⟩
  · obtain ⟨t', hx, hsame⟩ := forgetOutDelay_eq_next.1 (ht ▸ exec_flipNd i hi)
    refine ⟨t', hx, ?_⟩
    rw [← (exec_turn ht).1]
    exact sameButDelay_of_forgetDelay hsame.symm
  · exact forgetOutDelay_eq_refused.1 (hr ▸ exec_flipNd i hi)

end Sys2Proof.Machine

/-! SUPPORT. The statements of 40_initialisation.md. A Secure salt write that is issued on core 0 and not abandoned is
`writeSaltThen` on the state after its delay (`exec_saltWrite`), whose two answers are the statements on the first and on
a second salt write; `rcp_canary_status` is a read of that state. -/

namespace Sys2Proof.Machine

/-! ## The two answers of a salt write -/

theorem writeSaltThen_of_invalid {k : CoreId} {s : State} (v : BitVec 64) (h : (s.core k).rcp.saltValid = false) :
    writeSaltThen k v s = .next (finish (s.setCore k { s.core k with rcp := (s.core k).rcp.writeSalt v })) := by
  simp [writeSaltThen, h]

theorem writeSaltThen_of_valid {k : CoreId} {s : State} (v : BitVec 64) (h : (s.core k).rcp.saltValid = true) :
    writeSaltThen k v s = .next (raiseRcpFault .saltAlreadyValid s) := by
  simp [writeSaltThen, h]

@[simp] theorem State.rcpAfterDelay_saltValid (s : State) (i : Instr) :
    (s.rcpAfterDelay i).saltValid = s.active.rcp.saltValid := Rcp.afterDelay_saltValid ..

@[simp] theorem State.rcpAfterDelay_seq (s : State) (i : Instr) : (s.rcpAfterDelay i).seq = s.active.rcp.seq :=
  Rcp.afterDelay_seq ..

@[simp] theorem State.rcpAfterDelay_fault (s : State) (i : Instr) : (s.rcpAfterDelay i).fault = s.active.rcp.fault :=
  Rcp.afterDelay_fault ..

/-- A delay makes no salt valid or invalid, on either core. -/
@[simp] theorem State.afterDelay_saltValid (s : State) (i : Instr) (k : CoreId) :
    ((s.afterDelay i).core k).rcp.saltValid = (s.core k).rcp.saltValid := by
  rcases CoreId.eq_or_other k s.turn with rfl | rfl
  · simp [State.active_def]
  · simp

/-- Completion of a salt write to the acting core's own RCP, after the delay. -/
theorem finish_writeOwnSalt (s : State) (i : Instr) (v : BitVec 64) :
    finish ((s.afterDelay i).setCore s.turn
      { (s.afterDelay i).core s.turn with rcp := ((s.afterDelay i).core s.turn).rcp.writeSalt v }) =
    s.completesWith s.active.arm ((s.rcpAfterDelay i).writeSalt v) := by
  rw [← finish_setRcp, State.afterDelay_core]
  simp [State.afterDelay, State.setRcp, State.setActive]

/-- Completion of core 0's salt write to core 1's RCP, after the delay. -/
theorem finish_writeSalt1 {s : State} (ht : s.turn = .core0) (i : Instr) (v : BitVec 64) :
    finish ((s.afterDelay i).setCore .core1
      { (s.afterDelay i).core .core1 with rcp := ((s.afterDelay i).core .core1).rcp.writeSalt v }) =
    { s.completesWith s.active.arm (s.rcpAfterDelay i) with
      core1 := { s.core1 with rcp := s.core1.rcp.writeSalt v } } := by
  simp [finish, State.afterDelay, State.completesWith, State.setActive, State.active, State.setCore, State.core,
    State.nextDraw, ht]

/-! ## The salt writes -/

/-- In Secure state on core 0 a salt write that is not abandoned goes on from the state after its delay. -/
theorem exec_saltWrite {i : Instr} {k : CoreId} {nd : Bool} {rt rt2 : Reg} {s : State}
    (he : exec i s = saltWrite k nd rt rt2 s) (hw : i.wellFormed = (mcrRegOk rt && mcrRegOk rt2)) (hd : i.delayed = !nd)
    (ht : s.turn = .core0) (h : SecureIssue i s) (hu : Undisturbed i s) :
    exec i s = writeSaltThen k (s.reg rt2 ++ s.reg rt) (s.afterDelay i) := by
  rw [he, saltWrite, rcpExecute_undisturbed h hu hw.symm (by simpa using hd) (if_pos ht) (.inr rfl),
    State.afterDelay_cpwdata64]

/-- Such a salt write to an invalid salt register writes it and completes. -/
theorem exec_saltWrite_written {i : Instr} {k : CoreId} {v : BitVec 64} {s : State}
    (he : exec i s = writeSaltThen k v (s.afterDelay i)) (hv : (s.core k).rcp.saltValid = false) :
    exec i s = .next (finish ((s.afterDelay i).setCore k
      { (s.afterDelay i).core k with rcp := ((s.afterDelay i).core k).rcp.writeSalt v })) :=
  he.trans (writeSaltThen_of_invalid v (by simpa using hv))

/-- Such a salt write to a valid salt register is an RCP fault. -/
theorem exec_saltWrite_faulted {i : Instr} {k : CoreId} {v : BitVec 64} {s : State}
    (he : exec i s = writeSaltThen k v (s.afterDelay i)) (hv : (s.core k).rcp.saltValid = true) :
    ∃ t : State, exec i s = .next t ∧ Faulted .saltAlreadyValid (s.afterDelay i) t :=
  ⟨_, he.trans (writeSaltThen_of_valid v (by simpa using hv)), raiseRcpFault_faulted _ _⟩

theorem exec_rcpSaltCore0 {nd : Bool} {rt rt2 : Reg} {s : State} (ht : s.turn = .core0)
    (h : SecureIssue (.rcpSaltCore0 nd rt rt2) s) (hu : Undisturbed (.rcpSaltCore0 nd rt rt2) s) :
    exec (.rcpSaltCore0 nd rt rt2) s =
      writeSaltThen .core0 (s.reg rt2 ++ s.reg rt) (s.afterDelay (.rcpSaltCore0 nd rt rt2)) :=
  exec_saltWrite rfl rfl (Bool.and_true _) ht h hu

theorem exec_rcpSaltCore1 {nd : Bool} {rt rt2 : Reg} {s : State} (ht : s.turn = .core0)
    (h : SecureIssue (.rcpSaltCore1 nd rt rt2) s) (hu : Undisturbed (.rcpSaltCore1 nd rt rt2) s) :
    exec (.rcpSaltCore1 nd rt rt2) s =
      writeSaltThen .core1 (s.reg rt2 ++ s.reg rt) (s.afterDelay (.rcpSaltCore1 nd rt rt2)) :=
  exec_saltWrite rfl rfl (Bool.and_true _) ht h hu

/-- Settles O18: the completions of `finish_writeOwnSalt` and `finish_writeSalt1`; `Rcp.writeSalt` keeps the rest. -/
theorem saltWriteWritesTheSalt : Obligations.SaltWriteWritesTheSalt := by
  intro s nd rt rt2 ht
  have hactive : s.active = s.core0 := by simp [State.active, State.core, ht]
  refine ⟨fun h hu hv => ?_, fun h hu hv => ?_⟩
  · have hfault : s.core0.rcp.fault = false := hactive ▸ h.noFault
    refine ⟨(s.rcpAfterDelay (.rcpSaltCore0 nd rt rt2)).writeSalt (s.reg rt2 ++ s.reg rt), ?_, ?_⟩
    · rw [exec_saltWrite_written (exec_rcpSaltCore0 ht h hu) hv, ← ht, finish_writeOwnSalt]
    · simp [hactive, hfault]
  · refine ⟨s.core1.rcp.writeSalt (s.reg rt2 ++ s.reg rt), ?_, ?_⟩
    · rw [exec_saltWrite_written (exec_rcpSaltCore1 ht h hu) hv, finish_writeSalt1 ht]
    · simp

/-- Settles O19: each of the two salt writes meets a valid salt after its delay (`exec_saltWrite_faulted`). -/
theorem secondSaltWriteFaults : Obligations.SecondSaltWriteFaults := fun _ _ _ _ ht =>
  ⟨fun h hu hv => exec_saltWrite_faulted (exec_rcpSaltCore0 ht h hu) hv,
    fun h hu hv => exec_saltWrite_faulted (exec_rcpSaltCore1 ht h hu) hv⟩

/-! ## The forms without a meaning -/

/-- In Secure state an instruction that the acting core's port gives no meaning is refused. -/
theorem rcpExecute_portRefusal {q : Issue} {sb nb : State → Out} {i : Instr} {s : State} {r : Refusal}
    (h : SecureIssue i s) (hr : q.regsOk = i.wellFormed) (hp : q.portRefusal = some r) :
    rcpExecute q sb nb s = .refused r := by
  have hfault : s.active.rcp.fault = false := h.noFault
  simp [rcpExecute, securePath, issueRefusal_issuable h.toIssuable hr, hfault, h.secure, hp]

/-- On core 1 the port of the Secure salt writes refuses both. -/
theorem exec_of_saltTarget_core1 {i : Instr} {k : CoreId} {s : State} (hk : i.saltTarget = some k) (ht : s.turn = .core1)
    (h : SecureIssue i s) : exec i s = .refused .saltWriteFromCore1 := by
  obtain ⟨q, sb, nb, he, -, hregs, -, -, hport⟩ := exec_issue i s
  rw [he]
  exact rcpExecute_portRefusal h hregs (by simpa [hk, ht] using hport)

theorem saltWrite_nonSecure {i : Instr} {nd : Bool} {rt rt2 : Reg} {s : State} (k : CoreId) (h : NonSecureIssue i s)
    (hw : i.wellFormed = (mcrRegOk rt && mcrRegOk rt2)) : saltWrite k nd rt rt2 s = .refused .nonSecureSaltWrite :=
  rcpExecute_masked h hw.symm

theorem execRcpPanic_nonSecure {nd : Bool} {s : State} (h : NonSecureIssue (.rcpPanic nd) s) :
    execRcpPanic nd s = .refused .nonSecurePanic :=
  rcpExecute_masked h rfl

/-- Settles O20: core 1's port refuses the Secure forms, and the Non-secure rule of the three instructions is a refusal. -/
theorem formsWithoutMeaningStop : Obligations.FormsWithoutMeaningStop := fun _ _ _ _ =>
  ⟨exec_of_saltTarget_core1 rfl, exec_of_saltTarget_core1 rfl, fun h => saltWrite_nonSecure .core0 h rfl,
    fun h => saltWrite_nonSecure .core1 h rfl, execRcpPanic_nonSecure⟩

/-! ## The salt status -/

theorem statusWord_eq (b : Bool) : statusWord b = if b = true then 0xa500a500 else 0x00c300c3 := rfl

/-- Settles O21: the salt is as valid after the delay as before, and the read needs no valid salt. -/
theorem canaryStatusReportsTheSaltState : Obligations.CanaryStatusReportsTheSaltState := by
  intro s nd rt h hu
  refine readCompletes_of ?_
  calc exec (.rcpCanaryStatus nd rt) s
      = readThen rt (statusWord (s.afterDelay (.rcpCanaryStatus nd rt)).active.rcp.saltValid)
          (s.afterDelay (.rcpCanaryStatus nd rt)) :=
        rcpExecute_undisturbed h hu rfl (by simp [Instr.delayed, Instr.nd, Instr.isRandomByte]) rfl (.inr rfl)
    _ = readThen rt (if s.active.rcp.saltValid = true then 0xa500a500 else 0x00c300c3)
          (s.setRcp (s.rcpAfterDelay (.rcpCanaryStatus nd rt))) := by
        rw [State.afterDelay_active, State.rcpAfterDelay_saltValid, statusWord_eq]; rfl

end Sys2Proof.Machine

/-! SUPPORT. The statements of 41_canary.md. The four bytes of a canary (`bytesOfWord_canary`) decide it
(`canary_eq_iff`), so two canaries are compared byte by byte: of one salt for two tags, and of a salt with one bit flipped.
The two instructions use the salt after their delay, and a delay leaves its bits 39:0. -/

namespace Sys2Proof.Machine

/-! ## The bytes of a canary -/

theorem bytesOfWord_wordOfBytes (b0 b1 b2 b3 : Byte) : bytesOfWord (wordOfBytes b0 b1 b2 b3) = [b0, b1, b2, b3] := by
  have h0 : (wordOfBytes b0 b1 b2 b3).extractLsb' 16 8 = b0 :=
    (BitVec.extractLsb'_append_eq_of_le (by decide)).trans <|
      (BitVec.extractLsb'_append_eq_of_le (by decide)).trans BitVec.extractLsb'_append_eq_right
  have h1 : (wordOfBytes b0 b1 b2 b3).extractLsb' 24 8 = b1 :=
    (BitVec.extractLsb'_append_eq_of_le (by decide)).trans <|
      (BitVec.extractLsb'_append_eq_of_le (by decide)).trans BitVec.extractLsb'_append_eq_left
  have h2 : (wordOfBytes b0 b1 b2 b3).extractLsb' 0 8 = b2 := BitVec.extractLsb'_append_eq_right
  have h3 : (wordOfBytes b0 b1 b2 b3).extractLsb' 8 8 = b3 :=
    (BitVec.extractLsb'_append_eq_of_le (by decide)).trans BitVec.extractLsb'_append_eq_right
  rw [bytesOfWord, h0, h1, h2, h3]

theorem bytesOfWord_inj {v w : Word} : bytesOfWord v = bytesOfWord w ↔ v = w := by
  refine ⟨fun h => ?_, congrArg _⟩
  simp only [bytesOfWord, List.cons.injEq] at h
  obtain ⟨h0, h1, h2, h3, -⟩ := h
  rw [← wordOfBytes_bytesOfWord v, h0, h1, h2, h3, wordOfBytes_bytesOfWord]

theorem bytesOfWord_canary (s : BitVec 64) (t : Tag) : bytesOfWord (canary s t) =
    [s.extractLsb' 8 8 ^^^ (s.extractLsb' 32 8 &&& ~~~t), s.extractLsb' 16 8 ^^^ t, 0,
      s.extractLsb' 0 8 ^^^ (s.extractLsb' 24 8 &&& t)] := by
  refine (bytesOfWord_wordOfBytes ..).trans ?_
  simp only [BitVec.extractLsb'_extractLsb'_of_le, Nat.reduceAdd, Nat.reduceLeDiff]

/-- Settles O22: the slices are the bytes of `bytesOfWord_canary`, and `canary` is `canaryLow` of salt bits 39:0. -/
theorem canaryIsTheFourSlices : Obligations.CanaryIsTheFourSlices := by
  intro s s' t
  have h := bytesOfWord_canary s t
  simp only [bytesOfWord, List.cons.injEq] at h
  obtain ⟨h16, h24, h0, h8, -⟩ := h
  exact ⟨h0, h8, h16, h24, congrArg (canaryLow · t)⟩

/-! ## Comparing canaries -/

theorem canary_eq_iff {s s' : BitVec 64} {t u : Tag} : canary s t = canary s' u ↔
    s.extractLsb' 8 8 ^^^ (s.extractLsb' 32 8 &&& ~~~t) = s'.extractLsb' 8 8 ^^^ (s'.extractLsb' 32 8 &&& ~~~u) ∧
    s.extractLsb' 16 8 ^^^ t = s'.extractLsb' 16 8 ^^^ u ∧
    s.extractLsb' 0 8 ^^^ (s.extractLsb' 24 8 &&& t) = s'.extractLsb' 0 8 ^^^ (s'.extractLsb' 24 8 &&& u) := by
  rw [← bytesOfWord_inj, bytesOfWord_canary, bytesOfWord_canary]
  simp only [List.cons.injEq, and_true, true_and]

/-- Under one salt a canary tells its tag, by bits 31:24. -/
theorem canary_inj_tag (s : BitVec 64) {t u : Tag} : canary s t = canary s u ↔ t = u := by
  refine ⟨fun h => ?_, congrArg _⟩
  obtain ⟨-, h24, -⟩ := canary_eq_iff.1 h
  exact (BitVec.xor_right_inj _).1 h24

/-- A mask hides a flipped bit exactly where it is clear. -/
theorem xor_twoPow_and_eq_iff {w i : Nat} (hi : i < w) (x m : BitVec w) :
    (x ^^^ BitVec.twoPow w i) &&& m = x &&& m ↔ m.getLsbD i = false := by
  constructor
  · intro h
    have hb := congrArg (BitVec.getLsbD · i) h
    cases hx : x[i] <;> simpa [hi, hx] using hb
  · intro hm
    ext j hj
    by_cases h : j = i
    · subst h
      rw [BitVec.getLsbD_eq_getElem hj] at hm
      simp [hm]
    · simp [h]

/-- A field that holds the flipped bit. -/
theorem extractLsb'_xor_twoPow_inside {w lo n i : Nat} (x : BitVec w) (hi : lo + i < w) :
    (x ^^^ BitVec.twoPow w (lo + i)).extractLsb' lo n = x.extractLsb' lo n ^^^ BitVec.twoPow n i := by
  ext j hj
  simp [hi, eq_comm]

/-- A field that does not hold the flipped bit. -/
theorem extractLsb'_xor_twoPow_outside {w lo n k : Nat} (x : BitVec w) (hk : k < lo ∨ lo + n ≤ k) :
    (x ^^^ BitVec.twoPow w k).extractLsb' lo n = x.extractLsb' lo n := by
  ext j hj
  have : k ≠ lo + j := by omega
  simp [this]

theorem natCast_one_shiftLeft (k : Nat) : ((1 <<< k : Nat) : BitVec 64) = BitVec.twoPow 64 k := by
  apply BitVec.eq_of_toNat_eq
  simp [Nat.shiftLeft_eq]

/-- Salt bit `24 + i` counts where the tag's bit `i` is set. -/
theorem canary_flip_24_eq_iff (s : BitVec 64) (t : Tag) {i : Nat} (hi : i < 8) :
    canary (s ^^^ (1 <<< (24 + i))) t = canary s t ↔ t.getLsbD i = false := by
  simp (disch := omega) only [natCast_one_shiftLeft, canary_eq_iff, extractLsb'_xor_twoPow_inside,
    extractLsb'_xor_twoPow_outside, BitVec.xor_right_inj, xor_twoPow_and_eq_iff, true_and]

/-- Salt bit `32 + i` counts where the tag's bit `i` is clear. -/
theorem canary_flip_32_eq_iff (s : BitVec 64) (t : Tag) {i : Nat} (hi : i < 8) :
    canary (s ^^^ (1 <<< (32 + i))) t = canary s t ↔ (~~~t).getLsbD i = false := by
  simp (disch := omega) only [natCast_one_shiftLeft, canary_eq_iff, extractLsb'_xor_twoPow_inside,
    extractLsb'_xor_twoPow_outside, BitVec.xor_right_inj, xor_twoPow_and_eq_iff, and_true]

/-- Settles O23: the tag is read back from bits 31:24, and a flipped salt bit shows where its mask is set. -/
theorem canaryPropertiesHold : Obligations.CanaryPropertiesHold := by
  refine ⟨fun s t u => mt (canary_inj_tag s).1, fun s t i hi => ?_, fun s t => (canaryIsTheFourSlices s s t).1⟩
  simp only [ne_eq, canary_flip_24_eq_iff s t hi, canary_flip_32_eq_iff s t hi, BitVec.getLsbD_not, hi]
  cases t.getLsbD i <;> decide

/-! ## The two instructions -/

/-- The canary of a salt register is that of its bits 39:0, which the model holds apart from the generator. -/
theorem canary_salt (r : Rcp) (t : Tag) : canary r.salt t = canaryLow r.saltLow t :=
  congrArg (canaryLow · t) BitVec.extractLsb'_append_eq_right

/-- A delay moves the generator, and no canary with it. -/
theorem canary_rcpAfterDelay (s : State) (i : Instr) (t : Tag) :
    canary (s.rcpAfterDelay i).salt t = canary s.active.rcp.salt t := by
  rw [canary_salt, canary_salt, State.rcpAfterDelay, Rcp.afterDelay_saltLow]

theorem canaryLow_afterDelay (s : State) (i : Instr) (t : Tag) :
    canaryLow (s.afterDelay i).active.rcp.saltLow t = canary s.active.rcp.salt t := by
  rw [State.afterDelay_active, ← canary_salt, canary_rcpAfterDelay]

/-- Settles O24: a read on the state after the delay, whose canaries are those from before. -/
theorem canaryGetReturnsTheCanary : Obligations.CanaryGetReturnsTheCanary := by
  intro s nd rt tag h
  refine readCompletes_of ?_
  have he : exec (.rcpCanaryGet nd rt tag) s = _ :=
    rcpExecute_undisturbed h.toSecureIssue h.undisturbed rfl rfl rfl (.inl h.saltValid)
  rw [he, canaryLow_afterDelay]; rfl

/-- Settles O25: an assertion on the state after the delay, whose registers and canaries are those from before. -/
theorem canaryCheckAssertsTheCanary : Obligations.CanaryCheckAssertsTheCanary := by
  intro s nd rt tag h
  refine asserts_of_assertThen (b := s.reg rt == canary s.active.rcp.salt tag) ?_ beq_iff_eq
  have he : exec (.rcpCanaryCheck nd rt tag) s = _ :=
    rcpExecute_undisturbed h.toSecureIssue h.undisturbed rfl rfl rfl (.inl h.saltValid)
  rw [he, canaryLow_afterDelay, State.cpwdata32_eq, State.afterDelay_reg]

theorem State.completesWith_fault (s : State) (a : ArmCore) (r : Rcp) :
    (s.completesWith a r).fault s.turn = r.fault := by
  rw [State.fault, State.completesWith_core]

/-- After `rcp_canary_get` of `tag` into `x[Rt]`, that register holds the canary of the tags equal to `tag` only. -/
theorem reg_eq_canary_iff_of_got (s : State) (i : Instr) (rt : Reg) (tag tag' : Tag) {t : State}
    (ht : t = s.completesWith { s.active.arm with x := s.active.arm.x.set rt (canary s.active.rcp.salt tag) }
      (s.rcpAfterDelay i)) : t.reg rt = canary t.active.rcp.salt tag' ↔ tag = tag' := by
  have hreg : t.reg rt = canary s.active.rcp.salt tag := by simp [State.reg, ht]
  rw [hreg, ht, State.completesWith_active, canary_rcpAfterDelay, canary_inj_tag]

/-- Settles O26: the check meets the canary `rcp_canary_get` left in `x[Rt]`, and its own is of the same salt bits. -/
theorem canaryGotPassesOnlyItsOwnCheck : Obligations.CanaryGotPassesOnlyItsOwnCheck := by
  intro s t nd nd' rt tag tag' hrt hget ht hcheck
  have hcompletes := (canaryGetReturnsTheCanary s nd rt tag hget).1 hrt
  have hst := Host.Outcome.next.inj (ht.symm.trans hcompletes)
  have hturn : t.turn = s.turn := by rw [hst, State.completesWith_turn]
  have hpc : t.active.arm.pc = s.active.arm.pc + 4 := by rw [hst, State.completesWith_active]
  have hcond := reg_eq_canary_iff_of_got s _ rt tag tag' hst
  obtain ⟨hpass, hfail⟩ := canaryCheckAssertsTheCanary t nd' rt tag' hcheck
  by_cases htag : tag' = tag
  · refine ⟨_, hpass (hcond.2 htag.symm), fun _ => ⟨?_, ?_⟩, absurd htag⟩
    · rw [← hturn, State.completesWith_fault, State.rcpAfterDelay_fault]
      exact hcheck.noFault
    · rw [State.completesWith_active, hpc, BitVec.add_assoc]
      rfl
  · obtain ⟨u, hu, hfaulted⟩ := hfail fun h => htag (hcond.1 h).symm
    exact ⟨u, hu, fun h => absurd h htag, fun _ => hfaulted.fault⟩

end Sys2Proof.Machine

/-! SUPPORT. The statements of 42_boolean.md, and of 43_integer.md for one register named twice. Each instruction is one
`mcr` or `mcrr` assertion, so a statement needs only what its condition says of the register words (`isBool_iff`). -/

namespace Sys2Proof.Machine

/-! ## The Boolean patterns -/

theorem isBool_iff {v : Word} : isBool v = true ↔ v = 0xa500a500 ∨ v = 0x00c300c3 := by
  simp only [isBool, truePattern, falsePattern, Bool.or_eq_true, beq_iff_eq]

theorem eq_truePattern_iff {v : Word} : (v == truePattern) = true ↔ v = 0xa500a500 := beq_iff_eq

theorem eq_falsePattern_iff {v : Word} : (v == falsePattern) = true ↔ v = 0x00c300c3 := beq_iff_eq

theorem both_isBool_iff {v w : Word} : (isBool v && isBool w) = true ↔
    (v = 0xa500a500 ∨ v = 0x00c300c3) ∧ (w = 0xa500a500 ∨ w = 0x00c300c3) := by
  rw [Bool.and_eq_true, isBool_iff, isBool_iff]

theorem both_truePattern_iff {v w : Word} : (v == truePattern && w == truePattern) = true ↔
    v = 0xa500a500 ∧ w = 0xa500a500 := by
  rw [Bool.and_eq_true, eq_truePattern_iff, eq_truePattern_iff]

/-- Of the four pairs of patterns `rcp_b2or` passes all but (FALSE, FALSE). -/
theorem bool_or_iff {v w : Word} : (isBool v && isBool w && (v == truePattern || w == truePattern)) = true ↔
    (v = 0xa500a500 ∧ w = 0xa500a500) ∨ (v = 0xa500a500 ∧ w = 0x00c300c3) ∨ (v = 0x00c300c3 ∧ w = 0xa500a500) := by
  rw [Bool.and_eq_true, both_isBool_iff, Bool.or_eq_true, eq_truePattern_iff, eq_truePattern_iff]
  tauto

/-! ## The nine instructions -/

/-- Settles O27: three `mcr` assertions of the word of `x[Rt]`. -/
theorem oneRegisterBooleanAssertions : Obligations.OneRegisterBooleanAssertions := fun _ _ _ =>
  ⟨fun h => asserts_of_assertMcr h (execRcpBvalid.eq_1 ..) rfl (Bool.and_true _) isBool_iff,
    fun h => asserts_of_assertMcr h (execRcpBtrue.eq_1 ..) rfl (Bool.and_true _) eq_truePattern_iff,
    fun h => asserts_of_assertMcr h (execRcpBfalse.eq_1 ..) rfl (Bool.and_true _) eq_falsePattern_iff⟩

/-- Settles O28: three `mcrr` assertions of the two words. -/
theorem twoRegisterBooleanAssertions : Obligations.TwoRegisterBooleanAssertions := fun _ _ _ _ =>
  ⟨fun h => asserts_of_assertMcrr h (execRcpB2valid.eq_1 ..) rfl (Bool.and_true _) both_isBool_iff,
    fun h => asserts_of_assertMcrr h (execRcpB2and.eq_1 ..) rfl (Bool.and_true _) both_truePattern_iff,
    fun h => asserts_of_assertMcrr h (execRcpB2or.eq_1 ..) rfl (Bool.and_true _) bool_or_iff⟩

/-- Settles O29: three `mcrr` assertions of the XOR of the two words. -/
theorem xorBooleanAssertions : Obligations.XorBooleanAssertions := fun _ _ _ _ =>
  ⟨fun h => asserts_of_assertMcrr h (execRcpBxorvalid.eq_1 ..) rfl (Bool.and_true _) isBool_iff,
    fun h => asserts_of_assertMcrr h (execRcpBxortrue.eq_1 ..) rfl (Bool.and_true _) eq_truePattern_iff,
    fun h => asserts_of_assertMcrr h (execRcpBxorfalse.eq_1 ..) rfl (Bool.and_true _) eq_falsePattern_iff⟩

/-! ## One register named twice -/

theorem rcpIvalid_asserts {nd : Bool} {rt rt2 : Reg} {s : State} (h : SecureReady (.rcpIvalid nd rt rt2) s) :
    Asserts (.rcpIvalid nd rt rt2) (s.reg rt ^^^ s.reg rt2 = 0x96009600) .integerCheck s :=
  asserts_of_assertMcrr h (execRcpIvalid.eq_1 ..) rfl (Bool.and_true _) beq_iff_eq

theorem rcpIequal_asserts {nd : Bool} {rt rt2 : Reg} {s : State} (h : SecureReady (.rcpIequal nd rt rt2) s) :
    Asserts (.rcpIequal nd rt rt2) (s.reg rt = s.reg rt2) .integerCheck s :=
  asserts_of_assertMcrr h (execRcpIequal.eq_1 ..) rfl (Bool.and_true _) beq_iff_eq

/-- A failed assertion sets both fault registers. -/
theorem Asserts.fault_of_not {i : Instr} {P : Prop} {c : RcpCause} {s : State} (h : Asserts i P c s) (hp : ¬ P) :
    ∃ t : State, exec i s = .next t ∧ ∀ k, t.fault k = true := by
  obtain ⟨t, ht, hfaulted⟩ := h.2 hp
  exact ⟨t, ht, hfaulted.fault⟩

/-- A word XORed with itself is 0: neither Boolean pattern, nor the integer mask, nor any other non-zero word. -/
theorem xor_self_ne {m : Word} (hm : 0 ≠ m) (v : Word) : v ^^^ v ≠ m := by
  rwa [BitVec.xor_self]

/-- Settles O31: the XOR checks and `rcp_ivalid` assert of 0 that it is another word (`xor_self_ne`), and `rcp_iequal`
asserts that a word is itself. -/
theorem oneRegisterTwice : Obligations.OneRegisterTwice := by
  intro s nd rt
  obtain ⟨hvalid, htrue, hfalse⟩ := xorBooleanAssertions s nd rt rt
  have hnotTrue : s.reg rt ^^^ s.reg rt ≠ 0xa500a500 := xor_self_ne (by decide) _
  have hnotFalse : s.reg rt ^^^ s.reg rt ≠ 0x00c300c3 := xor_self_ne (by decide) _
  have hnotMask : s.reg rt ^^^ s.reg rt ≠ 0x96009600 := xor_self_ne (by decide) _
  refine ⟨fun i hi h => ?_, fun h => (rcpIequal_asserts h).1 rfl⟩
  simp only [List.mem_cons, List.not_mem_nil, or_false] at hi
  obtain rfl | rfl | rfl | rfl := hi
  · exact (hvalid h).fault_of_not (not_or.2 ⟨hnotTrue, hnotFalse⟩)
  · exact (htrue h).fault_of_not hnotTrue
  · exact (hfalse h).fault_of_not hnotFalse
  · exact (rcpIvalid_asserts h).fault_of_not hnotMask

end Sys2Proof.Machine

namespace Sys2Proof.Machine

/-! ## The integer assertions -/

/-- Settles O30: two `mcrr` assertions, of the XOR of the two words and of their equality. -/
theorem integerAssertions : Obligations.IntegerAssertions := fun _ _ _ _ =>
  ⟨rcpIvalid_asserts, rcpIequal_asserts⟩

end Sys2Proof.Machine

/-! SUPPORT. The statements of 44_random_and_delay.md on the generator (R103 to R106): what one update does to each LFSR
(`lfsrStep_eq`) and why it leaves none all-zeroes (`lfsrStep_ne_zero`), and the output bits, read off the tap table. -/

namespace Sys2Proof.Machine

/-! ## One update of one LFSR -/

theorem setWidth_ofBool (w : Nat) (b : Bool) : (BitVec.ofBool b).setWidth w = if b = true then 1 else 0 := by
  cases b <;> ext i hi <;> simp

/-- The feedback bit enters at bit 0: the parity of the tapped bits, or 1 when the LFSR is all-zeroes (R104). -/
theorem lfsrStep_eq {w : Nat} (taps s : BitVec w) :
    lfsrStep taps s = (s <<< 1 ||| if s = 0 ∨ parity (s &&& taps) = true then 1 else 0) := by
  simp only [lfsrStep, setWidth_ofBool, Bool.or_eq_true, beq_iff_eq]

theorem onesBelow_eq_zero {n : Nat} {v : BitVec n} {k : Nat} (h : ∀ i < k, v.getLsbD i = false) : onesBelow v k = 0 := by
  induction k with
  | zero => rfl
  | succ k ih => rw [onesBelow, ih fun i hi => h i (by omega), h k (by omega)]; rfl

/-- With no other bit set, the top bit is the parity. -/
theorem parity_eq_top {n : Nat} {v : BitVec (n + 1)} (h : ∀ i < n, v.getLsbD i = false) : parity v = v.getLsbD n := by
  rw [parity, popcount, onesBelow, onesBelow_eq_zero h]
  cases v.getLsbD n <;> rfl

/-- The bits below the top one are those that a shift towards the MSB keeps. -/
theorem low_bits_of_shift_eq_zero {n : Nat} {s : BitVec (n + 1)} (h : s <<< 1 = 0) {i : Nat} (hi : i < n) :
    s.getLsbD i = false := by
  have hbit : (s <<< 1).getLsbD (i + 1) = false := by rw [h]; exact BitVec.getLsbD_zero
  rwa [BitVec.getLsbD_shiftLeft, decide_eq_true (by omega : i + 1 < n + 1), decide_eq_false (by omega : ¬ i + 1 < 1),
    Bool.not_false, Bool.true_and, Bool.true_and, Nat.add_sub_cancel] at hbit

/-- An LFSR with a tap on its top bit is never all-zeroes after an update: a 1 that is shifted out is alone in the state
when nothing else stays, so it is the parity that is fed back. -/
theorem lfsrStep_ne_zero {n : Nat} {taps : BitVec (n + 1)} (htop : taps.getLsbD n = true) (s : BitVec (n + 1)) :
    lfsrStep taps s ≠ 0 := by
  intro hzero
  rw [lfsrStep_eq] at hzero
  obtain ⟨hshift, hfeedback⟩ := BitVec.or_eq_zero_iff.1 hzero
  have hlow : ∀ i < n, s.getLsbD i = false := fun i hi => low_bits_of_shift_eq_zero hshift hi
  have hparity : parity (s &&& taps) = s.getLsbD n := by
    rw [parity_eq_top fun i hi => by simp [hlow i hi], BitVec.getLsbD_and, htop, Bool.and_true]
  split at hfeedback
  · simp at hfeedback
  · rename_i hquiet
    refine hquiet (.inl (BitVec.eq_of_getLsbD_eq fun i hi => ?_))
    rcases Nat.lt_succ_iff_lt_or_eq.1 hi with h | rfl
    · simpa using hlow i h
    · have hbit : s.getLsbD i = false := by simpa [hparity] using (not_or.1 hquiet).2
      simpa using hbit

/-! ## One update of all four -/

@[simp] theorem lfsrA_advance (p : BitVec 24) : lfsrA (advance p) = lfsrStep 0xc (lfsrA p) :=
  (BitVec.extractLsb'_append_eq_of_le (by decide)).trans <|
    (BitVec.extractLsb'_append_eq_of_le (by decide)).trans BitVec.extractLsb'_append_eq_left
@[simp] theorem lfsrB_advance (p : BitVec 24) : lfsrB (advance p) = lfsrStep 0x14 (lfsrB p) :=
  (BitVec.extractLsb'_append_eq_of_le (by decide)).trans <|
    (BitVec.extractLsb'_append_eq_of_le (by decide)).trans BitVec.extractLsb'_append_eq_right
@[simp] theorem lfsrC_advance (p : BitVec 24) : lfsrC (advance p) = lfsrStep 0x60 (lfsrC p) :=
  (BitVec.extractLsb'_append_eq_of_le (by decide)).trans BitVec.extractLsb'_append_eq_right
@[simp] theorem lfsrD_advance (p : BitVec 24) : lfsrD (advance p) = lfsrStep 0xb4 (lfsrD p) :=
  BitVec.extractLsb'_append_eq_right

/-- Settles O32: each LFSR moves by `lfsrStep` of its own taps, which hold its top bit. -/
theorem advanceMovesFourRegisters : Obligations.AdvanceMovesFourRegisters := by
  intro p
  rw [lfsrA_advance, lfsrB_advance, lfsrC_advance, lfsrD_advance]
  exact ⟨lfsrStep_eq .., lfsrStep_eq .., lfsrStep_eq .., lfsrStep_eq .., lfsrStep_ne_zero rfl _, lfsrStep_ne_zero rfl _,
    lfsrStep_ne_zero rfl _, lfsrStep_ne_zero rfl _⟩

/-! ## The output -/

theorem byteOfBits_concat (bs : List Bool) (b : Bool) :
    byteOfBits (bs ++ [b]) = (byteOfBits bs <<< 1) ||| (BitVec.ofBool b).setWidth 8 := by
  simp [byteOfBits]

/-- The last bit of the list is bit 0 of the byte. -/
theorem byteOfBits_getLsbD (bs : List Bool) {i : Nat} (hi : i < 8) :
    (byteOfBits bs).getLsbD i = bs.reverse.getD i false := by
  induction bs using List.reverseRecOn generalizing i with
  | nil => simp [byteOfBits]
  | append_singleton bs b ih =>
    rw [byteOfBits_concat, List.reverse_concat]
    cases i with
    | zero => simp
    | succ i => simpa [hi, BitVec.getLsbD_eq_getElem (Nat.lt_of_succ_lt hi)] using ih (Nat.lt_of_succ_lt hi)

theorem prngOut_getLsbD (p : BitVec 24) {i : Nat} (hi : i < 8) :
    (prngOut p).getLsbD i = (outTable.map (outBit p)).reverse.getD i false := byteOfBits_getLsbD _ hi

/-- A row of six XOR taps and three majority taps (R105). -/
theorem outBit_row (p : BitVec 24) (x1 x2 x3 x4 x5 x6 m1 m2 m3 : Nat) :
    outBit p ⟨[x1, x2, x3, x4, x5, x6], m1, m2, m3⟩ =
      (p.getLsbD x1 ^^ p.getLsbD x2 ^^ p.getLsbD x3 ^^ p.getLsbD x4 ^^ p.getLsbD x5 ^^ p.getLsbD x6 ^^
        ((p.getLsbD m1 && p.getLsbD m2) || (p.getLsbD m1 && p.getLsbD m3) || (p.getLsbD m2 && p.getLsbD m3))) := by
  simp only [outBit, maj3, List.foldl_cons, List.foldl_nil, Bool.false_xor]

/-- Settles O33: bit `i` of the byte is row `7 - i` of the table (`prngOut_getLsbD`), and a row is its nine taps. -/
theorem outputBitsAreTheTable : Obligations.OutputBitsAreTheTable := by
  intro p
  refine ⟨?_, ?_, ?_, ?_, ?_, ?_, ?_, ?_⟩ <;> exact (prngOut_getLsbD p (by decide)).trans (outBit_row ..)

/-- Settles O35: each of the two orders is one `Out` and one `Advance` by definition. -/
theorem oneGenerationIsOneAdvance : Obligations.OneGenerationIsOneAdvance := fun _ _ => ⟨rfl, rfl, rfl, rfl⟩

end Sys2Proof.Machine

/-! SUPPORT. The statements of 44_random_and_delay.md on the delay (R107 to R111). A delayed instruction that is abandoned
stops in `delayThen`, before its own rule. No instruction's own rule writes the countdown or, `rcp_random_byte` and the salt
writes apart, the generator (`exec_runsRules`), so an undelayed instruction leaves of both what `undelayed` leaves. -/

namespace Sys2Proof.Machine

/-! ## `rcp_random_byte` -/

/-- An instruction without a delay of its own generates no number before its rule. -/
theorem State.rcpAfterDelay_prng_of_undelayed {i : Instr} (hd : i.delayed = false) (s : State) :
    (s.rcpAfterDelay i).prng = s.active.rcp.prng := by
  rw [State.rcpAfterDelay, hd, Rcp.afterDelay_prng_false]

theorem rcpRandomByte_delayed (nd : Bool) (rt : Reg) : (Instr.rcpRandomByte nd rt).delayed = false := by
  simp [Instr.delayed, Instr.isRandomByte]

/-- Settles O34: the one generation is from the generator before the instruction, as there is no delay before it. -/
theorem randomByteReturnsOneNumber : Obligations.RandomByteReturnsOneNumber := by
  intro s nd rt h
  have hd := rcpRandomByte_delayed nd rt
  have hgen : (s.afterDelay (.rcpRandomByte nd rt)).randomGeneration =
      generate Config.prngSampleOrder s.active.rcp.prng s.draws := by
    simp [State.randomGeneration, State.rcpAfterDelay_prng_of_undelayed hd]
  refine readCompletes_of ?_
  have he : exec (.rcpRandomByte nd rt) s = randomByteThen rt (s.afterDelay (.rcpRandomByte nd rt)) :=
    rcpExecute_undisturbed h.toSecureIssue h.undisturbed rfl (by simp [hd]) rfl (.inl h.saltValid)
  rw [he, randomByteThen, State.advanceGenerator, hgen]
  simp [State.afterDelay, State.setRcp]

/-! ## An abandoned instruction -/

/-- Settles O36: the common sequence reaches the delay and stops there (`delayThen_abandoned`). -/
theorem abandonedInstructionHasNotExecuted : Obligations.AbandonedInstructionHasNotExecuted := by
  intro i s irq h hv hport hd hirq hcount
  obtain ⟨q, sb, nb, he, hnd, hregs, hexempt, hnever, hp⟩ := exec_issue i s
  have hdelayed : (q.nd || q.neverDelayed) = false := by
    simpa [Instr.delayed, hnd, hnever] using hd
  have hnext : exec i s = _ := he.trans <|
    (rcpExecute_secure (issueRefusal_issuable h.toIssuable hregs) h.noFault h.secure (hp.trans (if_pos hport))
      (hexempt ▸ hv)).trans (delayThen_abandoned q sb s hdelayed hirq hcount)
  refine ⟨_, hnext, ?_, ?_, ?_, ?_⟩
  · rw [State.nextDraw_core, State.setRcp_core_other]
  · rw [State.nextDraw_mem, State.setRcp_mem]
  · rw [State.nextDraw_draws, State.setRcp_draws]
  · rw [State.nextDraw_active, State.setRcp_active, countDown]

/-! ## The acting core after the operations -/

section
variable (s : State)

@[simp] theorem State.setCore_turn_active (c : CoreState) : (s.setCore s.turn c).active = c := State.setActive_active ..
@[simp] theorem State.setCore_other_active (c : CoreState) : (s.setCore s.turn.other c).active = s.active := by
  simp [State.active_def]
@[simp] theorem finish_active : (finish s).active =
    { s.active with arm := { s.active.arm with pc := s.active.arm.pc + 4 } } := by
  rw [State.active_def, finish_turn, finish_core]
@[simp] theorem raiseRcpFault_active (c : RcpCause) : (raiseRcpFault c s).active = s.active.trigger c := by
  rw [State.active_def, raiseRcpFault_turn, raiseRcpFault_core]
@[simp] theorem stallForever_active : (stallForever s).active = { s.active with run := .stalled } := by
  rw [State.active_def, stallForever_turn, stallForever_core]
@[simp] theorem panicState_active : (panicState s).active = { s.active with run := .stalled } := by
  rw [State.active_def, panicState, stallForever_turn, State.crossTrigger_turn, ← panicState, panicState_core]
@[simp] theorem setSeq_active (q : BitVec 8) :
    (s.setSeq q).active = { s.active with rcp := { s.active.rcp with seq := q } } := by simp [State.setSeq]
@[simp] theorem advanceGenerator_active : s.advanceGenerator.active =
    { s.active with rcp := { s.active.rcp with prng := s.randomGeneration.state } } := by simp [State.advanceGenerator]
end

/-! ## Rules that write no countdown -/

/-- From `s` to `t` the acting core's countdown stays, and its generator unless the instruction returns a random byte or
writes the salt that holds it. -/
structure KeepsDelay (i : Instr) (s t : State) : Prop where
  delay : t.active.rcp.delay = s.active.rcp.delay
  prng : i.isRandomByte = false → i.saltTarget ≠ some s.turn → t.active.rcp.prng = s.active.rcp.prng

/-- Every next state the rule answers keeps the countdown and the generator so. -/
def RuleKeepsDelay (i : Instr) (f : State → Out) : Prop := ∀ s t, f s = .next t → KeepsDelay i s t

section
variable {i : Instr}

theorem RuleKeepsDelay.next {g : State → State} (h : ∀ s, KeepsDelay i s (g s)) :
    RuleKeepsDelay i fun s => .next (g s) :=
  fun s _ ht => Host.Outcome.next.inj ht ▸ h s

theorem RuleKeepsDelay.refused (r : Refusal) : RuleKeepsDelay i fun _ => .refused r := fun _ _ ht => by cases ht

theorem RuleKeepsDelay.ite {c : State → Prop} [DecidablePred c] {f g : State → Out} (hf : RuleKeepsDelay i f)
    (hg : RuleKeepsDelay i g) : RuleKeepsDelay i fun s => if c s then f s else g s := by
  intro s t ht
  by_cases h : c s
  · exact hf s t (by simpa only [h, if_true] using ht)
  · exact hg s t (by simpa only [h, if_false] using ht)

theorem noEffect_keepsDelay : RuleKeepsDelay i noEffect := .next fun _ => ⟨by simp, by simp⟩

theorem raiseRcpFault_keepsDelay (c : RcpCause) (s : State) : KeepsDelay i s (raiseRcpFault c s) :=
  ⟨by simp [CoreState.trigger_rcp], by simp [CoreState.trigger_rcp]⟩

theorem assertThen_keepsDelay (c : RcpCause) (cond : State → Bool) :
    RuleKeepsDelay i fun s => assertThen (cond s) c s :=
  .ite noEffect_keepsDelay (.next (raiseRcpFault_keepsDelay c))

theorem readThen_keepsDelay (rt : Reg) (v : State → Word) : RuleKeepsDelay i fun s => readThen rt (v s) s :=
  .next fun _ => ⟨by simp, by simp⟩

theorem setSeq_keepsDelay (q : State → BitVec 8) : RuleKeepsDelay i fun s => .next (finish (s.setSeq (q s))) :=
  .next fun _ => ⟨by simp, by simp⟩

theorem setSeqMasked_keepsDelay (q : State → BitVec 8) : RuleKeepsDelay i (setSeqMasked q) := by
  intro s t ht
  unfold setSeqMasked at ht
  split at ht
  · exact setSeq_keepsDelay q s t ht
  · exact noEffect_keepsDelay s t ht

theorem countCheckThen_keepsDelay (tag : Tag) : RuleKeepsDelay i (countCheckThen tag) :=
  .ite (setSeq_keepsDelay _) (.next (raiseRcpFault_keepsDelay _))

theorem panicState_keepsDelay : RuleKeepsDelay i fun s => .next (panicState s) :=
  .next fun _ => ⟨by simp, by simp⟩

/-- A salt write replaces no generator but that of its own target. -/
theorem writeSaltThen_keepsDelay {k : CoreId} (hk : i.saltTarget = some k) (v : State → BitVec 64) :
    RuleKeepsDelay i fun s => writeSaltThen k (v s) s := by
  refine .ite (.next (raiseRcpFault_keepsDelay _)) (.next fun s => ?_)
  rcases CoreId.eq_or_other k s.turn with rfl | rfl
  · exact ⟨by simp [← State.active_def], fun _ h => absurd hk h⟩
  · exact ⟨by simp, by simp⟩

/-- `rcp_random_byte` moves the generator, and the countdown no more than the others. -/
theorem randomByte_keepsDelay (hi : i.isRandomByte = true) (rt : Reg) (v : State → Word) :
    RuleKeepsDelay i fun s => readThen rt (v s) s.advanceGenerator :=
  .next fun _ => ⟨by simp, by simp [hi]⟩

theorem randomByteMasked_keepsDelay (hi : i.isRandomByte = true) (rt : Reg) :
    RuleKeepsDelay i (randomByteMasked rt) := by
  intro s t ht
  unfold randomByteMasked at ht
  split at ht
  · exact randomByte_keepsDelay hi rt (fun _ => 0) s t ht
  · exact readThen_keepsDelay rt (fun _ => 0) s t ht

end

/-! ## The common sequence on such rules -/

/-- The instruction is the common sequence, its other variant is the same with the other no-delay bit, and neither of its
two rules writes the delay. -/
def RunsRules (i : Instr) (s : State) : Prop :=
  ∃ (q : Issue) (sb nb : State → Out), exec i s = rcpExecute q sb nb s ∧
    exec i.flipNd s = rcpExecute { q with nd := !q.nd } sb nb s ∧ q.nd = i.nd ∧ q.neverDelayed = i.isRandomByte ∧
    RuleKeepsDelay i sb ∧ RuleKeepsDelay i nb

theorem saltWrite_runs {i : Instr} {s : State} {k : CoreId} {nd : Bool} {rt rt2 : Reg} (hk : i.saltTarget = some k)
    (he : exec i s = saltWrite k nd rt rt2 s) (hf : exec i.flipNd s = saltWrite k (!nd) rt rt2 s) (hnd : nd = i.nd)
    (hr : false = i.isRandomByte) : RunsRules i s :=
  ⟨_, _, _, he.trans (saltWrite.eq_1 ..), hf.trans (saltWrite.eq_1 ..), hnd, hr,
    writeSaltThen_keepsDelay hk fun t => t.cpwdata64 rt rt2, .refused _⟩

theorem assertMcr_runs {i : Instr} {s : State} {nd : Bool} {rt : Reg} {c : RcpCause} {cond : Word → Bool}
    (he : exec i s = assertMcr nd rt c cond s) (hf : exec i.flipNd s = assertMcr (!nd) rt c cond s) (hnd : nd = i.nd)
    (hr : false = i.isRandomByte) : RunsRules i s :=
  ⟨_, _, _, he.trans (assertMcr.eq_1 ..), hf.trans (assertMcr.eq_1 ..), hnd, hr,
    assertThen_keepsDelay c fun t => cond (t.cpwdata32 rt), noEffect_keepsDelay⟩

theorem assertMcrr_runs {i : Instr} {s : State} {nd : Bool} {rt rt2 : Reg} {c : RcpCause} {cond : Word → Word → Bool}
    (he : exec i s = assertMcrr nd rt rt2 c cond s) (hf : exec i.flipNd s = assertMcrr (!nd) rt rt2 c cond s)
    (hnd : nd = i.nd) (hr : false = i.isRandomByte) : RunsRules i s :=
  ⟨_, _, _, he.trans (assertMcrr.eq_1 ..), hf.trans (assertMcrr.eq_1 ..), hnd, hr,
    assertThen_keepsDelay c fun t => cond (wdataLow (t.cpwdata64 rt rt2)) (wdataHigh (t.cpwdata64 rt rt2)),
    noEffect_keepsDelay⟩

/-- Of all twenty instructions no rule writes the delay. -/
theorem exec_runsRules (i : Instr) (s : State) : RunsRules i s := by
  cases i with
  | rcpSaltCore0 nd rt rt2 => exact saltWrite_runs rfl (execRcpSaltCore0.eq_1 ..) (execRcpSaltCore0.eq_1 ..) rfl rfl
  | rcpSaltCore1 nd rt rt2 => exact saltWrite_runs rfl (execRcpSaltCore1.eq_1 ..) (execRcpSaltCore1.eq_1 ..) rfl rfl
  | rcpCanaryStatus nd rt =>
    exact ⟨_, _, _, execRcpCanaryStatus.eq_1 .., execRcpCanaryStatus.eq_1 .., rfl, rfl,
      readThen_keepsDelay rt fun t => statusWord t.active.rcp.saltValid, readThen_keepsDelay rt fun _ => 0⟩
  | rcpCanaryGet nd rt tag =>
    exact ⟨_, _, _, execRcpCanaryGet.eq_1 .., execRcpCanaryGet.eq_1 .., rfl, rfl,
      readThen_keepsDelay rt fun t => canaryLow t.active.rcp.saltLow tag, readThen_keepsDelay rt fun _ => 0⟩
  | rcpCanaryCheck nd rt tag =>
    exact ⟨_, _, _, execRcpCanaryCheck.eq_1 .., execRcpCanaryCheck.eq_1 .., rfl, rfl,
      assertThen_keepsDelay _ fun t => t.cpwdata32 rt == canaryLow t.active.rcp.saltLow tag, noEffect_keepsDelay⟩
  | rcpBvalid nd rt => exact assertMcr_runs (execRcpBvalid.eq_1 ..) (execRcpBvalid.eq_1 ..) rfl rfl
  | rcpBtrue nd rt => exact assertMcr_runs (execRcpBtrue.eq_1 ..) (execRcpBtrue.eq_1 ..) rfl rfl
  | rcpBfalse nd rt => exact assertMcr_runs (execRcpBfalse.eq_1 ..) (execRcpBfalse.eq_1 ..) rfl rfl
  | rcpB2valid nd rt rt2 => exact assertMcrr_runs (execRcpB2valid.eq_1 ..) (execRcpB2valid.eq_1 ..) rfl rfl
  | rcpB2and nd rt rt2 => exact assertMcrr_runs (execRcpB2and.eq_1 ..) (execRcpB2and.eq_1 ..) rfl rfl
  | rcpB2or nd rt rt2 => exact assertMcrr_runs (execRcpB2or.eq_1 ..) (execRcpB2or.eq_1 ..) rfl rfl
  | rcpBxorvalid nd rt rt2 => exact assertMcrr_runs (execRcpBxorvalid.eq_1 ..) (execRcpBxorvalid.eq_1 ..) rfl rfl
  | rcpBxortrue nd rt rt2 => exact assertMcrr_runs (execRcpBxortrue.eq_1 ..) (execRcpBxortrue.eq_1 ..) rfl rfl
  | rcpBxorfalse nd rt rt2 => exact assertMcrr_runs (execRcpBxorfalse.eq_1 ..) (execRcpBxorfalse.eq_1 ..) rfl rfl
  | rcpIvalid nd rt rt2 => exact assertMcrr_runs (execRcpIvalid.eq_1 ..) (execRcpIvalid.eq_1 ..) rfl rfl
  | rcpIequal nd rt rt2 => exact assertMcrr_runs (execRcpIequal.eq_1 ..) (execRcpIequal.eq_1 ..) rfl rfl
  | rcpRandomByte nd rt =>
    exact ⟨_, _, _, execRcpRandomByte.eq_1 .., execRcpRandomByte.eq_1 .., rfl, rfl,
      randomByte_keepsDelay rfl rt fun t => t.randomGeneration.byte.setWidth 32, randomByteMasked_keepsDelay rfl rt⟩
  | rcpCountSet nd rt tag =>
    exact ⟨_, _, _, execRcpCountSet.eq_1 .., execRcpCountSet.eq_1 .., rfl, rfl, setSeq_keepsDelay fun _ => tag,
      setSeqMasked_keepsDelay _⟩
  | rcpCountCheck nd rt tag =>
    exact ⟨_, _, _, execRcpCountCheck.eq_1 .., execRcpCountCheck.eq_1 .., rfl, rfl, countCheckThen_keepsDelay tag,
      setSeqMasked_keepsDelay _⟩
  | rcpPanic nd =>
    exact ⟨_, _, _, execRcpPanic.eq_1 .., execRcpPanic.eq_1 .., rfl, rfl, panicState_keepsDelay, .refused _⟩

/-- In Non-secure state the common sequence does not ask for the no-delay bit. -/
theorem rcpExecute_nd_of_nonSecure (q : Issue) (nd : Bool) (sb nb : State → Out) {s : State}
    (hs : s.active.arm.security = .nonSecure) : rcpExecute { q with nd := nd } sb nb s = rcpExecute q sb nb s := by
  simp only [rcpExecute, hs]

/-- What an instruction without a delay of its own leaves of the countdown and the generator: both as before, or the
countdown as passed. -/
theorem exec_undelayed {i : Instr} {s t : State} (hd : i.delayed = false ∨ s.active.arm.security = .nonSecure)
    (h : exec i s = .next t) : KeepsDelay i s t ∨ KeepsDelay i (undelayed s) t := by
  obtain ⟨q, sb, nb, he, -, hnd, hnever, hsb, hnb⟩ := exec_runsRules i s
  have hq : (q.nd || q.neverDelayed) = true ∨ s.active.arm.security = .nonSecure := by
    refine hd.imp_left fun hd => ?_
    simpa [Instr.delayed, ← hnd, ← hnever, or_iff_not_imp_left] using hd
  rcases rcpExecute_undelayed (he.symm.trans h) hq with rfl | rfl | hb | hb
  · exact .inl ⟨by simp, by simp⟩
  · exact .inl (raiseRcpFault_keepsDelay _ s)
  · exact .inr (hnb _ _ hb)
  · exact .inr (hsb _ _ hb)

/-- An instruction without a delay of its own starts and lengthens no countdown, and generates no number for one. -/
theorem exec_undelayed_bounds {i : Instr} {s t : State} (hd : i.delayed = false ∨ s.active.arm.security = .nonSecure)
    (h : exec i s = .next t) :
    t.active.rcp.delay.toNat ≤ s.active.rcp.delay.toNat ∧ (s.active.rcp.delay = 0 → t.active.rcp.delay = 0) ∧
    (i.isRandomByte = false → i.saltTarget ≠ some s.turn → t.active.rcp.prng = s.active.rcp.prng) := by
  rcases exec_undelayed hd h with hkeep | hkeep
  · exact ⟨hkeep.delay ▸ le_rfl, hkeep.delay.trans, hkeep.prng⟩
  · obtain ⟨hdelay, hprng⟩ := hkeep
    simp only [undelayed_withDelay, State.withDelay_active, State.withDelay_turn] at hdelay hprng
    rw [hdelay]
    exact ⟨passCountdown_le .., fun hz => by rw [hz]; exact passCountdown_zero _, hprng⟩

/-- In Non-secure state no instruction but `rcp_random_byte` moves the generator; the salt writes have no next state but
the stall. -/
theorem exec_nonSecure_prng {i : Instr} {s t : State} (hs : s.active.arm.security = .nonSecure)
    (hr : i.isRandomByte = false) (h : exec i s = .next t) : t.active.rcp.prng = s.active.rcp.prng := by
  cases exec_cases h with
  | stall => rw [stallForever_active]
  | completed a r hf ha hrcp =>
    obtain ⟨p, d, q, rfl, -, hp⟩ := hrcp
    simp [State.withArmRcp, hp hs hr]
  | abandoned _ _ hsec | faulted _ _ _ _ hsec | salt _ _ _ _ _ hsec | panic _ _ _ hsec => simp [hs] at hsec

/-! ## The two statements -/

/-- Settles O60: `exec_undelayed_bounds`, read of the core that was acting. -/
theorem undelayedInstructionStartsNoCountdown : Obligations.UndelayedInstructionStartsNoCountdown := by
  intro i s t hd h
  have hactive : t.core s.turn = t.active := by rw [State.active_def, (exec_turn h).1]
  rw [hactive]
  exact exec_undelayed_bounds hd h

/-- Settles O47: in Non-secure state the no-delay bit is not asked for, and every instruction is undelayed. -/
theorem nonSecureHasNoDelay : Obligations.NonSecureHasNoDelay := by
  intro i s hs
  refine ⟨?_, fun t h hr => exec_nonSecure_prng hs hr h, fun t h => ?_⟩
  · obtain ⟨q, sb, nb, he, hflip, -⟩ := exec_runsRules i s
    rw [he, hflip, rcpExecute_nd_of_nonSecure q _ sb nb hs]
  · obtain ⟨hle, hzero, -⟩ := exec_undelayed_bounds (.inr hs) h
    exact ⟨hle, hzero⟩

end Sys2Proof.Machine

/-! SUPPORT. The statements of 45_sequence_count.md. Both count instructions are a rule on the state after the delay, which
keeps the counter (`State.rcpAfterDelay_seq`), and complete with the counter written over the RCP that the delay leaves
(`finish_setSeq_afterDelay`). -/

namespace Sys2Proof.Machine

/-! ## The counter written and checked -/

/-- Completion with the counter written over an RCP. -/
theorem finish_setRcp_setSeq (s : State) (r : Rcp) (q : BitVec 8) :
    finish ((s.setRcp r).setSeq q) = s.completesWith s.active.arm { r with seq := q } := by
  rw [← finish_setRcp]
  simp [State.setSeq, State.setRcp]

/-- Completion with the counter written over the RCP after the delay. -/
theorem finish_setSeq_afterDelay (i : Instr) (s : State) (q : BitVec 8) :
    finish ((s.afterDelay i).setSeq q) = s.completesWith s.active.arm { s.rcpAfterDelay i with seq := q } :=
  finish_setRcp_setSeq s _ q

theorem countCheckThen_of_eq {tag : Tag} {s : State} (h : s.active.rcp.seq = tag) :
    countCheckThen tag s = .next (finish (s.setSeq (tag + 1))) := by
  rw [countCheckThen, if_pos h, h]

theorem countCheckThen_of_ne {tag : Tag} {s : State} (h : s.active.rcp.seq ≠ tag) :
    countCheckThen tag s = .next (raiseRcpFault .countMismatch s) := by
  rw [countCheckThen, if_neg h]

theorem State.afterDelay_seq (i : Instr) (s : State) : (s.afterDelay i).active.rcp.seq = s.active.rcp.seq := by
  rw [State.afterDelay_active, State.rcpAfterDelay_seq]

/-- The increment of the counter, as the spec writes it (45_sequence_count.md R114). -/
theorem tag_add_one (tag : Tag) : tag + 1 = BitVec.ofNat 8 ((tag.toNat + 1) % 256) :=
  BitVec.eq_of_toNat_eq (by simp)

/-! ## The two instructions in Secure state -/

theorem exec_rcpCountSet {nd : Bool} {rt : Reg} {tag : Tag} {s : State} (h : SecureReady (.rcpCountSet nd rt tag) s) :
    exec (.rcpCountSet nd rt tag) s = .next (finish ((s.afterDelay (.rcpCountSet nd rt tag)).setSeq tag)) :=
  rcpExecute_undisturbed h.toSecureIssue h.undisturbed rfl rfl rfl (.inl h.saltValid)

theorem exec_rcpCountCheck {nd : Bool} {rt : Reg} {tag : Tag} {s : State}
    (h : SecureReady (.rcpCountCheck nd rt tag) s) :
    exec (.rcpCountCheck nd rt tag) s = countCheckThen tag (s.afterDelay (.rcpCountCheck nd rt tag)) :=
  rcpExecute_undisturbed h.toSecureIssue h.undisturbed rfl rfl rfl (.inl h.saltValid)

/-- Settles O38: the rule writes the tag on the state after the delay, and reads neither the counter nor `x[Rt]`. -/
theorem countSetWritesTheCounter : Obligations.CountSetWritesTheCounter := by
  intro s nd rt tag h
  rw [exec_rcpCountSet h, finish_setSeq_afterDelay]

/-- Settles O39: the check meets the counter from before the delay, and each of its two answers is one clause. -/
theorem countCheckAssertsAndIncrements : Obligations.CountCheckAssertsAndIncrements := by
  intro s nd rt tag h
  rw [exec_rcpCountCheck h]
  refine ⟨fun hmatch => ?_, fun hmismatch => ⟨_, countCheckThen_of_ne ?_, raiseRcpFault_faulted _ _⟩⟩
  · rw [countCheckThen_of_eq ((State.afterDelay_seq _ s).trans hmatch), finish_setSeq_afterDelay, tag_add_one]
  · rwa [State.afterDelay_seq]

end Sys2Proof.Machine

/-! SUPPORT. The statements of 46_panic.md. `rcp_panic` is `panicState` on the state after the delay
(`exec_rcpPanic`), so each clause about it is a law of `panicState`; an abandoned panic is a turn of a stalled core
(`stalledTick`) that meets an interrupt. -/

namespace Sys2Proof.Machine

/-! ## What a panic leaves alone -/

@[simp] theorem panicState_turn (s : State) : (panicState s).turn = s.turn := by simp [panicState]
@[simp] theorem panicState_draws (s : State) : (panicState s).draws = s.draws := by simp [panicState]
@[simp] theorem panicState_mem (s : State) : (panicState s).mem = s.mem := by simp [panicState]

/-! ## `rcp_panic` in Secure state -/

theorem exec_rcpPanic {nd : Bool} {s : State} (h : SecureReady (.rcpPanic nd) s) :
    exec (.rcpPanic nd) s = .next (panicState (s.afterDelay (.rcpPanic nd))) :=
  (execRcpPanic.eq_1 nd s).trans
    (rcpExecute_undisturbed h.toSecureIssue h.undisturbed rfl rfl rfl (.inl h.saltValid))

/-- The panicking core stalls where it stands, with the RCP that the delay leaves. -/
theorem panicState_afterDelay_core (i : Instr) (s : State) :
    (panicState (s.afterDelay i)).core s.turn = { s.active with run := .stalled, rcp := s.rcpAfterDelay i } := by
  have h := panicState_core (s.afterDelay i)
  rwa [State.afterDelay_turn, State.afterDelay_active] at h

/-- The delay is the panicking core's own: the other core takes the trigger in the state it was in. -/
theorem panicState_afterDelay_core_other (i : Instr) (s : State) :
    (panicState (s.afterDelay i)).core s.turn.other = (s.core s.turn.other).trigger .crossCore := by
  have h := panicState_core_other (s.afterDelay i)
  rwa [State.afterDelay_turn, State.afterDelay_core_other] at h

/-- Settles O40: the acting core's clauses are `panicState_afterDelay_core`, the other core's are those of a fault
trigger. The own fault register is clear because neither the delay nor the stall writes it. -/
theorem panicStallsAndFaultsTheOtherCore : Obligations.PanicStallsAndFaultsTheOtherCore := by
  intro s nd h
  have hown := panicState_afterDelay_core (.rcpPanic nd) s
  have hother := panicState_afterDelay_core_other (.rcpPanic nd) s
  refine ⟨_, exec_rcpPanic h, ?_, ?_, ?_, ?_, ?_, ?_, ?_, ?_, ?_⟩
  · rw [State.active_def, panicState_turn, State.afterDelay_turn, hown]
  · rw [State.fault, hown, State.rcpAfterDelay_fault]
    exact h.noFault
  · rw [hother, CoreState.trigger_rcp]
  · rw [State.nmi, hother, CoreState.trigger_fault]
  · rw [hother, CoreState.trigger_arm]
  · rw [hother, CoreState.trigger_run]
  · rw [panicState_mem, State.afterDelay_mem]
  · rw [panicState_turn, State.afterDelay_turn]
  · rw [panicState_draws, State.afterDelay_draws]

/-! ## An abandoned panic -/

/-- A stalled core's turn that meets an interrupt leaves the fault register set. -/
theorem stalledTick_fault_of_interrupt {s : State} {irq : Interrupt} (h : s.active.interruptAt s.draws = some irq) :
    ((stalledTick s).core s.turn).rcp.fault = true := by
  rw [stalledTick_rcp, h, Option.isSome_some, Bool.or_true]

/-- Settles O41: the step is the stalled core's turn, which sets the fault register, hence the NMI, and writes neither
the stall nor the registers. -/
theorem abandonedPanicAssertsTheNmi : Obligations.AbandonedPanicAssertsTheNmi := by
  intro s irq hstalled _ hirq
  have hfault := stalledTick_fault_of_interrupt hirq
  refine ⟨_, step_of_stalled hstalled, ?_, ?_, ?_, ?_⟩
  · rwa [State.fault, State.endTurn_core]
  · rwa [State.nmi, State.endTurn_core]
  · rwa [State.endTurn_core, stalledTick_run]
  · rw [State.endTurn_core, stalledTick_arm, State.active_def]

end Sys2Proof.Machine

/-! SUPPORT. The statements of 60_exceptions.md. The set fault register is answered before everything but step 0
(`exec_stall`, `rcpReject_stall`); in Non-secure state every instruction does its own masked rule (`exec_nonSecure`), and
what it leaves of its core is a function of what that core shows (`exec_visible`); faults and stalls last because no
operation clears a fault register or a stall (`CoreState.KeepsStop`). -/

namespace Sys2Proof.Machine

/-! ## The stall while the fault register is set -/

theorem exec_stall {i : Instr} {s : State} (h : issueRefusal s.active.arm i.wellFormed = none)
    (hf : s.active.rcp.fault = true) : exec i s = .next (stallForever s) := by
  obtain ⟨q, sb, nb, he, -, hregs, -⟩ := exec_issue i s
  rw [he, rcpExecute_stall (hregs ▸ h) hf]

theorem rcpReject_stall {ok : Bool} {s : State} (h : issueRefusal s.active.arm ok = none)
    (hf : s.active.rcp.fault = true) (valid : Bool) : rcpReject ok valid s = .next (stallForever s) := by
  simp [rcpReject, h, hf]

/-- Settles O14: instructions by `exec_stall`; invalid and unlisted words are both rejected, and by `rcpReject_stall`
alike. -/
theorem faultRegisterStallsEveryInstruction : Obligations.FaultRegisterStallsEveryInstruction := by
  refine ⟨fun i s h hf => exec_stall (issueRefusal_issuable h rfl) hf, fun s w c hit hen hregs hf hd => ?_⟩
  have hsent := issueRefusal_none hit hen hregs
  rcases hd with hd | hd <;> rw [executeWord_of_error exec s hd] <;> exact rcpReject_stall hsent hf _

/-! ## Invalid words and the invalid salt -/

theorem rcpReject_invalid_secure {ok : Bool} {s : State} (h : issueRefusal s.active.arm ok = none)
    (hf : s.active.rcp.fault = false) (hs : s.active.arm.security = .secure) :
    rcpReject ok false s = .next (raiseRcpFault .invalidInstruction s) := by
  simp [rcpReject, h, hf, hs]

theorem rcpReject_invalid_nonSecure {ok : Bool} {s : State} (h : issueRefusal s.active.arm ok = none)
    (hf : s.active.rcp.fault = false) (hs : s.active.arm.security = .nonSecure) :
    rcpReject ok false s = .next (raiseUsageFault s) := by
  simp [rcpReject, h, hf, hs]

/-- Settles O10: the word is rejected with an RCP fault, after which `exec_stall` answers every instruction. -/
theorem secureInvalidWordFaults : Obligations.SecureInvalidWordFaults := by
  intro s w c hit hen hregs hf hs hd
  have hfaulted := raiseRcpFault_faulted .invalidInstruction s
  refine ⟨_, ?_, hfaulted.fault, hfaulted.nmi, fun i hi => exec_stall (issueRefusal_issuable hi rfl) (hfaulted.fault _)⟩
  rw [executeWord_of_error exec s hd]
  exact rcpReject_invalid_secure (issueRefusal_none hit hen hregs) hf hs

/-- In Secure state an instruction that needs a valid salt and is issued without one is an RCP fault. -/
theorem rcpExecute_saltInvalid {q : Issue} {sb nb : State → Out} {i : Instr} {s : State} (h : SecureIssue i s)
    (hregs : q.regsOk = i.wellFormed) (hport : q.portRefusal = none) (hv : s.active.rcp.saltValid = false)
    (hexempt : q.saltExempt = false) : rcpExecute q sb nb s = .next (raiseRcpFault .saltInvalid s) := by
  have hf : s.active.rcp.fault = false := h.noFault
  simp [rcpExecute, securePath, issueRefusal_issuable h.toIssuable hregs, hf, h.secure, hport, hv, hexempt]

/-- The instructions that name a port are exempt from the salt check. -/
theorem saltTarget_of_not_saltExempt {i : Instr} (h : i.saltExempt = false) : i.saltTarget = none := by
  cases i with
  | rcpSaltCore0 | rcpSaltCore1 => cases h
  | _ => rfl

/-- Settles O16: no such instruction is refused by its port, so it meets the salt check. -/
theorem invalidSaltFaultsInSecureState : Obligations.InvalidSaltFaultsInSecureState := by
  intro i s h hv hexempt
  obtain ⟨q, sb, nb, he, -, hregs, hqexempt, -, hport⟩ := exec_issue i s
  have hnone : q.portRefusal = none := hport.trans (if_pos (.inl (saltTarget_of_not_saltExempt hexempt)))
  have hfaulted := raiseRcpFault_faulted .saltInvalid s
  exact ⟨_, he.trans (rcpExecute_saltInvalid h hregs hnone hv (hqexempt.trans hexempt)), hfaulted.fault, hfaulted.nmi⟩

/-! ## What a faulting word writes -/

/-- Everything a rejected word can answer next. -/
theorem rcpReject_cases {ok valid : Bool} {s t : State} (h : rcpReject ok valid s = .next t) :
    (s.active.rcp.fault = true ∧ t = stallForever s) ∨
    (s.active.rcp.fault = false ∧ (t = raiseRcpFault .invalidInstruction s ∨ t = raiseUsageFault s)) := by
  cases hr : issueRefusal s.active.arm ok with
  | some r => rw [rcpReject_of_issueRefusal hr] at h; cases h
  | none =>
    cases hf : s.active.rcp.fault with
    | true => rw [rcpReject_stall hr hf] at h; cases h; exact .inl ⟨rfl, rfl⟩
    | false =>
      cases valid with
      | true => rw [rcpReject_unlisted hr hf] at h; cases h
      | false =>
        cases hs : s.active.arm.security with
        | secure => rw [rcpReject_invalid_secure hr hf hs] at h; cases h; exact .inr ⟨rfl, .inl rfl⟩
        | nonSecure => rw [rcpReject_invalid_nonSecure hr hf hs] at h; cases h; exact .inr ⟨rfl, .inr rfl⟩

/-- Everything a word can answer next: what a listed instruction does, or what a rejected word does. -/
theorem executeWord_cases {w : Word} {s t : State} (h : executeWord exec w s = .next t) :
    (∃ i, exec i s = .next t) ∨ ∃ ok valid, rcpReject ok valid s = .next t := by
  cases hd : decodeWord w with
  | ok i => exact .inl ⟨i, by rwa [executeWord_of_ok exec s hd] at h⟩
  | error e =>
    rw [executeWord_of_error exec s hd] at h
    cases e with
    | notRcp | ldcStc | truncated => cases h
    | invalid c => exact .inr ⟨_, _, h⟩
    | unlisted c => exact .inr ⟨_, _, h⟩

/-- An instruction that sets its own core's fault register does so by an RCP fault after its delay. -/
theorem exec_eq_raiseRcpFault {i : Instr} {s t : State} (h : exec i s = .next t) (hf : s.fault s.turn = false)
    (ht : t.fault s.turn = true) : ∃ c p d, t = raiseRcpFault c (s.withDelay p d) := by
  have hf : s.active.rcp.fault = false := hf
  rw [State.fault] at ht
  rcases exec_acting h with ⟨hf', _⟩ | ⟨_, _, p, d, e⟩ | ⟨_, _, c, p, d, rfl⟩ | ⟨_, a, r, _, ⟨p, d, q, rfl, _⟩, e⟩ |
    ⟨_, _, _, k, v, p, d, _, _, e⟩ | ⟨_, _, _, p, d, e⟩
  case inr.inr.inl => exact ⟨c, p, d, rfl⟩
  case inl => simp [hf] at hf'
  case inr.inr.inr.inr.inl => by_cases hk : k = s.turn <;> simp [e, hk, hf] at ht
  all_goals simp [e, hf] at ht

/-- A word that sets its own core's fault register does so by an RCP fault after what delay it has. -/
theorem executeWord_eq_raiseRcpFault {w : Word} {s t : State} (h : executeWord exec w s = .next t)
    (hf : s.fault s.turn = false) (ht : t.fault s.turn = true) : ∃ c p d, t = raiseRcpFault c (s.withDelay p d) := by
  rcases executeWord_cases h with ⟨i, hi⟩ | ⟨ok, valid, hr⟩
  · exact exec_eq_raiseRcpFault hi hf ht
  · have hnot : (s.core s.turn).rcp.fault ≠ true := by rw [State.fault] at hf; simp [hf]
    rcases rcpReject_cases hr with ⟨hf', _⟩ | ⟨_, rfl | rfl⟩
    · exact absurd hf' hnot
    · exact ⟨.invalidInstruction, _, _, by rw [State.withDelay_self]⟩
    · exact absurd (by simpa [State.fault] using ht) hnot

/-- A delay writes no field of a core but the generator and the countdown. -/
theorem State.withDelay_core_frame (s : State) (p : BitVec 24) (d : BitVec 7) (k : CoreId) :
    (s.withDelay p d).core k =
      { s.core k with rcp := { (s.core k).rcp with
          prng := ((s.withDelay p d).core k).rcp.prng, delay := ((s.withDelay p d).core k).rcp.delay } } := by
  rcases CoreId.eq_or_other k s.turn with rfl | rfl <;> simp [State.active_def]

/-- Settles O17: an RCP fault keeps all that `Faulted` says, and the delay writes the acting core's generator and countdown
only. -/
theorem faultingInstructionWritesNothingElse : Obligations.FaultingInstructionWritesNothingElse := by
  intro w s t h hf ht
  obtain ⟨c, p, d, rfl⟩ := executeWord_eq_raiseRcpFault h hf ht
  have hfaulted := raiseRcpFault_faulted c (s.withDelay p d)
  have hdelay := s.withDelay_core_frame p d
  refine ⟨hfaulted.fault, fun k => ?_, fun k => ?_, fun k => ?_, fun k => ?_, fun k => ?_, fun k => ?_, ?_, ?_, ?_, ?_, ?_⟩
  · rw [hfaulted.arm, hdelay]
  · rw [hfaulted.run, hdelay]
  · rw [hfaulted.irqs, hdelay]
  · rw [hfaulted.saltLow, hdelay]
  · rw [hfaulted.saltValid, hdelay]
  · rw [hfaulted.seq, hdelay]
  · rw [hfaulted.prng, State.withDelay_core_other]
  · rw [hfaulted.delay, State.withDelay_core_other]
  · rw [hfaulted.mem, State.withDelay_mem]
  · rw [hfaulted.turn, State.withDelay_turn]
  · rw [hfaulted.draws, State.withDelay_draws]

end Sys2Proof.Machine

namespace Sys2Proof

open Machine in
/-- What an instruction does in Non-secure state once it is sent to the RCP and the fault register is clear
(60_exceptions.md R131, R132). -/
def Instr.nonSecureRule : Instr → State → Out
  | .rcpSaltCore0 _ _ _ | .rcpSaltCore1 _ _ _ => fun _ => .refused .nonSecureSaltWrite
  | .rcpCanaryStatus _ rt | .rcpCanaryGet _ rt _ => maskedRead rt
  | .rcpRandomByte _ rt => randomByteMasked rt
  | .rcpCountSet _ _ tag => setSeqMasked fun _ => tag
  | .rcpCountCheck _ _ _ => setSeqMasked fun t => t.active.rcp.seq + 1
  | .rcpPanic _ => fun _ => .refused .nonSecurePanic
  | _ => noEffect

theorem Instr.nonSecureRule_of_isDataAssertion {i : Instr} (h : i.isDataAssertion = true) :
    i.nonSecureRule = Machine.noEffect := by
  cases i with
  | rcpSaltCore0 | rcpSaltCore1 | rcpCanaryStatus | rcpCanaryGet | rcpRandomByte | rcpCountSet | rcpCountCheck
  | rcpPanic => cases h
  | _ => rfl

namespace Machine

/-! ## Non-secure state -/

/-- The common sequence hands a Non-secure instruction its `nonSecureRule`. -/
theorem exec_nonSecureRule (i : Instr) (s : State) :
    ∃ q sb, exec i s = rcpExecute q sb i.nonSecureRule s ∧ q.regsOk = i.wellFormed := by
  cases i <;> exact ⟨_, _, rfl, rfl⟩

theorem exec_nonSecure {i : Instr} {s : State} (h : issueRefusal s.active.arm i.wellFormed = none)
    (hf : s.active.rcp.fault = false) (hs : s.active.arm.security = .nonSecure) :
    exec i s = i.nonSecureRule (undelayed s) := by
  obtain ⟨q, sb, he, hregs⟩ := exec_nonSecureRule i s
  rw [he, rcpExecute_nonSecure (hregs ▸ h) hf hs]

theorem exec_nonSecureIssue {i : Instr} {s : State} (h : NonSecureIssue i s) :
    exec i s = i.nonSecureRule (s.setRcp (s.active.rcp.afterDelay false s.draws)) :=
  exec_nonSecure (issueRefusal_issuable h.toIssuable rfl) h.noFault h.nonSecure

/-- Settles O42: all three do a masked read, `rcp_random_byte` with or without a generation before it. -/
theorem nonSecureReadsAreZero : Obligations.NonSecureReadsAreZero := by
  intro s nd rt tag
  refine ⟨fun h => readCompletes_of (exec_nonSecureIssue h), fun h => readCompletes_of (exec_nonSecureIssue h),
    fun h => ?_⟩
  have he := exec_nonSecureIssue h
  rw [Instr.nonSecureRule, randomByteMasked] at he
  split at he
  · refine .inr (readCompletes_of (he.trans ?_))
    simp [maskedRead, State.advanceGenerator, State.randomGeneration, State.setRcp]
  · exact .inl (readCompletes_of he)

/-- Settles O43: their Non-secure rule is `noEffect`. -/
theorem nonSecureAssertionsDoNothing : Obligations.NonSecureAssertionsDoNothing := by
  intro i s hi h
  rw [exec_nonSecureIssue h, Instr.nonSecureRule_of_isDataAssertion hi, noEffect, finish_setRcp]

/-- The masked count instructions complete with the counter as it was or written. -/
theorem setSeqMasked_setRcp {v : State → BitVec 8} {s : State} {r : Rcp} {n : BitVec 8} (hv : v (s.setRcp r) = n) :
    setSeqMasked v (s.setRcp r) = .next (s.completesWith s.active.arm r) ∨
    setSeqMasked v (s.setRcp r) = .next (s.completesWith s.active.arm { r with seq := n }) := by
  unfold setSeqMasked noEffect
  split
  · exact .inr (by rw [finish_setRcp_setSeq, hv])
  · exact .inl (by rw [finish_setRcp])

/-- Settles O44: both are masked counts of the RCP that a running countdown leaves, whose counter is the old one. -/
theorem nonSecureCountEitherWay : Obligations.NonSecureCountEitherWay := by
  intro s nd rt tag
  refine ⟨fun h => ?_, fun h => ?_⟩ <;> rw [exec_nonSecureIssue h, Instr.nonSecureRule]
  · exact setSeqMasked_setRcp (v := fun _ => tag) rfl
  · exact setSeqMasked_setRcp (by simp)

/-- Settles O45: of the six kinds of next state a Non-secure instruction has the stall and completion only, and neither
writes a fault register or the other core. -/
theorem nonSecureNeverFaults : Obligations.NonSecureNeverFaults := by
  intro i s t hs h
  have hkept : t.active.rcp.fault = s.active.rcp.fault ∧ t.core s.turn.other = s.core s.turn.other ∧
      { t.active.rcp with seq := 0, prng := 0, delay := 0 } = { s.active.rcp with seq := 0, prng := 0, delay := 0 } := by
    cases exec_cases h with
    | stall => simp
    | completed a r hf ha hr =>
      obtain ⟨p, d, q, rfl, -⟩ := hr
      exact ⟨by simp [State.withArmRcp], finish_withArmRcp_core_other .., by simp [State.withArmRcp]⟩
    | abandoned _ _ hsec | faulted _ _ _ _ hsec | salt _ _ _ _ _ hsec | panic _ _ _ hsec => simp [hs] at hsec
  obtain ⟨hfault, hother, hrcp⟩ := hkept
  refine ⟨fun k => ?_, hother, hrcp⟩
  rcases CoreId.eq_or_other k s.turn with rfl | rfl
  · rwa [State.active_def, (exec_turn h).1] at hfault
  · rw [State.fault, hother, State.fault]

/-! ## What a Non-secure instruction shows -/

/-- What Non-secure code sees of the machine: which core acts, its registers, flags, pc and stall, and its fault
register, which its stall tells. -/
structure Visible where
  turn : CoreId
  arm : ArmCore
  run : RunState
  fault : Bool

/-- The visible part of a state. -/
def State.visible (s : State) : Visible := ⟨s.turn, s.active.arm, s.active.run, s.active.rcp.fault⟩

/-- The visible part of an answer. -/
def visibleOut : Out → Host.Outcome Visible Fault Refusal
  | .next t => .next t.visible
  | .fault r => .fault r
  | .refused r => .refused r

theorem exists_next_of_visibleOut {o : Out} {t : State} (h : visibleOut (.next t) = visibleOut o) :
    ∃ t', o = .next t' ∧ t.visible = t'.visible := by
  cases o with
  | next t' => exact ⟨t', rfl, Host.Outcome.next.inj h⟩
  | fault | refused => cases h

theorem eq_refused_of_visibleOut {o : Out} {r : Refusal} (h : visibleOut (.refused r) = visibleOut o) :
    o = .refused r := by
  cases o with
  | next | fault => cases h
  | refused r' => rw [Host.Outcome.refused.inj h]

section
variable (s : State)

@[simp] theorem visible_setRcp {r : Rcp} (h : r.fault = s.active.rcp.fault) : (s.setRcp r).visible = s.visible := by
  simp [State.visible, h]
@[simp] theorem visible_undelayed : (undelayed s).visible = s.visible := visible_setRcp s rfl
@[simp] theorem visible_setSeq (q : BitVec 8) : (s.setSeq q).visible = s.visible := visible_setRcp s rfl
@[simp] theorem visible_advanceGenerator : s.advanceGenerator.visible = s.visible := visible_setRcp s rfl
@[simp] theorem visible_finish : (finish s).visible =
    { s.visible with arm := { s.visible.arm with pc := s.visible.arm.pc + 4 } } := by simp [State.visible]
@[simp] theorem visible_readInto (rt : Reg) (v : Word) : (s.readInto rt v).visible =
    { s.visible with arm := s.visible.arm.readInto rt v } := by simp [State.visible]
@[simp] theorem visible_stallForever : (stallForever s).visible = { s.visible with run := .stalled } := by
  simp [State.visible]

/-- A masked read shows the same whether the generator advanced. -/
theorem visibleOut_randomByteMasked (rt : Reg) :
    visibleOut (randomByteMasked rt s) = visibleOut (maskedRead rt s) := by
  unfold randomByteMasked
  split <;> simp [maskedRead, readThen, visibleOut]

/-- A masked count shows no more than an assertion. -/
theorem visibleOut_setSeqMasked (v : State → BitVec 8) : visibleOut (setSeqMasked v s) = visibleOut (noEffect s) := by
  unfold setSeqMasked
  split <;> simp [noEffect, visibleOut]
end

/-- What a Non-secure rule shows depends on nothing that is not visible. -/
theorem nonSecureRule_visible (i : Instr) {s s' : State} (h : s.visible = s'.visible) :
    visibleOut (i.nonSecureRule s) = visibleOut (i.nonSecureRule s') := by
  have hread : ∀ rt, visibleOut (maskedRead rt s) = visibleOut (maskedRead rt s') := by
    simp [maskedRead, readThen, visibleOut, h]
  have hnone : visibleOut (noEffect s) = visibleOut (noEffect s') := by simp [noEffect, visibleOut, h]
  cases i with
  | rcpSaltCore0 | rcpSaltCore1 | rcpPanic => rfl
  | rcpCanaryStatus | rcpCanaryGet => exact hread _
  | rcpRandomByte => simpa only [Instr.nonSecureRule, visibleOut_randomByteMasked] using hread _
  | rcpCountSet | rcpCountCheck => simpa only [Instr.nonSecureRule, visibleOut_setSeqMasked] using hnone
  | _ => exact hnone

/-- What a Non-secure instruction shows depends on nothing that is not visible. -/
theorem exec_visible (i : Instr) {s s' : State} (hs : s.active.arm.security = .nonSecure)
    (h : s.visible = s'.visible) : visibleOut (exec i s) = visibleOut (exec i s') := by
  have harm : s.active.arm = s'.active.arm := congrArg Visible.arm h
  have hfault : s.active.rcp.fault = s'.active.rcp.fault := congrArg Visible.fault h
  cases hr : issueRefusal s.active.arm i.wellFormed with
  | some r => rw [exec_of_issueRefusal hr, exec_of_issueRefusal (harm ▸ hr)]
  | none =>
    cases hf : s.active.rcp.fault with
    | true => simp [exec_stall hr hf, exec_stall (harm ▸ hr) (hfault ▸ hf), visibleOut, h]
    | false =>
      rw [exec_nonSecure hr hf hs, exec_nonSecure (harm ▸ hr) (hfault ▸ hf) (harm ▸ hs)]
      exact nonSecureRule_visible i (by simpa using h)

/-- Settles O46: the two states agree in what is visible, hence so do the two answers (`exec_visible`). -/
theorem nonSecureLearnsNothing : Obligations.NonSecureLearnsNothing := by
  intro i s s' hs hturn harm hrun hfault
  have hvisible : s.visible = s'.visible := by
    rw [State.visible, State.visible, hturn, harm, hrun]
    exact congrArg _ hfault
  have hout := exec_visible i hs hvisible
  refine ⟨fun t ht => ?_, fun r hr => eq_refused_of_visibleOut (hr ▸ hout)⟩
  obtain ⟨t', ht', hsame⟩ := exists_next_of_visibleOut (ht ▸ hout)
  exact ⟨t', ht', congrArg Visible.turn hsame, congrArg Visible.arm hsame, congrArg Visible.run hsame,
    congrArg Visible.fault hsame⟩

/-! ## The control state -/

/-- An `mrc` writes registers or flags and nothing else of the Arm part. -/
theorem ArmAfter.eq_of_x_flags {i : Instr} {s : State} {a : ArmCore} (h : ArmAfter i s a) :
    a = { s.active.arm with x := a.x, flags := a.flags } := by
  rcases h with rfl | ⟨rt, v, -, rfl, -⟩
  · rfl
  · unfold ArmCore.readInto
    split <;> rfl

/-- What an instruction can leave of a core's Arm part: other registers and flags, and the acting core's pc 4 further. -/
theorem exec_arm_frame {i : Instr} {s t : State} (h : exec i s = .next t) (k : CoreId) :
    ∃ x f p, (t.core k).arm = { (s.core k).arm with x := x, flags := f, pc := p } ∧
      (p = (s.core k).arm.pc ∨ k = s.turn ∧ p = (s.core k).arm.pc + 4) := by
  rcases CoreId.eq_or_other k s.turn with rfl | rfl
  · rcases exec_acting_arm h with e | ⟨a, ha, e⟩
    · exact ⟨_, _, _, e, .inl rfl⟩
    · rw [ha.eq_of_x_flags] at e
      exact ⟨_, _, _, e, .inr ⟨rfl, rfl⟩⟩
  · exact ⟨_, _, _, exec_other_arm h, .inl rfl⟩

/-- Settles O50, by `exec_arm_frame`. -/
theorem controlStateIsUnchanged : Obligations.ControlStateIsUnchanged := by
  intro i s t h
  choose x f p he hp using exec_arm_frame h
  simp only [he, implies_true, true_and]
  exact ⟨(hp s.turn).imp id And.right, (hp s.turn.other).resolve_right fun ⟨hk, _⟩ => CoreId.other_ne _ hk⟩

/-! ## Faults and stalls last -/

/-- From `c` to `d` a set fault register and a stall last, and with either of them the Arm part stays. -/
structure CoreState.KeepsStop (c d : CoreState) : Prop where
  fault : c.rcp.fault = true → d.rcp.fault = true ∧ d.arm = c.arm
  stalled : c.run = .stalled → d.run = .stalled ∧ d.arm = c.arm

theorem CoreState.KeepsStop.of_arm_eq {c d : CoreState} (ha : d.arm = c.arm) (hf : c.rcp.fault = true → d.rcp.fault = true)
    (hr : c.run = .stalled → d.run = .stalled) : c.KeepsStop d := ⟨fun h => ⟨hf h, ha⟩, fun h => ⟨hr h, ha⟩⟩

theorem CoreState.KeepsStop.refl (c : CoreState) : c.KeepsStop c := .of_arm_eq rfl id id

theorem CoreState.trigger_keepsStop (c : CoreState) (cause : RcpCause) : c.KeepsStop (c.trigger cause) :=
  .of_arm_eq (by simp) (by simp) (by simp)

theorem stalledTick_keepsStop (s : State) (k : CoreId) : (s.core k).KeepsStop ((stalledTick s).core k) := by
  refine .of_arm_eq (stalledTick_arm s k) (fun hf => ?_) (stalledTick_run s k).trans
  rcases CoreId.eq_or_other k s.turn with rfl | rfl
  · rw [stalledTick_rcp, State.active_def, hf, Bool.true_or]
  · rwa [stalledTick_core_other]

theorem stallForever_keepsStop (s : State) (k : CoreId) : (s.core k).KeepsStop ((stallForever s).core k) := by
  rcases CoreId.eq_or_other k s.turn with rfl | rfl
  · rw [stallForever_core]; exact .of_arm_eq rfl id fun _ => rfl
  · rw [stallForever_core_other]; exact .refl _

theorem raiseRcpFault_keepsStop (c : RcpCause) (s : State) (k : CoreId) :
    (s.core k).KeepsStop ((raiseRcpFault c s).core k) := by
  rcases CoreId.eq_or_other k s.turn with rfl | rfl
  · rw [raiseRcpFault_core]; exact CoreState.trigger_keepsStop ..
  · rw [raiseRcpFault_core_other]; exact CoreState.trigger_keepsStop ..

theorem raiseUsageFault_keepsStop (s : State) (k : CoreId) : (s.core k).KeepsStop ((raiseUsageFault s).core k) := by
  rcases CoreId.eq_or_other k s.turn with rfl | rfl
  · rw [raiseUsageFault, State.setActive_core]; exact .of_arm_eq rfl id id
  · rw [raiseUsageFault, State.setActive_core_other]; exact .refl _

/-- An instruction of a running core stalls it if its fault register is set, and leaves the other core's stop alone. -/
theorem exec_keepsStop {i : Instr} {s t : State} (h : exec i s = .next t) (hr : s.active.run = .running) (k : CoreId) :
    (s.core k).KeepsStop (t.core k) := by
  rcases CoreId.eq_or_other k s.turn with rfl | rfl
  · refine ⟨fun hf => ?_, fun hstalled => ?_⟩
    · rcases exec_acting h with ⟨_, e⟩ | ⟨hf', _⟩ | ⟨hf', _⟩ | ⟨hf', _⟩ | ⟨hf', _⟩ | ⟨hf', _⟩
      case inl => rw [e]; exact ⟨hf, rfl⟩
      all_goals rw [State.active_def, hf] at hf'; cases hf'
    · rw [State.active_def, hstalled] at hr; cases hr
  · rcases exec_other h with e | ⟨e, _⟩ | ⟨_, _, _, _, v, e⟩ <;> rw [e]
    · exact .refl _
    · exact CoreState.trigger_keepsStop ..
    · exact .of_arm_eq rfl id id

/-- Settles O57: every thing a step can do (`step_cases`) keeps a stop of either core. -/
theorem faultIsFinal : Obligations.FaultIsFinal := by
  intro s t k h
  have hkeeps : (s.core k).KeepsStop (t.core k) := by
    rcases step_cases h with ⟨_, rfl⟩ | ⟨hr, u, rfl, ⟨i, hi⟩ | ⟨_, rfl⟩ | ⟨_, rfl | rfl⟩⟩ <;> rw [State.endTurn_core]
    · exact stalledTick_keepsStop s k
    · exact exec_keepsStop hi hr k
    · exact stallForever_keepsStop s k
    · exact raiseRcpFault_keepsStop _ s k
    · exact raiseUsageFault_keepsStop s k
  exact ⟨hkeeps.fault, hkeeps.stalled⟩

/-! ## The UsageFault and the stalled core -/

/-- A UsageFault that ends a run. -/
theorem raiseUsageFault_of_not_ended {s : State} (h : s.active.ended = none) :
    raiseUsageFault s = s.setActive { s.active with ended := some .undefInstr } := by
  rw [raiseUsageFault, h]; rfl

/-- A core whose run ended in a UsageFault has no further step. -/
theorem step_of_undefInstr {s : State} (hr : s.active.run = .running) (he : s.active.ended = some .undefInstr) :
    step s = .fault .undefInstrNonSecure := by
  simp only [step, cycle, coreStep, hr, he, if_true, passTurn]

/-- The begin of a later run forgets that a UsageFault ended the one before. -/
theorem CoreState.runCoreCode_undefInstr {c : CoreState} (hr : c.run = .running) (he : c.ended = none)
    (hf : c.rcp.fault = false) (a : ArmCore) :
    ({ c with ended := some .undefInstr } : CoreState).runCoreCode a = c.runCoreCode a := by
  simp [CoreState.runCoreCode, CoreState.ownCode, hr, he, hf]

/-- Settles O11: the word is rejected with a UsageFault, which writes only the record of the acting core's run. -/
theorem nonSecureInvalidWordIsUsageFault : Obligations.NonSecureInvalidWordIsUsageFault := by
  intro s w c hit hen hregs hf hs hended hd
  have husage := raiseUsageFault_of_not_ended hended
  refine ⟨raiseUsageFault s, ?_, husage, raiseUsageFault_rcp s, fun k => ?_, ?_, fun hr => ⟨?_, fun a => ?_⟩⟩
  · rw [executeWord_of_error exec s hd]
    exact rcpReject_invalid_nonSecure (issueRefusal_none hit hen hregs) hf hs
  · rw [State.nmi, raiseUsageFault_rcp, State.nmi]
  · rw [husage, State.setActive_core_other]
  · rw [husage]
    exact step_of_undefInstr (by simpa using hr) (by simp)
  · rw [husage, State.runCoreCode, State.setActive_core, CoreState.runCoreCode_undefInstr hr hended hf, State.setActive,
      State.setCore_setCore, State.active_def, State.runCoreCode]

/-- Settles O15: the step is the stalled core's turn, and its own code has no effect. -/
theorem stalledCoreRetiresNothing : Obligations.StalledCoreRetiresNothing := by
  intro s hr
  refine ⟨fun a => s.runCoreCode_stalled _ a hr, fun v => ⟨s.writeNsacr7_stalled v hr, s.writeCpacrNs7_stalled v hr⟩,
    stalledTick s, ?_, stalledTick_core_other s, stalledTick_mem s, stalledTick_draws s, ?_, stalledTick_arm s _,
    stalledTick_irqs s _, stalledTick_rcp s⟩
  · rw [step_of_stalled hr, State.endTurn_eq, stalledTick_turn, stalledTick_turns]
  · exact (stalledTick_run s _).trans hr

end Machine
end Sys2Proof

/-! SUPPORT. The statements of 70_reset_and_hazards.md: what a step keeps, and the instruction it runs. The invariant says of
each core, beside the other one, that it is sound (`inv_iff`); each operation of the state keeps that, hence so does whatever
a step can do (`step_cases`). -/

namespace Sys2Proof.Machine

/-! ## The invariant, core by core -/

/-- What the invariant says of core `c` beside core `d`: an even pc; no run that ended in `Fault` without the fault register,
and no fault register without a run that ended; and, while the register is clear, a stall exactly when `d` is faulted, which
is the stall of a panic. -/
structure CoreState.SoundBeside (c d : CoreState) : Prop where
  pcEven : c.arm.pc.getLsbD 0 = false
  endedFaulted : ∀ cause, c.ended = some (.rcpFault cause) → c.rcp.fault = true
  faultEnded : c.rcp.fault = true → c.ended ≠ none
  stalledIff : c.rcp.fault = false → (c.run = .stalled ↔ d.rcp.fault = true)

/-- The invariant is the form of memory and the soundness of each core beside the other. -/
theorem inv_iff {s : State} :
    Inv s ↔ Memory.wf s.mem = true ∧ ∀ k, (s.core k).SoundBeside (s.core k.other) := by
  constructor
  · intro h
    refine ⟨h.memWf, fun k => ⟨h.pcEven k, h.endedFaulted k, h.faultEnded k, fun hclear => ⟨fun hr => ?_, fun hd => ?_⟩⟩⟩
    · exact (h.stalledFault k hr).resolve_left (by simp [State.fault, hclear])
    · simpa using h.faultDiffers k.other hd (by simpa [State.fault] using hclear)
  · rintro ⟨hmem, hcore⟩
    refine ⟨hmem, fun k => (hcore k).pcEven, fun k => (hcore k).endedFaulted, fun k => (hcore k).faultEnded,
      fun k hr => ?_, fun k hf hclear => ?_⟩
    · cases hf : s.fault k with
      | true => exact .inl rfl
      | false => exact .inr (((hcore k).stalledIff hf).1 hr)
    · exact ((hcore k.other).stalledIff hclear).2 (by simpa [State.fault] using hf)

/-- Two sound cores make the invariant. -/
theorem inv_of_cores {s : State} (k : CoreId) (hmem : Memory.wf s.mem = true)
    (hk : (s.core k).SoundBeside (s.core k.other)) (ho : (s.core k.other).SoundBeside (s.core k)) : Inv s := by
  refine inv_iff.2 ⟨hmem, fun j => ?_⟩
  rcases CoreId.eq_or_other j k with rfl | rfl
  · exact hk
  · simpa using ho

theorem Inv.core {s : State} (h : Inv s) (k : CoreId) : (s.core k).SoundBeside (s.core k.other) := (inv_iff.1 h).2 k

theorem Inv.core_other {s : State} (h : Inv s) (k : CoreId) : (s.core k.other).SoundBeside (s.core k) := by
  simpa using h.core k.other

theorem Inv.active {s : State} (h : Inv s) : s.active.SoundBeside (s.core s.turn.other) := h.core s.turn

theorem Inv.other {s : State} (h : Inv s) : (s.core s.turn.other).SoundBeside s.active :=
  h.core_other s.turn

/-! ## What keeps a core sound -/

namespace CoreState.SoundBeside

variable {c d : CoreState}

/-- Of the other core only the fault register matters. -/
theorem congr_right {e : CoreState} (h : c.SoundBeside d) (he : e.rcp.fault = d.rcp.fault) : c.SoundBeside e :=
  { h with stalledIff := by rw [he]; exact h.stalledIff }

/-- A faulted core is sound beside any core. -/
theorem beside_of_fault (h : c.SoundBeside d) (hf : c.rcp.fault = true) (e : CoreState) : c.SoundBeside e :=
  { h with stalledIff := by simp [hf] }

/-- A trigger leaves a core sound beside any core. -/
theorem trigger (h : c.SoundBeside d) (cause : RcpCause) (e : CoreState) : (c.trigger cause).SoundBeside e where
  pcEven := by rw [CoreState.trigger_arm]; exact h.pcEven
  endedFaulted _ _ := CoreState.trigger_fault c cause
  faultEnded _ := CoreState.trigger_ended_ne_none c cause h.faultEnded
  stalledIff hclear := by rw [CoreState.trigger_fault] at hclear; cases hclear

/-- A stall is sound when its own fault register is set or the other core's is. -/
theorem stall (h : c.SoundBeside d) {e : CoreState} (hf : c.rcp.fault = true ∨ e.rcp.fault = true) :
    ({ c with run := .stalled } : CoreState).SoundBeside e :=
  { h with stalledIff := fun hclear => ⟨fun _ => hf.resolve_left (Bool.eq_false_iff.1 hclear), fun _ => rfl⟩ }

/-- The record of a UsageFault is none of an RCP fault. -/
theorem usageFault (h : c.SoundBeside d) :
    ({ c with ended := c.ended.or (some .undefInstr) } : CoreState).SoundBeside d :=
  { h with
    endedFaulted := fun cause he => h.endedFaulted cause (by cases hc : c.ended <;> simp_all)
    faultEnded := by simp }

end CoreState.SoundBeside

/-- The core differs in nothing the invariant speaks of: run, record, fault register and parity of the pc. -/
structure CoreState.SameStop (c c' : CoreState) : Prop where
  pc : c'.arm.pc.getLsbD 0 = c.arm.pc.getLsbD 0
  run : c'.run = c.run
  ended : c'.ended = c.ended
  fault : c'.rcp.fault = c.rcp.fault

theorem CoreState.SoundBeside.congr {c c' d : CoreState} (h : c.SoundBeside d) (hc : c.SameStop c') :
    c'.SoundBeside d where
  pcEven := hc.pc.trans h.pcEven
  endedFaulted := by rw [hc.ended, hc.fault]; exact h.endedFaulted
  faultEnded := by rw [hc.ended, hc.fault]; exact h.faultEnded
  stalledIff := by rw [hc.run, hc.fault]; exact h.stalledIff

/-! ## What keeps the invariant -/

/-- The pc of an instruction that completes stays even. -/
theorem getLsbD_zero_add_four (pc : Word) : (pc + 4).getLsbD 0 = pc.getLsbD 0 := by
  rw [BitVec.getLsbD_add (by decide), BitVec.carry_zero]
  simp

section
variable {s : State} (h : Inv s)
include h

theorem Inv.nextDraw : Inv s.nextDraw := inv_iff.2 (by simpa using inv_iff.1 h)

theorem Inv.endTurn : Inv s.endTurn := inv_iff.2 (by simpa using inv_iff.1 h)

/-- A core put in place of one that is the same to the invariant. -/
theorem Inv.setCore {k : CoreId} {c : CoreState} (hc : (s.core k).SameStop c) : Inv (s.setCore k c) := by
  refine inv_of_cores k (by simpa using h.memWf) ?_ ?_ <;> simp only [State.setCore_core_same, State.setCore_core_other]
  · exact (h.core k).congr hc
  · exact (h.core_other k).congr_right hc.fault

theorem Inv.setActive {c : CoreState} (hc : s.active.SameStop c) : Inv (s.setActive c) := Inv.setCore h hc

theorem Inv.withDelay (p : BitVec 24) (d : BitVec 7) : Inv (s.withDelay p d) := h.setActive ⟨rfl, rfl, rfl, rfl⟩

theorem Inv.finish : Inv (finish s) := by
  apply Inv.nextDraw
  exact h.setActive ⟨getLsbD_zero_add_four s.active.arm.pc, rfl, rfl, rfl⟩

theorem Inv.writeSalt (k : CoreId) (v : BitVec 64) :
    Inv (s.setCore k { s.core k with rcp := (s.core k).rcp.writeSalt v }) :=
  h.setCore ⟨rfl, rfl, rfl, rfl⟩

theorem Inv.withArmRcp {i : Instr} {a : ArmCore} {r : Rcp} (ha : ArmAfter i s a) (hr : RcpAfter i s r) :
    Inv (s.withArmRcp a r) := by
  obtain ⟨p, d, q, rfl, -⟩ := hr
  refine h.setActive ⟨?_, rfl, rfl, rfl⟩
  rcases ha with rfl | ⟨rt, v, -, rfl, -⟩ <;> simp

/-- An RCP fault triggers both cores. -/
theorem Inv.raiseRcpFault (c : RcpCause) : Inv (raiseRcpFault c s) := by
  refine inv_of_cores s.turn (by simpa using h.memWf) ?_ ?_ <;> rw [raiseRcpFault_core, raiseRcpFault_core_other]
  · exact h.active.trigger ..
  · exact h.other.trigger ..

/-- A panic stalls a core beside the one it triggers. -/
theorem Inv.panicState : Inv (panicState s) := by
  refine inv_of_cores s.turn (by simpa using h.memWf) ?_ ?_ <;> rw [panicState_core, panicState_core_other]
  · exact h.active.stall (.inr (CoreState.trigger_fault ..))
  · exact h.other.trigger ..

/-- A faulted core stalls. -/
theorem Inv.stallForever (hf : s.active.rcp.fault = true) : Inv (stallForever s) := by
  refine inv_of_cores s.turn (by simpa using h.memWf) ?_ ?_ <;> rw [stallForever_core, stallForever_core_other]
  · exact h.active.stall (.inl hf)
  · exact h.other.congr_right rfl

theorem Inv.raiseUsageFault : Inv (raiseUsageFault s) := by
  unfold Machine.raiseUsageFault
  refine inv_of_cores s.turn (by simpa using h.memWf) ?_ ?_ <;> rw [State.setActive_core, State.setActive_core_other]
  · exact h.active.usageFault
  · exact h.other.congr_right rfl

/-- A panic that is abandoned sets the fault register of the stalled core; the other core's is set already, by the
panic. -/
theorem Inv.abandonPanic (hr : s.active.run = .stalled) (hclear : s.active.rcp.fault = false) :
    Inv (s.setActive (s.active.trigger .panicAbandoned)) := by
  have hother : (s.core s.turn.other).rcp.fault = true := (h.active.stalledIff hclear).1 hr
  refine inv_of_cores s.turn (by simpa using h.memWf) ?_ ?_ <;> rw [State.setActive_core, State.setActive_core_other]
  · exact h.active.trigger ..
  · exact h.other.beside_of_fault hother _

theorem Inv.stalledTick (hr : s.active.run = .stalled) : Inv (stalledTick s) := by
  rcases stalledTick_cases s with ⟨_, e⟩ | ⟨_, _, e⟩ | ⟨hclear, _, e⟩ <;> rw [e]
  · exact h
  · exact h.nextDraw
  · exact (h.abandonPanic hr hclear).nextDraw

/-- Each of the six kinds of next state is made by operations that keep the invariant. -/
theorem Inv.exec {i : Instr} {t : State} (ht : exec i s = .next t) : Inv t := by
  cases exec_cases ht with
  | stall hf => exact h.stallForever hf
  | abandoned _ _ _ ha =>
    obtain ⟨p, d, rfl⟩ := ha
    exact (h.withDelay p d).nextDraw
  | faulted c p d => exact (h.withDelay p d).raiseRcpFault c
  | completed a r _ ha hr => exact (h.withArmRcp ha hr).finish
  | salt k v p d => exact ((h.withDelay p d).writeSalt k v).finish
  | panic p d => exact (h.withDelay p d).panicState

end

/-- Settles O55: each thing a step can do (`step_cases`) keeps the invariant. -/
theorem stepKeepsTheInvariant : Obligations.StepKeepsTheInvariant := by
  intro s t h ht
  rcases step_cases ht with ⟨hr, rfl⟩ | ⟨_, u, rfl, ⟨i, hi⟩ | ⟨hf, rfl⟩ | ⟨_, rfl | rfl⟩⟩ <;> apply Inv.endTurn
  · exact h.stalledTick hr
  · exact h.exec hi
  · exact h.stallForever hf
  · exact h.raiseRcpFault _
  · exact h.raiseUsageFault

/-! ## The instruction a step runs -/

theorem readWord_of_bytes {m : List Host.Cell} {a : Word} {b0 b1 b2 b3 : Byte} (h0 : readByte m a.toNat = some b0)
    (h1 : readByte m (a + 1).toNat = some b1) (h2 : readByte m (a + 2).toNat = some b2)
    (h3 : readByte m (a + 3).toNat = some b3) : readWord m a = some (wordOfBytes b0 b1 b2 b3) := by
  simp only [readWord, h0, h1, h2, h3]

theorem decodeWord_of_decodeBytes {b0 b1 b2 b3 : Byte} {i : Instr} (h : decodeBytes [b0, b1, b2, b3] = .ok (i, [])) :
    decodeWord (wordOfBytes b0 b1 b2 b3) = .ok i := by
  unfold decodeBytes at h
  cases hd : decodeWord (wordOfBytes b0 b1 b2 b3) <;> simp_all

theorem decodeWord_of_decodeTableWord {nbits w : Nat} {i : Instr} (h : decodeTableWord nbits w = some i) :
    decodeWord (tableWord nbits w) = .ok i := by
  rw [decodeTableWord, decodeBytes_bytesOfWord_nil] at h
  cases hd : decodeWord (tableWord nbits w) <;> simp_all

/-- A step of a running core at a legal pc runs the instruction its word decodes to. -/
theorem step_of_decodeWord {s : State} {w : Word} {i : Instr} (hr : s.active.run = .running)
    (he : s.active.ended ≠ some .undefInstr) (h0 : s.active.arm.pc.getLsbD 0 = false)
    (hp : s.active.arm.pc.toNat ≤ 0xfffffffb) (hw : readWord s.mem s.active.arm.pc = some w)
    (hd : decodeWord w = .ok i) : step s = passTurn (exec i s) := by
  rw [step_of_readWord hr he h0 hp hw, executeWord_of_ok exec s hd]

/-- Settles O7: the step is `passTurn (exec i s)`, and an instruction leaves the turns to `passTurn`. -/
theorem stepRunsTheDecodedInstruction : Obligations.StepRunsTheDecodedInstruction := by
  intro s i b0 b1 b2 b3 hr he h0 hp hb0 hb1 hb2 hb3 hd
  rw [step_of_decodeWord hr he h0 hp (readWord_of_bytes hb0 hb1 hb2 hb3) (decodeWord_of_decodeBytes hd)]
  refine ⟨fun t ht => ?_, fun r hx => by rw [hx, passTurn], fun r hx => by rw [hx, passTurn]⟩
  obtain ⟨hturn, hturns⟩ := exec_turn ht
  rw [ht, passTurn, State.endTurn_eq, hturn, hturns]

/-! ## A loaded word -/

/-- Loading a word that does not pass the end of the address space leaves every byte but its four alone. -/
theorem readByte_loadWord_outside (m : List Host.Cell) {a : Word} (w : Word) (ha : a.toNat ≤ 0xfffffffb) {c : Nat}
    (hc : c < a.toNat ∨ a.toNat + 3 < c) : readByte (loadWord m a w) c = readByte m c := by
  refine readByte_loadBytes_outside _ m a c fun i hi => ?_
  have hi4 : i < 4 := hi
  rw [BitVec.toNat_add, BitVec.toNat_ofNat]
  omega

/-- Settles O8: the fetch reads the loaded word (`readWord_loadWord`), and loading writes its four bytes only. -/
theorem placedWordIsExecuted : Obligations.PlacedWordIsExecuted := by
  intro s nbits w i hr he h0 hp hd
  refine ⟨?_, fun a ha => ?_⟩
  · have hread : readWord (s.withFetchWord nbits w).mem (s.withFetchWord nbits w).active.arm.pc =
        some (tableWord nbits w) := by simp
    rw [← withFetchWord_active s nbits w] at hr he h0 hp
    exact step_of_decodeWord hr he h0 hp hread (decodeWord_of_decodeTableWord hd)
  · rw [withFetchWord_mem]
    exact readByte_loadWord_outside s.mem _ hp ha

end Sys2Proof.Machine
